-- ==== Sys2Proof/Word.lean ====
section
/-! DEFINITION. The words of festy CORE: bytes, 32-bit values and address-wide values (00_scope.md R5, R6). -/

namespace Sys2Proof

/-- A byte of a memory, of a tree or of the output (R6: `u8`). -/
abbrev Byte := BitVec 8

/-- A 32-bit value: the CRC register, the header fields, a command word (R5). -/
abbrev Word := BitVec 32

/-- A value as wide as an address: `AW` = 32 bits (R5, log 1). -/
abbrev Addr := BitVec 32

end Sys2Proof
end

