-- ==== Sys2Proof/Config.lean ====
section
/-! DEFINITION. The constants the source fixes (00_scope.md R4), the parameters the implementation fixes (R5) and the
free values (93_implementation_defined.md U4, U5, U6). -/

namespace Sys2Proof.Config

/-- The sector marker as a little-endian 32-bit value (R4). -/
def MARKER : Word := 0x434F4D50#32

/-- Distance between probed offsets (R4). -/
def SCAN_STRIDE : Nat := 64

/-- The last probed offset, inclusive (R4, 90_conflicts.md C1). -/
def SCAN_LAST : Nat := 1024

/-- Offset of `expected_length` from the marker (R4). -/
def OFF_LENGTH : Nat := 8

/-- Offset of `expected_crc` from the marker (R4). -/
def OFF_CRC : Nat := 12

/-- Offset of the Huffman descriptor from the marker (R4). -/
def OFF_HUFF : Nat := 16

/-- The Huffman format discriminator byte (R4). -/
def DISCR : Byte := 0x28#8

/-- The bit-reversed CRC32 polynomial, the hardwired content of `CRC.POLY` (R4, 10_state.md R23). -/
def POLY : Word := 0xEDB88320#32

/-- The CRC32 seed (R4). -/
def SEED : Word := 0xFFFFFFFF#32

/-- Width in bits of addresses, lengths and `ERRPARAM` (R5: the value this hardware takes, log 1). -/
def AW : Nat := 32

/-- Bytes in each of `IBUF` and `OBUF` (R5: the value this hardware takes, log 1). -/
def CAP : Nat := 33554432

/-- FREE VALUE (U5, log 4): what address `addr` of `IBUF` holds when nothing has written it since its contents were
last left open for the `generation`-th time. No body: nothing can be proved of it. -/
opaque ibufOpen : (generation addr : Nat) → Byte

/-- FREE VALUE (U4, U5, U6, log 4): the same for `OBUF`. -/
opaque obufOpen : (generation addr : Nat) → Byte

end Sys2Proof.Config
end

