-- ==== Sys2Proof/Syntax.lean ====
section
/-! DEFINITION. The instructions: one constructor for each row of spec/opcode_table.json (30_encoding.md R85). -/

namespace Sys2Proof

/-- The two byte memories (10_state.md R37, R38). -/
inductive Buffer where
  | ibuf
  | obuf
deriving DecidableEq, Repr

/-- What the block selects and carries out. Three are commands a host writes (R77), two are bit steps of the CRC
(R84), one is the byte fold (R102), four are walker micro-operations (R83) and two are patterns matched in the data
(R85). `off` is the offset field `entry[5:0]`; `other` is the tag bit of the entry that the row does not look at. -/
inductive Instr where
  /-- `CRC32` (R173): fold the operand of memory `src` into the CRC register; `SEL` names the memory. -/
  | crc32 (src : Buffer)
  /-- `HDEC` (R174): decode a Huffman descriptor. -/
  | hdec
  /-- `DECOMP` (R175): decompress a container file. -/
  | decomp
  /-- `CRC.SHIFT` (R100). -/
  | crcShift
  /-- `CRC.SHIFTXOR` (R101). -/
  | crcShiftXor
  /-- `CRC.BYTE` (R102) with its data byte. -/
  | crcByte (b : Byte)
  /-- `WALK.L.NODE` (R131): stream bit 0, left child a node. -/
  | walkLNode (other : Bool) (off : Nat)
  /-- `WALK.L.LEAF` (R132): stream bit 0, left child a leaf. -/
  | walkLLeaf (other : Bool) (off : Nat)
  /-- `WALK.R.NODE` (R133): stream bit 1, right child a node. -/
  | walkRNode (other : Bool) (off : Nat)
  /-- `WALK.R.LEAF` (R134): stream bit 1, right child a leaf. -/
  | walkRLeaf (other : Bool) (off : Nat)
  /-- `SECT.MARK` (R151): a probed word is the sector marker. -/
  | sectMark
  /-- `DESC.HUFF8` (R122): a discriminator byte is 0x28. -/
  | descHuff8
deriving DecidableEq, Repr

end Sys2Proof
end

