-- ==== Sys2Proof/WellFormed.lean ====
section
/-! DEFINITION. Which instructions an encoding exists for. -/

namespace Sys2Proof

/-- An offset fits its field `entry[5:0]` (30_encoding.md R74). Every other operand is as wide as its field. -/
def offsetFits (off : Nat) : Bool := decide (off < 64)

/-- An instruction that some selecting value stands for. -/
def WellFormed : Instr → Bool
  | .crc32 _ => true
  | .hdec => true
  | .decomp => true
  | .crcShift => true
  | .crcShiftXor => true
  | .crcByte _ => true
  | .walkLNode _ off => offsetFits off
  | .walkLLeaf _ off => offsetFits off
  | .walkRNode _ off => offsetFits off
  | .walkRLeaf _ off => offsetFits off
  | .sectMark => true
  | .descHuff8 => true

end Sys2Proof
end

