-- ==== Sys2Proof/Decode.lean ====
section
/-! DEFINITION. From a selecting value to an instruction, and back (30_encoding.md R77, R83 to R87). -/

namespace Sys2Proof

/-- A selecting value, with the format it is read in (R70, R85). Which format a value is read in is decided by the
place the value comes from, never by the value. -/
inductive Selector where
  /-- Format `CMD`: the command word (R77). -/
  | cmd (v : Word)
  /-- Format `CRCW`: bit 0 of `CRC.W` (R84). -/
  | crcw (w0 : BitVec 1)
  /-- No format: a data byte to be folded (R85). -/
  | data (b : Byte)
  /-- Format `WALK`: the stream bit (bit 8) and `HUF.ENTRY` (bits 7:0) (R83). -/
  | walk (v : BitVec 9)
  /-- Format `SECT`: the word at a probed offset (R71). -/
  | sect (v : Word)
  /-- Format `DESC`: the byte at the start of a descriptor (R72). -/
  | desc (d : Byte)
deriving DecidableEq, Repr

/-- Why a value selects no row, by name (R86, R87). -/
inductive Reject where
  /-- Not one of the four legal command words (R86). -/
  | illegalCommand (v : Word)
  /-- A probed word that is not the marker: the scan goes on (R87 (b)). -/
  | notMarker (v : Word)
  /-- A discriminator that is not 0x28 (R87 (a)). -/
  | notHuff8 (d : Byte)
deriving DecidableEq, Repr

/-- Format `CMD` (R77): `OP` in bits 1:0, `SEL` in bit 2, bits 31:3 zero, `SEL` zero for `HDEC` and `DECOMP`. -/
def decodeCmd (v : Word) : Except Reject Instr :=
  let op : BitVec 2 := v.extractLsb' 0 2
  let sel : Bool := v.getLsbD 2
  let reserved : BitVec 29 := v.extractLsb' 3 29
  if reserved ≠ 0#29 then .error (.illegalCommand v)
  else if op = 0b01#2 then .ok (.crc32 (if sel then .obuf else .ibuf))
  else if op = 0b10#2 ∧ sel = false then .ok .hdec
  else if op = 0b11#2 ∧ sel = false then .ok .decomp
  else .error (.illegalCommand v)

/-- Format `CRCW` (R84). -/
def decodeCrcw (w0 : BitVec 1) : Instr :=
  if w0 = 1#1 then .crcShiftXor else .crcShift

/-- Format `WALK` (R83): the stream bit picks the side, and the tag of the entry for that side picks node or leaf. -/
def decodeWalk (v : BitVec 9) : Instr :=
  let b : Bool := v.getLsbD 8
  let tagL : Bool := v.getLsbD 7
  let tagR : Bool := v.getLsbD 6
  let off : Nat := (v.extractLsb' 0 6).toNat
  match b, tagL, tagR with
  | false, false, x => .walkLNode x off
  | false, true, x => .walkLLeaf x off
  | true, x, false => .walkRNode x off
  | true, x, true => .walkRLeaf x off

/-- The decoder: total on every value of every format, rejecting by name. -/
def decode : Selector → Except Reject Instr
  | .cmd v => decodeCmd v
  | .crcw w0 => .ok (decodeCrcw w0)
  | .data b => .ok (.crcByte b)
  | .walk v => .ok (decodeWalk v)
  | .sect v => if v = Config.MARKER then .ok .sectMark else .error (.notMarker v)
  | .desc d => if d = Config.DISCR then .ok .descHuff8 else .error (.notHuff8 d)

/-- A command word from its fields (R77). -/
def cmdWord (sel : Bool) (op : BitVec 2) : Word := 0#29 ++ BitVec.ofBool sel ++ op

/-- A walk value from its fields (R83). -/
def walkValue (b tagL tagR : Bool) (off : Nat) : BitVec 9 :=
  BitVec.ofBool b ++ BitVec.ofBool tagL ++ BitVec.ofBool tagR ++ BitVec.ofNat 6 off

/-- The encoder: the value a well-formed instruction is selected by (R77, R83, R84, R85). -/
def encode : Instr → Selector
  | .crc32 .ibuf => .cmd (cmdWord false 0b01#2)
  | .crc32 .obuf => .cmd (cmdWord true 0b01#2)
  | .hdec => .cmd (cmdWord false 0b10#2)
  | .decomp => .cmd (cmdWord false 0b11#2)
  | .crcShift => .crcw 0#1
  | .crcShiftXor => .crcw 1#1
  | .crcByte b => .data b
  | .walkLNode other off => .walk (walkValue false false other off)
  | .walkLLeaf other off => .walk (walkValue false true other off)
  | .walkRNode other off => .walk (walkValue true other false off)
  | .walkRLeaf other off => .walk (walkValue true other true off)
  | .sectMark => .sect Config.MARKER
  | .descHuff8 => .desc Config.DISCR

/-- The names of the formats of spec/opcode_table.json. -/
inductive Format where
  | cmd
  | crcw
  | none
  | walk
  | sect
  | desc
deriving DecidableEq, Repr

/-- The format of a selecting value. -/
def selectorFormat : Selector → Format
  | .cmd _ => .cmd
  | .crcw _ => .crcw
  | .data _ => .none
  | .walk _ => .walk
  | .sect _ => .sect
  | .desc _ => .desc

/-- A selecting value as a number, bit 0 the least significant (R85). -/
def selectorValue : Selector → Nat
  | .cmd v => v.toNat
  | .crcw w0 => w0.toNat
  | .data b => b.toNat
  | .walk v => v.toNat
  | .sect v => v.toNat
  | .desc d => d.toNat

/-- A row of spec/opcode_table.json: it is selected when `value & mask = match` (R85). -/
structure TableRow where
  format : Format
  width : Nat
  pattern : Nat
  mask : Nat
deriving DecidableEq, Repr

/-- The row of the opcode table that each instruction stands for (R85). -/
def tableRow : Instr → TableRow
  | .crc32 _ => ⟨.cmd, 32, 0x00000001, 0xFFFFFFFB⟩
  | .hdec => ⟨.cmd, 32, 0x00000002, 0xFFFFFFFF⟩
  | .decomp => ⟨.cmd, 32, 0x00000003, 0xFFFFFFFF⟩
  | .crcShift => ⟨.crcw, 1, 0x0, 0x1⟩
  | .crcShiftXor => ⟨.crcw, 1, 0x1, 0x1⟩
  | .crcByte _ => ⟨.none, 8, 0x00, 0x00⟩
  | .walkLNode _ _ => ⟨.walk, 9, 0x000, 0x180⟩
  | .walkLLeaf _ _ => ⟨.walk, 9, 0x080, 0x180⟩
  | .walkRNode _ _ => ⟨.walk, 9, 0x100, 0x140⟩
  | .walkRLeaf _ _ => ⟨.walk, 9, 0x140, 0x140⟩
  | .sectMark => ⟨.sect, 32, 0x434F4D50, 0xFFFFFFFF⟩
  | .descHuff8 => ⟨.desc, 8, 0x28, 0xFF⟩

/-- The row's own test on a selecting value: same format, and the masked value is the row's pattern. -/
def TableRow.selects (r : TableRow) (sel : Selector) : Bool :=
  decide (selectorFormat sel = r.format) && decide (selectorValue sel &&& r.mask = r.pattern)

/-- The selecting value that `nbits` bits `w` of the opcode table stand for. The table gives no format with a word, so
the width picks it: 32 bits a marker word or else a command word, 16 (or 9) bits a walk value, 1 bit a CRC bit, 8 bits
the discriminator 0x28, a lone CRC bit 0 or 1, or else a data byte (DESIGN CHOICE, log 13). -/
def tableSelector (nbits w : Nat) : Option Selector :=
  if nbits = 32 then
    if w = Config.MARKER.toNat then some (.sect Config.MARKER)
    else if w < 2 ^ 32 then some (.cmd (BitVec.ofNat 32 w)) else none
  else if nbits = 16 ∨ nbits = 9 then
    if w < 2 ^ 9 then some (.walk (BitVec.ofNat 9 w)) else none
  else if nbits = 8 then
    if w = Config.DISCR.toNat then some (.desc Config.DISCR)
    else if w < 2 then some (.crcw (BitVec.ofNat 1 w))
    else if w < 2 ^ 8 then some (.data (BitVec.ofNat 8 w)) else none
  else if nbits = 1 then
    if w < 2 then some (.crcw (BitVec.ofNat 1 w)) else none
  else none

/-- The instruction the decoder reads from a word of the opcode table. -/
def decodeTableWord (nbits w : Nat) : Option Instr :=
  match tableSelector nbits w with
  | some sel => (decode sel).toOption
  | none => none

end Sys2Proof
end

