-- ==== Sys2Proof/Machine/State.lean ====
section
/-! DEFINITION. The state of festy CORE as plain data (10_state.md R20 to R47), the reasons a step can stop, and the
state after reset (70_reset_and_hazards.md R221). -/

namespace Sys2Proof.Machine

/-- The eight failure results (60_exceptions.md R190). -/
inductive Failure where
  | bufferTooSmall
  | unsupportedFormat
  | treeOverflow
  | trailingBytes
  | truncatedInput
  | lengthMismatch
  | checksumMismatch
  | sectorNotFound
deriving DecidableEq, Repr

/-- `SEQ.PHASE` (10_state.md R31). -/
inductive Phase where
  | idle
  | scan
  | hdr
  | copy
  | hufInit
  | hufBit
  | lenChk
  | crcA
  | crcB
  | crcChk
deriving DecidableEq, Repr

/-- `SEQ.OP` (10_state.md R34): 00 before any command, else the operation in progress or last run. -/
inductive SeqOp where
  | none
  | crc32
  | hdec
  | decomp
deriving DecidableEq, Repr

/-- Checksum unit registers (10_state.md R22, R24, R33). `CRC.POLY` is hardwired: it is `Config.POLY`. -/
structure CrcUnit where
  /-- `CRC.REG` -/
  reg : Word
  /-- `CRC.W`. What it holds between steps is the model's choice (log 2 at reset, log 22 after a byte fold). -/
  w : Word
  /-- The MODEL's own (log 3): bit iterations of a byte fold still to run; 0 between the steps of R31. -/
  iter : Nat
  /-- `CRC.SEL`: 0 is `IBUF`, 1 is `OBUF`. -/
  sel : Buffer
  /-- `CRC.BASE` -/
  base : Addr
  /-- `CRC.LEN` -/
  len : Addr
  /-- `CRC.IDX` -/
  idx : Addr
deriving DecidableEq, Repr

/-- Huffman unit registers (10_state.md R25 to R28, R32). -/
structure HufUnit where
  /-- `HUF.OUTLEN` -/
  outLen : BitVec 24
  /-- `HUF.EXTRA` -/
  extra : BitVec 8
  /-- `HUF.MAGIDX` -/
  magIdx : BitVec 10
  /-- `HUF.POS` -/
  pos : BitVec 9
  /-- `HUF.ENTRY` -/
  entry : BitVec 8
  /-- `HUF.OUTPOS` -/
  outPos : BitVec 24
  /-- `HUF.SBASE` -/
  sbase : Addr
  /-- `HUF.SLEN` -/
  slen : Addr
  /-- `HUF.OBASE` -/
  obase : Addr
  /-- `HUF.CHUNK` -/
  chunk : Addr
  /-- `HUF.BYTE` -/
  byte : BitVec 2
  /-- `HUF.MASK` -/
  mask : BitVec 8
deriving DecidableEq, Repr

/-- Container unit registers (10_state.md R29). -/
structure DspUnit where
  /-- `DSP.PROBE` -/
  probe : BitVec 11
  /-- `DSP.OFFSET` -/
  offset : BitVec 11
  /-- `DSP.EXPLEN` -/
  expLen : Word
  /-- `DSP.EXPCRC` -/
  expCrc : Word
  /-- `DSP.HSTART` -/
  hStart : BitVec 11
  /-- `DSP.CPIDX` -/
  cpIdx : BitVec 11
  /-- `DSP.FBASE` -/
  fbase : Addr
  /-- `DSP.FLEN` -/
  flen : Addr
deriving DecidableEq, Repr

/-- The sequencer position (10_state.md R30, R31, R34). -/
structure Sequencer where
  /-- `SEQ.OP` -/
  op : SeqOp
  /-- `SEQ.PHASE` -/
  phase : Phase
deriving DecidableEq, Repr

/-- The four status flags (10_state.md R35). -/
structure StatusFlags where
  busy : Bool
  done : Bool
  err : Bool
  illCmd : Bool
deriving DecidableEq, Repr

/-- The host registers that have storage of their own (10_state.md R43, R44, R46). -/
structure HostRegs where
  /-- `ERRCODE`, as a sum type: `none` is code 0, no failure (92_eei_decisions.md D5). -/
  errCode : Option Failure
  /-- `ERRPARAM` -/
  errParam : Addr
  /-- `ARG_BASE` -/
  argBase : Addr
  /-- `ARG_LEN` -/
  argLen : Addr
  /-- `RESULT_LEN` -/
  resultLen : Addr
deriving DecidableEq, Repr

/-- A byte memory of `Config.CAP` bytes (10_state.md R37, R38). -/
structure Memory where
  /-- The bytes that have a definite value, at strictly rising addresses. An unlisted address has no value here. -/
  cells : List Host.Cell
  /-- The MODEL's own (log 4): the bounds of the ranges `[0 .. n)` whose bytes became unspecified, last one first. -/
  opens : List Nat
deriving DecidableEq, Repr

/-- What a host can do (43_system.md R170). A register is named by its number, a value is a natural number. -/
inductive HostAction where
  | readReg (number : Nat)
  | writeReg (number : Nat) (value : Nat)
  | readMem (buf : Buffer) (addr count : Nat)
  | writeMem (buf : Buffer) (addr : Nat) (bytes : List Byte)
deriving DecidableEq, Repr

/-- Who moves next (log 7): the engine, the host, or the reset input (70_reset_and_hazards.md R220). -/
inductive Input where
  | engine
  | host (a : HostAction)
  | reset
deriving DecidableEq, Repr

/-- What the last host read returned (the MODEL's own, log 15). -/
inductive HostReply where
  | none
  | reg (v : Word)
  | bytes (bs : List Byte)
deriving DecidableEq, Repr

/-- The whole state. `inputs` and `reply` are the MODEL's own. -/
structure State where
  crc : CrcUnit
  huf : HufUnit
  dsp : DspUnit
  seq : Sequencer
  status : StatusFlags
  regs : HostRegs
  ibuf : Memory
  obuf : Memory
  inputs : List Input
  reply : HostReply
deriving DecidableEq, Repr

/-- Why the machine stops with a fault. -/
inductive Fault where
  /-- An access to an address the memory does not have, at or above `Config.CAP` (R37, R38). Raised by the memory
  reads and writes of Machine/Ops.lean. Safe: the model stops where the spec has no byte; R57 says that no engine
  access does this. -/
  | outsideMemory (buf : Buffer) (addr : Nat)
deriving DecidableEq, Repr

/-- Why the machine gives a step no meaning. -/
inductive Refusal where
  /-- An instruction without a meaning yet, raised by an arm of `exec` alone. Safe. -/
  | notModelled (mnemonic : String)
  /-- `out_length` = 0 after the three entry checks (41_huffman.md R126, 93_implementation_defined.md U1), raised by
  `DESC.HUFF8`. Safe: the spec gives no behaviour and asks the model to give none. -/
  | zeroOutLength
  /-- A host access other than a `STATUS` read while `BUSY` = 1 (70_reset_and_hazards.md R231, U3), raised by the host
  actions and the three commands. Safe: the spec gives no behaviour and asks the model to refuse. -/
  | hostAccessWhileBusy
deriving DecidableEq, Repr

/-- The outcome of a step or of a meaning. -/
abbrev Out := Host.Outcome State Fault Refusal

/-- A memory after power-on: no byte has a definite value (70_reset_and_hazards.md R221, log 4). -/
def Memory.blank : Memory := { cells := [], opens := [] }

/-- The machine right after reset (70_reset_and_hazards.md R221). `CRC.W` is unspecified there and is 0 here
(DESIGN CHOICE, log 2). -/
def State.reset : State where
  crc := { reg := Config.SEED, w := 0#32, iter := 0, sel := .ibuf, base := 0#32, len := 0#32, idx := 0#32 }
  huf :=
    { outLen := 0#24, extra := 0#8, magIdx := 0#10, pos := 0#9, entry := 0#8, outPos := 0#24
      sbase := 0#32, slen := 0#32, obase := 0#32, chunk := 0#32, byte := 0#2, mask := 0#8 }
  dsp :=
    { probe := 0#11, offset := 0#11, expLen := 0#32, expCrc := 0#32, hStart := 0#11, cpIdx := 0#11
      fbase := 0#32, flen := 0#32 }
  seq := { op := .none, phase := .idle }
  status := { busy := false, done := false, err := false, illCmd := false }
  regs := { errCode := .none, errParam := 0#32, argBase := 0#32, argLen := 0#32, resultLen := 0#32 }
  ibuf := .blank
  obuf := .blank
  inputs := []
  reply := .none

end Sys2Proof.Machine
end

