-- ==== Sys2Proof/Machine/Flags.lean ====
section
/-! DEFINITION. The status flags, the failure codes and the two conditions computed inside a bit step. -/

namespace Sys2Proof.Machine

/-- The status word `[ILLCMD, ERR, DONE, BUSY]`, `BUSY` at bit 0 (10_state.md R42). -/
def statusWord (f : StatusFlags) : BitVec 4 :=
  BitVec.ofBool f.illCmd ++ BitVec.ofBool f.err ++ BitVec.ofBool f.done ++ BitVec.ofBool f.busy

/-- The code of a failure (60_exceptions.md R190). -/
def failureCode : Failure → BitVec 4
  | .bufferTooSmall => 1#4
  | .unsupportedFormat => 2#4
  | .treeOverflow => 3#4
  | .trailingBytes => 4#4
  | .truncatedInput => 5#4
  | .lengthMismatch => 6#4
  | .checksumMismatch => 7#4
  | .sectorNotFound => 8#4

/-- The content of `ERRCODE`: 0 is no failure (60_exceptions.md R190, 10_state.md R43). -/
def errCodeWord : Option Failure → BitVec 4
  | none => 0#4
  | some e => failureCode e

/-- The class of a failure: stored nowhere, a property of the code (60_exceptions.md R199). -/
inductive FailureClass where
  | format
  | structural
  | integrity
deriving DecidableEq, Repr

/-- R190, R199. -/
def failureClass : Failure → FailureClass
  | .bufferTooSmall => .format
  | .unsupportedFormat => .format
  | .treeOverflow => .structural
  | .trailingBytes => .structural
  | .truncatedInput => .structural
  | .lengthMismatch => .integrity
  | .checksumMismatch => .integrity
  | .sectorNotFound => .format

/-- A legal command write: `BUSY` set, `DONE` and `ERR` cleared, `ILLCMD` kept (10_state.md R35, 43_system.md R171). -/
def flagsStarted (f : StatusFlags) : StatusFlags := { f with busy := true, done := false, err := false }

/-- The finishing step: `BUSY` cleared, `DONE` set, `ERR` as the result says (R35, 43_system.md R176). -/
def flagsEnded (failed : Bool) (f : StatusFlags) : StatusFlags := { f with busy := false, done := true, err := failed }

/-- An illegal command write: `ILLCMD` set, nothing else (R35, 43_system.md R177). -/
def flagsIllegal (f : StatusFlags) : StatusFlags := { f with illCmd := true }

/-- The payload-full condition of a bit step, after the increment (10_state.md R36, 41_huffman.md R135). -/
def payloadFull (h : HufUnit) : Bool := decide (h.outPos = h.outLen)

/-- The three operations as `SEQ.OP` holds them, `CMD.OP` bits 1:0 (10_state.md R34, 30_encoding.md R77). -/
def seqOpBits : SeqOp → BitVec 2
  | .none => 0b00#2
  | .crc32 => 0b01#2
  | .hdec => 0b10#2
  | .decomp => 0b11#2

end Sys2Proof.Machine
end

