-- ==== Sys2Proof/Machine/Ops.lean ====
section
/-! DEFINITION. The shared operations: the byte memories, little-endian reads, the end of an operation, a failure
result (the machine's one way of taking an exception), the start of an operation and the reset input. -/

namespace Sys2Proof.Machine

/-! ### Byte memories -/

/-- The definite byte at an address, if it has one. -/
def lookupCell : List Host.Cell → Nat → Option Byte
  | [], _ => none
  | (k, v) :: rest, a => if k = a then some v else lookupCell rest a

/-- Put a byte into a list of cells at strictly rising addresses. -/
def insertCell (a : Nat) (b : Byte) : List Host.Cell → List Host.Cell
  | [] => [(a, b)]
  | (k, v) :: rest =>
    if a < k then (a, b) :: (k, v) :: rest
    else if a = k then (a, b) :: rest
    else (k, v) :: insertCell a b rest

/-- How often the byte at `a` has become unspecified: which of the free values an unlisted byte has (log 4). -/
def openGeneration (opens : List Nat) (a : Nat) : Nat := (opens.filter (fun n => decide (a < n))).length

/-- The bytes below `n` become unspecified; every other byte keeps its value (log 4, 5, 6). -/
def Memory.spoil (n : Nat) (m : Memory) : Memory :=
  if n = 0 then m else { cells := m.cells.filter (fun c => decide (n ≤ c.1)), opens := n :: m.opens }

/-- Write one byte. -/
def Memory.put (a : Nat) (b : Byte) (m : Memory) : Memory := { m with cells := insertCell a b m.cells }

/-- Write bytes at ascending addresses. -/
def Memory.putAll (a : Nat) : List Byte → Memory → Memory
  | [], m => m
  | b :: bs, m => Memory.putAll (a + 1) bs (m.put a b)

/-- Cells at strictly rising addresses, all of them at or above `lo` and inside the memory. -/
def cellsFrom (lo : Nat) : List Host.Cell → Bool
  | [] => true
  | (k, _) :: rest => decide (lo ≤ k) && decide (k < Config.CAP) && cellsFrom (k + 1) rest

/-- The canonical form of a memory: strictly rising addresses inside the memory. No entry can equal what an unlisted
address reads as, because an unlisted address has no definite value (log 4). -/
def Memory.wf (m : Memory) : Bool := cellsFrom 0 m.cells

/-- The memory a buffer name stands for. -/
def State.memory (s : State) : Buffer → Memory
  | .ibuf => s.ibuf
  | .obuf => s.obuf

/-- Replace the memory a buffer name stands for. -/
def State.withMemory (s : State) : Buffer → Memory → State
  | .ibuf, m => { s with ibuf := m }
  | .obuf, m => { s with obuf := m }

/-- The free value of an unlisted byte (U4, U5, U6; log 4). -/
def openByte : Buffer → Nat → Nat → Byte
  | .ibuf, g, a => Config.ibufOpen g a
  | .obuf, g, a => Config.obufOpen g a

/-- What the byte at an address of a memory is, for any address: the byte last written there, or a free value. -/
def byteAt (buf : Buffer) (m : Memory) (a : Nat) : Byte :=
  (lookupCell m.cells a).getD (openByte buf (openGeneration m.opens a) a)

/-- `MemRead(M:a, 1)` (00_scope.md R8): a byte of the memory. Reading has no side effect (20_memory.md R55). -/
def readByte (buf : Buffer) (a : Nat) (s : State) : Except Fault Byte :=
  if a < Config.CAP then .ok (byteAt buf (s.memory buf) a) else .error (.outsideMemory buf a)

/-- `MemRead(M:a, n)` (00_scope.md R8): `n` bytes, least significant at the lowest address (20_memory.md R50). No
alignment is asked for (R53). -/
def readLE (buf : Buffer) (a : Nat) : Nat → State → Except Fault Nat
  | 0, _ => .ok 0
  | n + 1, s =>
    match readByte buf a s with
    | .error f => .error f
    | .ok b =>
      match readLE buf (a + 1) n s with
      | .error f => .error f
      | .ok hi => .ok (b.toNat + 256 * hi)

/-- `n` bytes from an address, in ascending order: what a host reads (43_system.md R170). -/
def readBytes (buf : Buffer) (a : Nat) : Nat → State → Except Fault (List Byte)
  | 0, _ => .ok []
  | n + 1, s =>
    match readByte buf a s with
    | .error f => .error f
    | .ok b =>
      match readBytes buf (a + 1) n s with
      | .error f => .error f
      | .ok bs => .ok (b :: bs)

/-- `MemWrite(M:a, 1, v)` (00_scope.md R8). -/
def writeByte (buf : Buffer) (a : Nat) (v : Byte) (s : State) : Except Fault State :=
  if a < Config.CAP then .ok (s.withMemory buf ((s.memory buf).put a v)) else .error (.outsideMemory buf a)

/-- A host's write of several bytes: all of them, or none when one of them has no address (43_system.md R170). -/
def writeBytes (buf : Buffer) (a : Nat) (bs : List Byte) (s : State) : Except Fault State :=
  if bs = [] ∨ a + bs.length ≤ Config.CAP then .ok (s.withMemory buf ((s.memory buf).putAll a bs))
  else .error (.outsideMemory buf (a + bs.length - 1))

/-- Go on with what an access gives, or stop with its fault. -/
def access {α : Type} (x : Except Fault α) (k : α → Out) : Out :=
  match x with
  | .ok v => k v
  | .error f => .fault f

/-! ### The end of an operation -/

/-- The finishing step of an operation that succeeds (43_system.md R176). `RESULT_LEN` is the caller's. -/
def State.finish (s : State) : State :=
  { s with status := flagsEnded false s.status, seq := { s.seq with phase := .idle } }

/-- How many bytes of `OBUF` are unspecified after a failure in this phase (60_exceptions.md R201,
70_reset_and_hazards.md R233, 93_implementation_defined.md U4; log 5): none before the first `COPY` step, the copied
preamble when the descriptor is refused, the preamble and the whole payload after that. -/
def spoiledBytes (s : State) : Nat :=
  match s.seq.phase with
  | .idle => 0
  | .scan => 0
  | .hdr => 0
  | .copy => s.dsp.cpIdx.toNat
  | .hufInit => s.huf.obase.toNat
  | .hufBit => s.huf.obase.toNat + s.huf.outLen.toNat
  | .lenChk => s.huf.obase.toNat + s.huf.outLen.toNat
  | .crcA => s.huf.obase.toNat + s.huf.outLen.toNat
  | .crcB => s.huf.obase.toNat + s.huf.outLen.toNat
  | .crcChk => s.huf.obase.toNat + s.huf.outLen.toNat

/-- The state after `raise E(n)` (60_exceptions.md R200): the code and the parameter are recorded, there is no result,
the flags say `DONE` and `ERR`, the engine is idle. Nothing is saved and control goes nowhere. The output bytes the
operation may have written become free values (R201, log 5). -/
def State.failed (e : Failure) (n : Nat) (s : State) : State :=
  { s with
    regs := { s.regs with errCode := some e, errParam := BitVec.ofNat 32 n, resultLen := 0#32 }
    status := flagsEnded true s.status
    seq := { s.seq with phase := .idle }
    obuf := s.obuf.spoil (spoiledBytes s) }

/-- `raise E(n)`: the one way a failure result is taken (60_exceptions.md R200). -/
def raise (e : Failure) (n : Nat) (s : State) : Out := .next (s.failed e n)

/-! ### The start of an operation -/

/-- What every legal command write does (43_system.md R171). It is also all there is to going on after a failure:
`DONE`, `ERR`, `ERRCODE` and `ERRPARAM` are cleared (60_exceptions.md R203); there is no return. -/
def State.begun (op : SeqOp) (p : Phase) (s : State) : State :=
  { s with
    status := flagsStarted s.status
    regs := { s.regs with errCode := none, errParam := 0#32 }
    seq := { op := op, phase := p } }

/-- An illegal command write (43_system.md R177): nothing but the sticky flag. -/
def State.illegal (s : State) : State := { s with status := flagsIllegal s.status }

/-- The operand named by `ARG_BASE` and `ARG_LEN` fits the memory; the sum is a natural number (R171, R177). -/
def operandFits (s : State) : Bool := decide (s.regs.argBase.toNat + s.regs.argLen.toNat ≤ Config.CAP)

/-- The frame of the three commands (43_system.md R171): refused while busy (70_reset_and_hazards.md R231), illegal
when the operand does not fit, else begun, with `load` writing the unit registers. -/
def command (op : SeqOp) (p : Phase) (load : State → State) (s : State) : Out :=
  if s.status.busy then .refused .hostAccessWhileBusy
  else if operandFits s then .next (load (s.begun op p))
  else .next s.illegal

/-! ### The reset input -/

/-- The reset input (70_reset_and_hazards.md R220 to R222): every register at its reset value, the operation in flight
gone without a finishing step, the contents of both memories unspecified (U5, U6; log 6). The host's later actions
still come. -/
def State.afterReset (s : State) : State :=
  { State.reset with
    ibuf := s.ibuf.spoil Config.CAP
    obuf := s.obuf.spoil Config.CAP
    inputs := s.inputs
    reply := s.reply }

end Sys2Proof.Machine
end

