-- ==== Sys2Proof/Machine/Operands.lean ====
section
/-! DEFINITION. The operand forms: base plus index, the one addressing mode (20_memory.md R56), for the file, the
source, the tree, the bitstream, the folded data and the payload; and the bitstream cursor (10_state.md R32). -/

namespace Sys2Proof.Machine

/-- The address in `IBUF` of `file[i]` (R56). -/
def fileAddr (s : State) (i : Nat) : Nat := s.dsp.fbase.toNat + i

/-- The address in `IBUF` of `source[i]` (R56). -/
def sourceAddr (s : State) (i : Nat) : Nat := s.huf.sbase.toNat + i

/-- The address in `IBUF` of `tree[j]`, which is `source[4 + j]` (R56, 41_huffman.md R125). -/
def treeAddr (s : State) (j : Nat) : Nat := sourceAddr s (4 + j)

/-- The address in `IBUF` of the bitstream byte under the cursor, byte `HUF.BYTE` of the chunk at `HUF.CHUNK` (R56). -/
def streamAddr (s : State) : Nat := sourceAddr s (s.huf.chunk.toNat + s.huf.byte.toNat)

/-- The address in the selected memory of the next byte to fold (R56, 10_state.md R33). -/
def dataAddr (s : State) : Nat := s.crc.base.toNat + s.crc.idx.toNat

/-- The address in `OBUF` of the next payload byte, `out[out_pos]` (R56). -/
def payloadAddr (s : State) : Nat := s.huf.obase.toNat + s.huf.outPos.toNat

/-- The address in `OBUF` of the next preamble byte (R56, 42_container.md R160). -/
def preambleAddr (s : State) : Nat := s.dsp.cpIdx.toNat

/-- The stream bit a byte gives under a mask: 1 when the masked byte is not zero (10_state.md R32). -/
def streamBit (b mask : Byte) : Bool := decide (b &&& mask ≠ 0#8)

/-- The offset field `entry[5:0]` (30_encoding.md R74). -/
def entryOffset (e : BitVec 8) : Nat := (e.extractLsb' 0 6).toNat

/-- The tag of an entry for its left child (mask 0x80) (R74). -/
def entryTagL (e : BitVec 8) : Bool := e.getLsbD 7

/-- The tag of an entry for its right child (mask 0x40) (R74). -/
def entryTagR (e : BitVec 8) : Bool := e.getLsbD 6

/-- The bit cursor one bit on (10_state.md R32, 41_huffman.md R128): mask 128 down to 1, then byte 3 down to 0, then
the next chunk. -/
def advanceCursor (h : HufUnit) : HufUnit :=
  if h.mask = 1#8 then
    if h.byte = 0#2 then { h with mask := 128#8, byte := 3#2, chunk := h.chunk + 4#32 }
    else { h with mask := 128#8, byte := h.byte - 1#2 }
  else { h with mask := h.mask >>> 1 }

/-- The value a `HUF_BIT` step selects by: the stream bit above the entry (30_encoding.md R83). -/
def walkSelector (b : Bool) (entry : BitVec 8) : BitVec 9 := BitVec.ofBool b ++ entry

/-- `out_length`, `extra_size` and `mag_idx` of a descriptor (30_encoding.md R80): `mag_idx = 6 + 2 * extra_size`. -/
def magIdxOf (extra : BitVec 8) : BitVec 10 := 6#10 + 2#10 * extra.setWidth 10

end Sys2Proof.Machine
end

