-- ==== Sys2Proof/Machine/Checksum.lean ====
section
/-! DEFINITION. The Checksum unit (40_crc.md): the two bit steps, the byte fold and the end of a fold. -/

namespace Sys2Proof.Machine

/-- `W >> 1`, zero shifted in (R100). -/
def shiftedWord (w : Word) : Word := w >>> 1

/-- `(W >> 1) ^ 0xEDB88320`: the shift first (R101). -/
def shiftXoredWord (w : Word) : Word := (w >>> 1) ^^^ Config.POLY

/-- One iteration of a byte fold, selected by bit 0 of `W` before the shift (30_encoding.md R84). -/
def crcBitStep (w : Word) : Word := if w.getLsbD 0 then shiftXoredWord w else shiftedWord w

/-- `n` iterations. -/
def crcBitSteps : Nat → Word → Word
  | 0, w => w
  | n + 1, w => crcBitSteps n (crcBitStep w)

/-- The working value at the start of a byte fold: `zext_32(reg[7:0] ^ b)` (R102). -/
def crcSeedWord (reg : Word) (b : Byte) : Word := (reg.setWidth 8 ^^^ b).setWidth 32

/-- The register after a byte fold whose working value ended as `w`: `(reg >> 8) ^ W` (R102). -/
def crcFoldWord (reg w : Word) : Word := (reg >>> 8) ^^^ w

/-- The function `crc_byte(reg, b)` (R102): always eight iterations. -/
def crcByteFn (reg : Word) (b : Byte) : Word := crcFoldWord reg (crcBitSteps 8 (crcSeedWord reg b))

/-- The function `crc32(reg, data)` (R103): neither seeds nor complements. -/
def crc32Fn (reg : Word) (data : List Byte) : Word := data.foldl crcByteFn reg

/-- `CRC.SHIFT` (R100). -/
def execCrcShift (s : State) : Out := .next { s with crc := { s.crc with w := shiftedWord s.crc.w } }

/-- `CRC.SHIFTXOR` (R101). -/
def execCrcShiftXor (s : State) : Out := .next { s with crc := { s.crc with w := shiftXoredWord s.crc.w } }

/-- `CRC.BYTE` (R102): the working value is seeded, passed through eight bit steps and folded into `CRC.REG`. That
`CRC.W` then keeps the last working value is the model's choice (DESIGN CHOICE, log 22): between steps the spec gives
it no value (10_state.md R24, 93_implementation_defined.md U12). -/
def execCrcByte (b : Byte) (s : State) : Out :=
  let w := crcBitSteps 8 (crcSeedWord s.crc.reg b)
  .next { s with crc := { s.crc with w := w, reg := crcFoldWord s.crc.reg w } }

/-- After one byte has been folded (R108): the index moves on. -/
def byteFolded (s : State) : State := { s with crc := { s.crc with idx := s.crc.idx + 1#32 } }

/-- After one bit step that ran by itself (log 3): one iteration fewer; after the last one the working value is folded
into `CRC.REG` and the byte is done, as R102 and R108 say. `CRC.W` keeps it (DESIGN CHOICE, log 22). -/
def bitStepped (s : State) : State :=
  if s.crc.iter ≤ 1 then
    byteFolded { s with crc := { s.crc with iter := 0, reg := crcFoldWord s.crc.reg s.crc.w } }
  else { s with crc := { s.crc with iter := s.crc.iter - 1 } }

/-- The step that sees the end of a fold (R108): `CRC32` finishes; the header fold of `DECOMP` is followed by the
payload fold from `OBUF`, and that by `CRCCHK`. -/
def foldEnded (s : State) : State :=
  if s.seq.op = .crc32 then s.finish
  else if s.seq.phase = .crcA then
    { s with
      crc := { s.crc with sel := .obuf, base := s.dsp.offset.setWidth 32, len := s.huf.outLen.setWidth 32, idx := 0#32 }
      seq := { s.seq with phase := .crcB } }
  else { s with seq := { s.seq with phase := .crcChk } }

end Sys2Proof.Machine
end

