-- ==== Sys2Proof/Machine/Command.lean ====
section
/-! DEFINITION. The three commands (43_system.md R171 to R175, R177). -/

namespace Sys2Proof.Machine

/-- `CRC32` (R173): the fold cursor is loaded; `CRC.REG` is neither seeded nor complemented. -/
def execCrc32 (src : Buffer) (s : State) : Out :=
  command .crc32 .crcA
    (fun t => { t with crc := { t.crc with sel := src, base := t.regs.argBase, len := t.regs.argLen, idx := 0#32 } }) s

/-- `HDEC` (R174): the source slice is the operand, the payload goes to `OBUF[0 ..]`. -/
def execHdec (s : State) : Out :=
  command .hdec .hufInit
    (fun t => { t with huf := { t.huf with sbase := t.regs.argBase, slen := t.regs.argLen, obase := 0#32 } }) s

/-- `DECOMP` (R175): the file is the operand, the scan starts at offset 0. -/
def execDecomp (s : State) : Out :=
  command .decomp .scan
    (fun t => { t with dsp := { t.dsp with fbase := t.regs.argBase, flen := t.regs.argLen, probe := 0#11 } }) s

end Sys2Proof.Machine
end

