-- ==== Sys2Proof/Machine/Container.lean ====
section
/-! DEFINITION. The Container unit (42_container.md): the scan, the header, the preamble copy, the two final checks. -/

namespace Sys2Proof.Machine

/-- `SECT.MARK` (R151, R162): the probed word is the marker, so the probed offset is `offset`. -/
def execSectMark (s : State) : Out :=
  .next { s with dsp := { s.dsp with offset := s.dsp.probe }, seq := { s.seq with phase := .hdr } }

/-- The scan has no further offset to probe (R151, R152). -/
def scanExhausted (s : State) : Bool :=
  decide (Config.SCAN_LAST < s.dsp.probe.toNat) || decide (s.dsp.flen.toNat < s.dsp.probe.toNat + 4)

/-- A probed word that is not the marker: the next offset (R151, R162). -/
def nextProbe (s : State) : State :=
  { s with dsp := { s.dsp with probe := s.dsp.probe + BitVec.ofNat 11 Config.SCAN_STRIDE } }

/-- The header size guard fails (R153). -/
def headerTooShort (s : State) : Bool := decide (s.dsp.flen.toNat < s.dsp.offset.toNat + 17)

/-- The header fields in their registers, and the descriptor start (R154, R155, R162). -/
def State.headerRead (len crc : Nat) (s : State) : State :=
  { s with
    dsp :=
      { s.dsp with
        expLen := BitVec.ofNat 32 len
        expCrc := BitVec.ofNat 32 crc
        hStart := s.dsp.offset + BitVec.ofNat 11 Config.OFF_HUFF } }

/-- The copy index one byte on (R162). -/
def State.copyAdvanced (s : State) : State := { s with dsp := { s.dsp with cpIdx := s.dsp.cpIdx + 1#11 } }

/-- The hand-over to the Huffman unit: the source runs from the descriptor to the end of the file (R156, R162). -/
def handOver (s : State) : State :=
  { s with
    huf :=
      { s.huf with
        sbase := BitVec.ofNat 32 (s.dsp.fbase.toNat + s.dsp.hStart.toNat)
        slen := BitVec.ofNat 32 (s.dsp.flen.toNat - s.dsp.hStart.toNat)
        obase := s.dsp.offset.setWidth 32 }
    seq := { s.seq with phase := .hufInit } }

/-- One `COPY` step (R162). -/
def copyStep (s : State) : Out :=
  if s.dsp.cpIdx.toNat < s.dsp.offset.toNat then
    access (readByte .ibuf (fileAddr s s.dsp.cpIdx.toNat) s) fun b =>
      access (writeByte .obuf (preambleAddr s) b s) fun s1 => .next s1.copyAdvanced
  else .next (handOver s)

/-- One `LENCHK` step (R157, R162): compare the lengths, seed the register, start the preamble fold. -/
def lenChkStep (s : State) : Out :=
  if s.huf.outLen.setWidth 32 ≠ s.dsp.expLen then raise .lengthMismatch 0 s
  else
    .next
      { s with
        crc :=
          { s.crc with
            reg := Config.SEED, sel := .ibuf, base := s.dsp.fbase, len := s.dsp.offset.setWidth 32, idx := 0#32 }
        seq := { s.seq with phase := .crcA } }

/-- One `CRCCHK` step (R159, R160, R162): the complement is taken for the comparison only. -/
def crcChkStep (s : State) : Out :=
  if ~~~s.crc.reg ≠ s.dsp.expCrc then raise .checksumMismatch 0 s
  else
    .next
      (State.finish
        { s with regs := { s.regs with resultLen := s.dsp.offset.setWidth 32 + s.huf.outLen.setWidth 32 } })

end Sys2Proof.Machine
end

