-- ==== Sys2Proof/Machine/Huffman.lean ====
section
/-! DEFINITION. The Huffman unit (41_huffman.md): the header parse, the four walker micro-operations, emission,
completion and restart. -/

namespace Sys2Proof.Machine

/-- Read an entry of the tree, from `IBUF` at this moment (R125, 20_memory.md R62). -/
def withTree (j : Nat) (s : State) (k : Byte → Out) : Out := access (readByte .ibuf (treeAddr s j) s) k

/-- The advanced pair index `p' = pos + off + 1` (R130). -/
def advancedPos (off : Nat) (s : State) : Nat := s.huf.pos.toNat + off + 1

/-- Advance and overflow test (R130), made on every bit before any tree read: above `tree[0]` the walk has left the
tree. -/
def withAdvance (off : Nat) (s : State) (k : Nat → Out) : Out :=
  if s.huf.extra.toNat < advancedPos off s then raise .treeOverflow 0 s else k (advancedPos off s)

/-- Descend to a node (R131, R133): the child `tree[j]` becomes the current entry, `p'` the current pair index. -/
def descend (j p : Nat) (s : State) : Out :=
  withTree j s fun e => .next { s with huf := { s.huf with entry := e, pos := BitVec.ofNat 9 p } }

/-- Restart at the root (R137). The bit cursor is not touched. -/
def restartAtRoot (s : State) : Out :=
  withTree 1 s fun root => .next { s with huf := { s.huf with entry := root, pos := 0#9 } }

/-- The bytes of the source from the start of the current chunk to its end (R136). -/
def remainingBytes (s : State) : Nat := s.huf.slen.toNat - s.huf.chunk.toNat

/-- What follows a clean decode (R141): `HDEC` has its result, `DECOMP` goes on to the length check. -/
def decodeEnded (s : State) : State :=
  if s.seq.op = .hdec then
    State.finish { s with regs := { s.regs with resultLen := s.huf.outLen.setWidth 32 } }
  else { s with seq := { s.seq with phase := .lenChk } }

/-- Completion and the trailing-bytes check (R136): the current chunk must be the last thing in the source. -/
def complete (s : State) : Out :=
  if remainingBytes s ≠ 4 then raise .trailingBytes (remainingBytes s - 4) s else .next (decodeEnded s)

/-- The output cursor one byte on (R135). -/
def State.outputAdvanced (s : State) : State := { s with huf := { s.huf with outPos := s.huf.outPos + 1#24 } }

/-- `emit(lit)` (R135): write the byte, advance the output cursor, then completion or restart. -/
def emit (lit : Byte) (s : State) : Out :=
  access (writeByte .obuf (payloadAddr s) lit s) fun s1 =>
    if payloadFull s1.outputAdvanced.huf then complete s1.outputAdvanced else restartAtRoot s1.outputAdvanced

/-- Descend to a leaf (R132, R134): the child `tree[j]` is the output byte, all eight bits of it. -/
def descendToLeaf (j : Nat) (s : State) : Out := withTree j s fun lit => emit lit s

/-- `WALK.L.NODE` (R131). The other tag is not looked at. -/
def execWalkLNode (_other : Bool) (off : Nat) (s : State) : Out :=
  withAdvance off s fun p => descend (2 * p) p s

/-- `WALK.L.LEAF` (R132). -/
def execWalkLLeaf (_other : Bool) (off : Nat) (s : State) : Out :=
  withAdvance off s fun p => descendToLeaf (2 * p) s

/-- `WALK.R.NODE` (R133). -/
def execWalkRNode (_other : Bool) (off : Nat) (s : State) : Out :=
  withAdvance off s fun p => descend (2 * p + 1) p s

/-- `WALK.R.LEAF` (R134). -/
def execWalkRLeaf (_other : Bool) (off : Nat) (s : State) : Out :=
  withAdvance off s fun p => descendToLeaf (2 * p + 1) s

/-- The descriptor's header fields parsed into their registers (R123). -/
def State.headerParsed (outLen : Nat) (extra : Byte) (s : State) : State :=
  { s with huf := { s.huf with outLen := BitVec.ofNat 24 outLen, extra := extra, magIdx := magIdxOf extra } }

/-- The initial traversal state (R127, R141). -/
def State.walkStarted (root : Byte) (s : State) : State :=
  { s with
    huf :=
      { s.huf with
        pos := 0#9, entry := root, outPos := 0#24
        chunk := s.huf.magIdx.setWidth 32, byte := 3#2, mask := 128#8 }
    seq := { s.seq with phase := .hufBit } }

/-- The parse of a `HUF_INIT` step once the discriminator has matched (R123 to R127, R141). The header registers are
written before check 3; `out_length` = 0 is refused only when every check has passed (R126). -/
def parseDescriptor (s : State) : Out :=
  access (readLE .ibuf (sourceAddr s 1) 3 s) fun outLen =>
    access (readByte .ibuf (sourceAddr s 4) s) fun extra =>
      let s1 := s.headerParsed outLen extra
      if s1.huf.slen.toNat ≤ s1.huf.magIdx.toNat then raise .unsupportedFormat 0 s1
      else if s1.huf.outLen = 0#24 then .refused .zeroOutLength
      else withTree 1 s1 fun root => .next (s1.walkStarted root)

/-- The early discriminator check of a `HDR` step has passed (42_container.md R155, R162): the preamble copy starts. -/
def headerAccepted (s : State) : State :=
  { s with dsp := { s.dsp with cpIdx := 0#11 }, seq := { s.seq with phase := .copy } }

/-- `DESC.HUFF8` (R122): the discriminator of a descriptor has matched. In a `HDR` step of `DECOMP` the same byte is
checked first, and the step goes on to the preamble copy (42_container.md R155); everywhere else the descriptor is
parsed (log 19). -/
def execDescHuff8 (s : State) : Out :=
  if s.seq.phase = .hdr then .next (headerAccepted s) else parseDescriptor s

end Sys2Proof.Machine
end

