-- ==== Sys2Proof/Machine/Dispatch.lean ====
section
/-! DEFINITION. The meaning of every instruction, one arm per constructor. -/

namespace Sys2Proof.Machine

/-- The meaning of an instruction. -/
def exec (i : Instr) (s : State) : Host.Outcome State Fault Refusal :=
  match i with
  | .crc32 src => Sys2Proof.Machine.execCrc32 src s
  | .hdec => Sys2Proof.Machine.execHdec s
  | .decomp => Sys2Proof.Machine.execDecomp s
  | .crcShift => Sys2Proof.Machine.execCrcShift s
  | .crcShiftXor => Sys2Proof.Machine.execCrcShiftXor s
  | .crcByte b => Sys2Proof.Machine.execCrcByte b s
  | .walkLNode other off => Sys2Proof.Machine.execWalkLNode other off s
  | .walkLLeaf other off => Sys2Proof.Machine.execWalkLLeaf other off s
  | .walkRNode other off => Sys2Proof.Machine.execWalkRNode other off s
  | .walkRLeaf other off => Sys2Proof.Machine.execWalkRLeaf other off s
  | .sectMark => Sys2Proof.Machine.execSectMark s
  | .descHuff8 => Sys2Proof.Machine.execDescHuff8 s

end Sys2Proof.Machine
end

