-- ==== Sys2Proof/Machine/Registers.lean ====
section
/-! DEFINITION. The host registers (10_state.md R40 to R46, 43_system.md R178). -/

namespace Sys2Proof.Machine

/-- The fifteen host registers (R40). -/
inductive HostReg where
  | cmd
  | status
  | errCode
  | errParam
  | argBase
  | argLen
  | crcReg
  | crcPoly
  | crcFin
  | resultLen
  | secOffset
  | expLen
  | expCrc
  | hufStart
  | outLength
deriving DecidableEq, Repr

/-- The register with a number (R40). Numbers 15 and above do not exist. -/
def hostReg : Nat → Option HostReg
  | 0 => some .cmd
  | 1 => some .status
  | 2 => some .errCode
  | 3 => some .errParam
  | 4 => some .argBase
  | 5 => some .argLen
  | 6 => some .crcReg
  | 7 => some .crcPoly
  | 8 => some .crcFin
  | 9 => some .resultLen
  | 10 => some .secOffset
  | 11 => some .expLen
  | 12 => some .expCrc
  | 13 => some .hufStart
  | 14 => some .outLength
  | _ => none

/-- What a read of a register returns, zero-extended (R40 to R46). `CMD` is write-only and reads 0 (R41). -/
def hostRegValue (s : State) : HostReg → Word
  | .cmd => 0#32
  | .status => (statusWord s.status).setWidth 32
  | .errCode => (errCodeWord s.regs.errCode).setWidth 32
  | .errParam => s.regs.errParam
  | .argBase => s.regs.argBase
  | .argLen => s.regs.argLen
  | .crcReg => s.crc.reg
  | .crcPoly => Config.POLY
  | .crcFin => ~~~s.crc.reg
  | .resultLen => s.regs.resultLen
  | .secOffset => s.dsp.offset.setWidth 32
  | .expLen => s.dsp.expLen
  | .expCrc => s.dsp.expCrc
  | .hufStart => s.dsp.hStart.setWidth 32
  | .outLength => s.huf.outLen.setWidth 32

/-- A read by number: 15 and above read 0 (R40). -/
def readHostReg (number : Nat) (s : State) : Word :=
  match hostReg number with
  | some r => hostRegValue s r
  | none => 0#32

/-- A write to a register other than `CMD` (R178): three registers store the value modulo their width, every other one
ignores it. -/
def storeHostReg (value : Nat) (s : State) : HostReg → State
  | .cmd => s
  | .status => s
  | .errCode => s
  | .errParam => s
  | .argBase => { s with regs := { s.regs with argBase := BitVec.ofNat 32 value } }
  | .argLen => { s with regs := { s.regs with argLen := BitVec.ofNat 32 value } }
  | .crcReg => { s with crc := { s.crc with reg := BitVec.ofNat 32 value } }
  | .crcPoly => s
  | .crcFin => s
  | .resultLen => s
  | .secOffset => s
  | .expLen => s
  | .expCrc => s
  | .hufStart => s
  | .outLength => s

/-- A write by number, other than to `CMD`: 15 and above ignore it (R40, R178). -/
def writeHostReg (number value : Nat) (s : State) : State :=
  match hostReg number with
  | some r => storeHostReg value s r
  | none => s

end Sys2Proof.Machine
end

