-- ==== Sys2Proof/Machine/Fetch.lean ====
section
/-! DEFINITION. What a step has to do: who moves, which value selects an instruction, what the step does around the
instruction, and the steps that select none (10_state.md R31, 43_system.md R170, R180). -/

namespace Sys2Proof.Machine

/-- What a step starts with: a selecting value and the state its instruction runs in, or no instruction and the whole
outcome. -/
inductive Fetched where
  | selected (sel : Selector) (s : State)
  | ended (o : Out)

/-- Go on with what an access gives, or stop with its fault. -/
def accessFetch {α : Type} (x : Except Fault α) (k : α → Fetched) : Fetched :=
  match x with
  | .ok v => k v
  | .error f => .ended (.fault f)

/-- A `SCAN` step probes one offset (42_container.md R151, R162). -/
def fetchScan (s : State) : Fetched :=
  if scanExhausted s then .ended (raise .sectorNotFound 0 s)
  else accessFetch (readLE .ibuf (fileAddr s s.dsp.probe.toNat) 4 s) fun w => .selected (.sect (BitVec.ofNat 32 w)) s

/-- A `HDR` step: the guard, the two header fields, then the discriminator (R153 to R155, R162). -/
def fetchHdr (s : State) : Fetched :=
  if headerTooShort s then .ended (raise .bufferTooSmall 0 s)
  else
    accessFetch (readLE .ibuf (fileAddr s (s.dsp.offset.toNat + Config.OFF_LENGTH)) 4 s) fun len =>
      accessFetch (readLE .ibuf (fileAddr s (s.dsp.offset.toNat + Config.OFF_CRC)) 4 s) fun crc =>
        let s1 := s.headerRead len crc
        accessFetch (readByte .ibuf (fileAddr s1 s1.dsp.hStart.toNat) s1) fun d => .selected (.desc d) s1

/-- A `HUF_INIT` step: the size check, then the discriminator (41_huffman.md R121, R122, R141). -/
def fetchHufInit (s : State) : Fetched :=
  if s.huf.slen.toNat ≤ 6 then .ended (raise .bufferTooSmall 0 s)
  else accessFetch (readByte .ibuf (sourceAddr s 0) s) fun d => .selected (.desc d) s

/-- A `HUF_BIT` step takes one bit, from a whole chunk only (R128, R138, R141). -/
def fetchHufBit (s : State) : Fetched :=
  if s.huf.slen.toNat < s.huf.chunk.toNat + 4 then
    .ended (raise .truncatedInput (s.huf.outLen.toNat - s.huf.outPos.toNat) s)
  else
    accessFetch (readByte .ibuf (streamAddr s) s) fun v =>
      .selected (.walk (walkSelector (streamBit v s.huf.mask) s.huf.entry)) s

/-- A `CRC_A` or `CRC_B` step takes one data byte, or sees the end of the fold (40_crc.md R108). In the middle of a
byte (log 3) it takes bit 0 of `CRC.W` (30_encoding.md R84). -/
def fetchFold (s : State) : Fetched :=
  if s.crc.iter ≠ 0 then .selected (.crcw (s.crc.w.extractLsb' 0 1)) s
  else if s.crc.idx.toNat < s.crc.len.toNat then
    accessFetch (readByte s.crc.sel (dataAddr s) s) fun b => .selected (.data b) s
  else .ended (.next (foldEnded s))

/-- The engine's turn (10_state.md R31). In `IDLE` the engine has no step: nothing changes (log 8). -/
def fetchEngine (s : State) : Fetched :=
  match s.seq.phase with
  | .idle => .ended (.next s)
  | .scan => fetchScan s
  | .hdr => fetchHdr s
  | .copy => .ended (copyStep s)
  | .hufInit => fetchHufInit s
  | .hufBit => fetchHufBit s
  | .lenChk => .ended (lenChkStep s)
  | .crcA => fetchFold s
  | .crcB => fetchFold s
  | .crcChk => .ended (crcChkStep s)

/-- A host action the rules allow in this state: anything while idle, a `STATUS` read alone while busy
(43_system.md R170, 70_reset_and_hazards.md R231). -/
def hostMay (a : HostAction) (s : State) : Bool :=
  !s.status.busy || decide (a = .readReg 1)

/-- The host's turn (43_system.md R170, R171, R178): a write to register 0 is a command word, everything else takes
effect at once. -/
def fetchHost (a : HostAction) (s : State) : Fetched :=
  if hostMay a s then
    match a with
    | .readReg n => .ended (.next { s with reply := .reg (readHostReg n s) })
    | .writeReg n v =>
      if n = 0 then .selected (.cmd (BitVec.ofNat 32 v)) s else .ended (.next (writeHostReg n v s))
    | .readMem buf a n => accessFetch (readBytes buf a n s) fun bs => .ended (.next { s with reply := .bytes bs })
    | .writeMem buf a bs => accessFetch (writeBytes buf a bs s) fun t => .ended (.next t)
  else .ended (.refused .hostAccessWhileBusy)

/-- Who moves, and what the move starts with (log 7): the oldest of the inputs, or the engine when there is none. -/
def fetch (s : State) : Fetched :=
  match s.inputs with
  | [] => fetchEngine s
  | .engine :: rest => fetchEngine { s with inputs := rest }
  | .host a :: rest => fetchHost a { s with inputs := rest }
  | .reset :: rest => .ended (.next (State.afterReset { s with inputs := rest }))

/-- A value that selects no row: an illegal command sets `ILLCMD` (43_system.md R177), a word that is not the marker
moves the scan on (42_container.md R151), a discriminator that is not 0x28 is `UnsupportedFormat` (R155,
41_huffman.md R122). The other formats have no such value. -/
def unselected (sel : Selector) (s : State) : Out :=
  match sel with
  | .cmd _ => .next s.illegal
  | .sect _ => .next (nextProbe s)
  | .desc _ => raise .unsupportedFormat 0 s
  | .crcw _ => .next s
  | .data _ => .next s
  | .walk _ => .next s

/-- What a step does after its instruction (log 12): a walk step that goes on takes the bit cursor one bit on
(41_huffman.md R141), a byte fold moves the index on (40_crc.md R108), a bit step counts (log 3). -/
def settle (sel : Selector) (s : State) : State :=
  match sel with
  | .walk _ => if s.seq.phase = .hufBit then { s with huf := advanceCursor s.huf } else s
  | .data _ => byteFolded s
  | .crcw _ => bitStepped s
  | .cmd _ => s
  | .sect _ => s
  | .desc _ => s

/-- The rest of a step once its instruction has run. -/
def settleOut (sel : Selector) : Out → Out
  | .next s => .next (settle sel s)
  | .fault f => .fault f
  | .refused r => .refused r

/-- One step from what it starts with: decode the selecting value, run the instruction, settle. -/
def runFetched : Fetched → Out
  | .ended o => o
  | .selected sel s =>
    match decode sel with
    | .ok i => settleOut sel (exec i s)
    | .error _ => unselected sel s

/-! ### Placing a selecting value where the next step takes it (log 14) -/

/-- The engine in the middle of an operation: begun as by a legal command, in phase `p`, and the engine moves next. -/
def State.engaged (op : SeqOp) (p : Phase) (s : State) : State :=
  { s.begun op p with inputs := .engine :: s.inputs }

/-- The bytes of a 32-bit word in the order memory holds them (20_memory.md R50). -/
def wordBytes (v : Word) : List Byte :=
  [v.extractLsb' 0 8, v.extractLsb' 8 8, v.extractLsb' 16 8, v.extractLsb' 24 8]

/-- The state whose next step takes the selecting value: a command word is the host's next action while the engine is
idle; a probed word stands at offset 0 of a file of four bytes; a discriminator begins the smallest descriptor that
passes the entry checks; a walk value is an entry at the root of a tree of 64 pairs and the first bit of its
bitstream; a data byte is the one byte of a fold; a CRC bit is bit 0 of `CRC.W` with eight iterations to run. -/
def placeSelector (sel : Selector) (s : State) : State :=
  match sel with
  | .cmd v =>
    { s with
      seq := { s.seq with phase := .idle }
      status := { s.status with busy := false }
      inputs := .host (.writeReg 0 v.toNat) :: s.inputs }
  | .sect v =>
    { State.engaged .decomp .scan s with
      dsp := { s.dsp with probe := 0#11, fbase := 0#32, flen := 4#32 }
      ibuf := s.ibuf.putAll 0 (wordBytes v) }
  | .desc d =>
    { State.engaged .hdec .hufInit s with
      huf := { s.huf with sbase := 0#32, slen := 10#32, obase := 0#32 }
      ibuf := s.ibuf.putAll 0 [d, 1#8, 0#8, 0#8, 0#8, 0#8] }
  | .walk v =>
    { State.engaged .hdec .hufBit s with
      huf :=
        { s.huf with
          outLen := 2#24, extra := 64#8, magIdx := 134#10, pos := 0#9, entry := v.extractLsb' 0 8, outPos := 0#24
          sbase := 0#32, slen := 138#32, obase := 0#32, chunk := 134#32, byte := 3#2, mask := 128#8 }
      ibuf :=
        ((s.ibuf.put 5 0#8).putAll (4 + 2 * ((v.extractLsb' 0 6).toNat + 1)) [0#8, 0#8]).put 137
          (if v.getLsbD 8 then 0x80#8 else 0#8) }
  | .data b =>
    { State.engaged .crc32 .crcA s with
      crc := { s.crc with iter := 0, sel := .ibuf, base := 0#32, len := 1#32, idx := 0#32 }
      ibuf := s.ibuf.put 0 b }
  | .crcw w0 =>
    { State.engaged .crc32 .crcA s with
      crc :=
        { s.crc with
          w := s.crc.w.extractLsb' 1 31 ++ w0, iter := 8, sel := .ibuf, base := 0#32, len := 1#32, idx := 0#32 } }

/-- The same for a word of the opcode table. A word that no format has changes nothing. -/
def placeTableWord (nbits w : Nat) (s : State) : State :=
  match tableSelector nbits w with
  | some sel => placeSelector sel s
  | none => s

end Sys2Proof.Machine
end

