-- ==== Sys2Proof/Machine/Step.lean ====
section
/-! DEFINITION. One step of festy CORE. -/

namespace Sys2Proof.Machine

/-- One step: the move of whoever is next (10_state.md R20, R31; log 7). -/
def step (s : State) : Host.Outcome State Fault Refusal := runFetched (fetch s)

/-- `s` with an instruction of the opcode table placed where the next step takes its selecting value (log 14). -/
def State.withFetchWord (s : State) (nbits w : Nat) : State := placeTableWord nbits w s

end Sys2Proof.Machine
end

