-- ==== Sys2Proof/Machine/Functions.lean ====
section
/-! DEFINITION. The three operations as functions of byte sequences: `crc32` is `crc32Fn` (40_crc.md R103), `hdec`
(41_huffman.md R140) and `decompress` (42_container.md R161) stand here. 43_system.md R181: the engine steps agree. -/

namespace Sys2Proof.Machine

/-- `Ok(bytes)`, `Err(E, n)` or `Refused` (00_scope.md R9). -/
inductive Result where
  | ok (bytes : List Byte)
  | err (e : Failure) (n : Nat)
  | refused
deriving DecidableEq, Repr

/-- `s[i]` of a byte sequence (R7). Every use is guarded by a length check. -/
def byteIn (s : List Byte) (i : Nat) : Byte := s.getD i 0#8

/-- Bytes as a little-endian number (R7). -/
def leNat : List Byte → Nat
  | [] => 0
  | b :: bs => b.toNat + 256 * leNat bs

/-- `LE24` and `LE32` (R7): `n` bytes from index `a`. -/
def leAt (s : List Byte) (a n : Nat) : Nat := leNat ((List.range n).map (fun i => byteIn s (a + i)))

/-- The bits of a byte, mask 128 first (R128). -/
def byteBits (b : Byte) : List Bool :=
  [b.getLsbD 7, b.getLsbD 6, b.getLsbD 5, b.getLsbD 4, b.getLsbD 3, b.getLsbD 2, b.getLsbD 1, b.getLsbD 0]

/-- The bits of a chunk in order of consumption: byte 3 first (R128, 20_memory.md R51). -/
def chunkBits (b0 b1 b2 b3 : Byte) : List Bool := byteBits b3 ++ byteBits b2 ++ byteBits b1 ++ byteBits b0

/-- The traversal state of the function: tree cursor, current entry, bytes emitted so far (R127). -/
structure Walk where
  pos : Nat
  entry : Byte
  out : List Byte
deriving DecidableEq, Repr

/-- What some bits lead to: the walk goes on, or the function ends. -/
inductive WalkEnd where
  | more (w : Walk)
  | ended (r : Result)
deriving DecidableEq, Repr

/-- One bit (R129 to R137). `rem` is the number of source bytes from the start of the current chunk. -/
def walkBit (source : List Byte) (outLen rem : Nat) (b : Bool) (w : Walk) : WalkEnd :=
  let p := w.pos + entryOffset w.entry + 1
  if (byteIn source 4).toNat < p then .ended (.err .treeOverflow 0)
  else
    let child := byteIn source (4 + (if b then 2 * p + 1 else 2 * p))
    if (if b then entryTagR w.entry else entryTagL w.entry) then
      if (w.out ++ [child]).length = outLen then
        if rem ≠ 4 then .ended (.err .trailingBytes (rem - 4)) else .ended (.ok (w.out ++ [child]))
      else .more { pos := 0, entry := byteIn source 5, out := w.out ++ [child] }
    else .more { pos := p, entry := child, out := w.out }

/-- Bits in order, until the function ends. -/
def walkBits (source : List Byte) (outLen rem : Nat) : List Bool → Walk → WalkEnd
  | [], w => .more w
  | b :: bs, w =>
    match walkBit source outLen rem b w with
    | .ended r => .ended r
    | .more w' => walkBits source outLen rem bs w'

/-- Whole chunks in ascending order (R128); when none is left the bitstream is exhausted (R138, R139). -/
def walkChunks (source : List Byte) (outLen : Nat) : List Byte → Walk → Result
  | b0 :: b1 :: b2 :: b3 :: rest, w =>
    match walkBits source outLen (rest.length + 4) (chunkBits b0 b1 b2 b3) w with
    | .ended r => r
    | .more w' => walkChunks source outLen rest w'
  | _, w => .err .truncatedInput (outLen - w.out.length)

/-- `hdec(source)` (R120 to R140). -/
def hdecFn (source : List Byte) : Result :=
  if source.length ≤ 6 then .err .bufferTooSmall 0
  else if byteIn source 0 ≠ Config.DISCR then .err .unsupportedFormat 0
  else
    let outLen := leAt source 1 3
    let magIdx := 6 + 2 * (byteIn source 4).toNat
    if source.length ≤ magIdx then .err .unsupportedFormat 0
    else if outLen = 0 then .refused
    else walkChunks source outLen (source.drop magIdx) { pos := 0, entry := byteIn source 5, out := [] }

/-- The scan (R151): `fuel` further offsets from `o`. -/
def scanFn (file : List Byte) : Nat → Nat → Option Nat
  | 0, _ => none
  | fuel + 1, o =>
    if Config.SCAN_LAST < o ∨ file.length < o + 4 then none
    else if leAt file o 4 = Config.MARKER.toNat then some o
    else scanFn file fuel (o + Config.SCAN_STRIDE)

/-- The checks after a clean decode and the result (R157 to R160). -/
def verifyFn (preamble decoded : List Byte) (expLen expCrc : Nat) : Result :=
  if decoded.length ≠ expLen then .err .lengthMismatch 0
  else if (~~~(crc32Fn (crc32Fn Config.SEED preamble) decoded)).toNat ≠ expCrc then .err .checksumMismatch 0
  else .ok (preamble ++ decoded)

/-- `decompress(file)` (R150 to R161). Offsets 0, 64, ..., 1024 are seventeen. -/
def decompressFn (file : List Byte) : Result :=
  match scanFn file 17 0 with
  | none => .err .sectorNotFound 0
  | some offset =>
    if file.length < offset + 17 then .err .bufferTooSmall 0
    else if byteIn file (offset + Config.OFF_HUFF) ≠ Config.DISCR then .err .unsupportedFormat 0
    else
      match hdecFn (file.drop (offset + Config.OFF_HUFF)) with
      | .err e n => .err e n
      | .refused => .refused
      | .ok decoded =>
        verifyFn (file.take offset) decoded (leAt file (offset + Config.OFF_LENGTH) 4)
          (leAt file (offset + Config.OFF_CRC) 4)

end Sys2Proof.Machine
end

