-- ==== Sys2Proof/Safety.lean ====
section
/-! DEFINITION. What the claims say about runs: whose turn it is, several steps, the bytes of an operand, and the
invariant that every step keeps. -/

namespace Sys2Proof.Machine

/-- It is the engine's turn. -/
def engineTurn (s : State) : Bool :=
  match s.inputs with
  | [] => true
  | .engine :: _ => true
  | .host _ :: _ => false
  | .reset :: _ => false

/-- The state in which the engine's turn is taken: an explicit turn is used up. -/
def turnTaken (s : State) : State := { s with inputs := s.inputs.tail }

/-- `n` steps, stopping at the first fault or refusal. -/
def runSteps : Nat → State → Out
  | 0, s => .next s
  | n + 1, s =>
    match step s with
    | .next t => runSteps n t
    | .fault f => .fault f
    | .refused r => .refused r

/-- The bytes `M[base .. base + len)` of a memory (00_scope.md R7, 43_system.md R172). -/
def slice (buf : Buffer) (s : State) (base len : Nat) : List Byte :=
  (List.range len).map fun i => byteAt buf (s.memory buf) (base + i)

/-- The operand that `ARG_BASE` and `ARG_LEN` name in a memory (43_system.md R172). -/
def operand (buf : Buffer) (s : State) : List Byte := slice buf s s.regs.argBase.toNat s.regs.argLen.toNat

/-- The index of the bit under the cursor, counted in order of consumption from bit 0 of the source (R128). -/
def cursorIndex (h : HufUnit) : Nat := 8 * h.chunk.toNat + 8 * (3 - h.byte.toNat) + (7 - h.mask.toNat.log2)

/-- `HUF.MASK` has one bit set (10_state.md R32). -/
def MaskOneBit (h : HufUnit) : Prop :=
  h.mask = 128#8 ∨ h.mask = 64#8 ∨ h.mask = 32#8 ∨ h.mask = 16#8 ∨ h.mask = 8#8 ∨ h.mask = 4#8 ∨ h.mask = 2#8 ∨
    h.mask = 1#8

/-- Both memories are in canonical form. -/
def MemoriesOk (s : State) : Prop := s.ibuf.wf = true ∧ s.obuf.wf = true

/-- The flags and the failure registers tell one story (10_state.md R31, R35, R42, R43, 60_exceptions.md R190, R200). -/
structure FlagsOk (q : Sequencer) (f : StatusFlags) (r : HostRegs) : Prop where
  idle_iff : q.phase = .idle ↔ f.busy = false
  not_busy_done : f.busy = true → f.done = false
  err_done : f.err = true → f.done = true
  err_code : f.err = true ↔ r.errCode ≠ none
  err_param : r.errParam ≠ 0#32 ↔ r.errCode = some .trailingBytes ∨ r.errCode = some .truncatedInput
  err_result : f.err = true → r.resultLen = 0#32

/-- The file of a `DECOMP` lies inside `IBUF` (43_system.md R171). -/
def FileOk (d : DspUnit) (q : Sequencer) : Prop := q.op = .decomp ∧ d.fbase.toNat + d.flen.toNat ≤ Config.CAP

/-- The offset found is a probed one (42_container.md R163 (c)). -/
def OffsetOk (d : DspUnit) : Prop := d.offset.toNat % 64 = 0 ∧ d.offset.toNat ≤ 1024

/-- After the header has been read (42_container.md R153, R155). -/
def HeaderOk (d : DspUnit) (q : Sequencer) : Prop :=
  FileOk d q ∧ OffsetOk d ∧ d.offset.toNat + 17 ≤ d.flen.toNat ∧ d.hStart.toNat = d.offset.toNat + 16

/-- A `DECOMP` whose output goes behind its preamble (10_state.md R28, 42_container.md R162). -/
def DecompOk (h : HufUnit) (d : DspUnit) (q : Sequencer) : Prop := HeaderOk d q ∧ h.obase.toNat = d.offset.toNat

/-- Whom the Huffman unit works for, and where its output goes (10_state.md R28). -/
def DecodeOk (h : HufUnit) (d : DspUnit) (q : Sequencer) : Prop := (q.op = .hdec ∧ h.obase = 0#32) ∨ DecompOk h d q

/-- The source lies inside `IBUF` (20_memory.md R57). -/
def SourceOk (h : HufUnit) : Prop := h.sbase.toNat + h.slen.toNat ≤ Config.CAP

/-- The decoder between two bits: the tree lies inside the source, the walk inside the tree, the payload is not full,
the cursor stands in a chunk counted from `mag_idx` (10_state.md R26, R27, R32, 41_huffman.md R124, R130). -/
structure WalkOk (h : HufUnit) : Prop where
  source : SourceOk h
  magIdx : h.magIdx.toNat = 6 + 2 * h.extra.toNat
  tree : h.magIdx.toNat < h.slen.toNat
  pos : h.pos.toNat ≤ h.extra.toNat
  outPos : h.outPos.toNat < h.outLen.toNat
  chunk : h.magIdx.toNat ≤ h.chunk.toNat ∧ (h.chunk.toNat - h.magIdx.toNat) % 4 = 0
  chunkEnd : h.chunk.toNat ≤ h.slen.toNat
  mask : MaskOneBit h

/-- The data being folded lies inside its memory (20_memory.md R57). -/
def FoldOk (c : CrcUnit) : Prop := c.base.toNat + c.len.toNat ≤ Config.CAP ∧ c.idx.toNat ≤ c.len.toNat

/-- What holds in each phase between two steps. -/
def PhaseOk (c : CrcUnit) (h : HufUnit) (d : DspUnit) (q : Sequencer) : Prop :=
  match q.phase with
  | .idle => True
  | .scan => FileOk d q ∧ d.probe.toNat % 64 = 0 ∧ d.probe.toNat ≤ 1088
  | .hdr => FileOk d q ∧ OffsetOk d ∧ d.offset.toNat + 4 ≤ d.flen.toNat
  | .copy => HeaderOk d q ∧ d.cpIdx.toNat ≤ d.offset.toNat
  | .hufInit => DecodeOk h d q ∧ SourceOk h
  | .hufBit => DecodeOk h d q ∧ WalkOk h
  | .lenChk => DecompOk h d q
  | .crcA => FoldOk c ∧ (q.op = .crc32 ∨
      (DecompOk h d q ∧ c.sel = .ibuf ∧ c.base = d.fbase ∧ c.len.toNat = d.offset.toNat))
  | .crcB => FoldOk c ∧ DecompOk h d q ∧ c.sel = .obuf ∧ c.base.toNat = d.offset.toNat ∧
      c.len.toNat = h.outLen.toNat
  | .crcChk => DecompOk h d q

/-- A byte fold is between two bytes, or (log 3) inside one that is still to be folded. -/
def IterOk (c : CrcUnit) (q : Sequencer) : Prop :=
  c.iter = 0 ∨ ((q.phase = .crcA ∨ q.phase = .crcB) ∧ c.iter ≤ 8 ∧ c.idx.toNat < c.len.toNat)

/-- The invariant of the machine between two steps. -/
structure Inv (s : State) : Prop where
  memories : MemoriesOk s
  flags : FlagsOk s.seq s.status s.regs
  phase : PhaseOk s.crc s.huf s.dsp s.seq
  iter : IterOk s.crc s.seq

/-- The first address of `OBUF` above everything an engine step in this phase may write or leave unspecified
(20_memory.md R63). -/
def touchedBelow (s : State) : Nat :=
  match s.seq.phase with
  | .copy => s.dsp.offset.toNat
  | _ => spoiledBytes s

/-- The word `M[a .. a + 4)`, the byte at the lowest address least significant (20_memory.md R50). -/
def wordAt (buf : Buffer) (s : State) (a : Nat) : Word :=
  byteAt buf (s.memory buf) (a + 3) ++ byteAt buf (s.memory buf) (a + 2) ++ byteAt buf (s.memory buf) (a + 1) ++
    byteAt buf (s.memory buf) a

/-- The 24-bit value of `M[a .. a + 3)`, the byte at the lowest address least significant (20_memory.md R50). -/
def triadAt (buf : Buffer) (s : State) (a : Nat) : BitVec 24 :=
  byteAt buf (s.memory buf) (a + 2) ++ byteAt buf (s.memory buf) (a + 1) ++ byteAt buf (s.memory buf) a

/-- A failure with its code and its class, a row of the table of 60_exceptions.md R190. -/
def failureEntry (e : Failure) : Failure × BitVec 4 × FailureClass := (e, failureCode e, failureClass e)

/-- The phases an engine step can lead to (43_system.md R180). -/
def phaseSuccessors : Phase → List Phase
  | .idle => [.idle]
  | .scan => [.scan, .hdr, .idle]
  | .hdr => [.copy, .idle]
  | .copy => [.copy, .hufInit]
  | .hufInit => [.hufBit, .idle]
  | .hufBit => [.hufBit, .lenChk, .idle]
  | .lenChk => [.crcA, .idle]
  | .crcA => [.crcA, .crcB, .idle]
  | .crcB => [.crcB, .crcChk, .idle]
  | .crcChk => [.idle]

/-- Running the engine from `t0` ends, after finitely many steps, in a state that reports the result `r`: success with
the result bytes at the bottom of `OBUF`, or a failure with its code and parameter and no result, or the refusal
(43_system.md R174, R175, 60_exceptions.md R200, R201). `IBUF` is as it was, and so is every byte of `OBUF` outside the
result or, after a failure, outside `OBUF[0 .. offset + out_length)`. `also` is what else is asked of the last state. -/
def ReportsResult (t0 : State) (also : State → Prop) : Result → Prop
  | .ok bytes => ∃ n t, runSteps n t0 = .next t ∧ t.seq.phase = .idle ∧ t.status.busy = false ∧
      t.status.done = true ∧ t.status.err = false ∧ t.regs.errCode = none ∧ t.regs.errParam = 0#32 ∧
      t.regs.resultLen.toNat = bytes.length ∧ slice .obuf t 0 bytes.length = bytes ∧ t.ibuf = t0.ibuf ∧
      (∀ a, bytes.length ≤ a → byteAt .obuf t.obuf a = byteAt .obuf t0.obuf a) ∧ also t
  | .err e k => ∃ n t, runSteps n t0 = .next t ∧ t.seq.phase = .idle ∧ t.status.busy = false ∧
      t.status.done = true ∧ t.status.err = true ∧ t.regs.errCode = some e ∧ t.regs.errParam.toNat = k ∧
      t.regs.resultLen = 0#32 ∧ t.ibuf = t0.ibuf ∧
      (∀ a, t.huf.obase.toNat + t.huf.outLen.toNat ≤ a → byteAt .obuf t.obuf a = byteAt .obuf t0.obuf a) ∧ also t
  | .refused => ∃ n, runSteps n t0 = .refused .zeroOutLength

end Sys2Proof.Machine
end

