-- ==== Sys2Proof/Certificates/Slice0/Obligations.lean ====
section
/-! DEFINITION. The statements for the provers. A statement that rests on a choice of the model names its log entry. -/

open Sys2Proof Sys2Proof.Machine

/-! ### Encoding -/

/-- A step that takes a selecting value runs the instruction the decoder reads from it, and nothing but the step's own
bookkeeping (`settle`) follows; a value that selects no row has the step of its format; a step that takes no value has
its whole outcome (30_encoding.md section 3, log 12). -/
def Obligations.StepRunsDecodedInstruction : Prop :=
  ∀ s : State,
    (∀ sel u, fetch s = .selected sel u →
      (∀ i, decode sel = .ok i → WellFormed i = true ∧ step s = settleOut sel (exec i u)) ∧
      (∀ r, decode sel = .error r → step s = unselected sel u)) ∧
    (∀ o, fetch s = .ended o → step s = o)

/-- Words written out bit by bit from 30_encoding.md R77, R83, R84, R85 decode to what they stand for. -/
def Obligations.DecodeReadsWrittenOutWords : Prop :=
  decode (.cmd 0b00000000000000000000000000000001#32) = .ok (.crc32 .ibuf) ∧
  decode (.cmd 0b00000000000000000000000000000101#32) = .ok (.crc32 .obuf) ∧
  decode (.cmd 0b00000000000000000000000000000010#32) = .ok .hdec ∧
  decode (.cmd 0b00000000000000000000000000000011#32) = .ok .decomp ∧
  decode (.crcw 0b0#1) = .ok .crcShift ∧
  decode (.crcw 0b1#1) = .ok .crcShiftXor ∧
  decode (.data 0b01100001#8) = .ok (.crcByte 0x61#8) ∧
  decode (.walk 0b001000010#9) = .ok (.walkLNode true 2) ∧
  decode (.walk 0b010111111#9) = .ok (.walkLLeaf false 63) ∧
  decode (.walk 0b110000001#9) = .ok (.walkRNode true 1) ∧
  decode (.walk 0b101000000#9) = .ok (.walkRLeaf false 0) ∧
  decode (.sect 0b01000011010011110100110101010000#32) = .ok .sectMark ∧
  decode (.desc 0b00101000#8) = .ok .descHuff8

/-- Decoding the value a well-formed instruction is selected by gives the instruction back, whatever its operands. -/
def Obligations.DecodeInvertsEncode : Prop := ∀ i : Instr, WellFormed i = true → decode (encode i) = .ok i

/-- A value that decodes is the value its instruction is selected by: no bit of it is dropped. -/
def Obligations.EncodeInvertsDecode : Prop :=
  ∀ (sel : Selector) (i : Instr), decode sel = .ok i → WellFormed i = true ∧ encode i = sel

/-- The decoder is the opcode table: what it reads from a value is a row that selects the value by its mask and
pattern, a value that some row selects is decoded, and no two rows select one value (30_encoding.md R85). -/
def Obligations.DecodeIsTheOpcodeTable : Prop :=
  ∀ sel : Selector,
    (∀ i, decode sel = .ok i → (tableRow i).selects sel = true) ∧
    (∀ i, (tableRow i).selects sel = true → ∃ j, decode sel = .ok j ∧ tableRow j = tableRow i)

/-- Four command words are legal, and every other 32-bit value is not (30_encoding.md R77, R86). -/
def Obligations.OnlyFourCommandWordsAreLegal : Prop :=
  ∀ v : Word,
    ((∃ i, decode (.cmd v) = .ok i) ↔ v = 0x1#32 ∨ v = 0x5#32 ∨ v = 0x2#32 ∨ v = 0x3#32) ∧
    (v ≠ 0x1#32 → v ≠ 0x5#32 → v ≠ 0x2#32 → v ≠ 0x3#32 → decode (.cmd v) = .error (.illegalCommand v))

/-- The stream bit and the tag of the PREVIOUS entry for that side pick the walker row (30_encoding.md R83). -/
def Obligations.WalkSelectionReadsPreviousEntryTags : Prop :=
  ∀ (b : Bool) (e : BitVec 8),
    decode (.walk (BitVec.ofBool b ++ e)) = .ok
      (if b then
        if e.getLsbD 6 then .walkRLeaf (e.getLsbD 7) (e.extractLsb' 0 6).toNat
        else .walkRNode (e.getLsbD 7) (e.extractLsb' 0 6).toNat
      else
        if e.getLsbD 7 then .walkLLeaf (e.getLsbD 6) (e.extractLsb' 0 6).toNat
        else .walkLNode (e.getLsbD 6) (e.extractLsb' 0 6).toNat)

/-! ### Checksum unit -/

/-- 40_crc.md R100. -/
def Obligations.CrcShiftShiftsRight : Prop :=
  decode (.crcw 0#1) = .ok .crcShift ∧
  ∀ s : State, exec .crcShift s = .next { s with crc := { s.crc with w := s.crc.w >>> 1 } }

/-- 40_crc.md R101. -/
def Obligations.CrcShiftXorShiftsThenXors : Prop :=
  decode (.crcw 1#1) = .ok .crcShiftXor ∧
  ∀ s : State, exec .crcShiftXor s = .next { s with crc := { s.crc with w := (s.crc.w >>> 1) ^^^ 0xEDB88320#32 } }

/-- 40_crc.md section 2: the seed, exactly eight iterations, the fold; a seed of 0 leaves `reg >> 8`. That `CRC.W` keeps
the last working value afterwards is the model's choice (log 22); `CrcByteRegisterIsTheTableFold` says nothing of it. -/
def Obligations.CrcByteFoldsOneByte : Prop :=
  ∀ (b : Byte) (s : State),
    (let iteration : Word → Word := fun w => if w.getLsbD 0 then (w >>> 1) ^^^ 0xEDB88320#32 else w >>> 1
     let w := Nat.iterate iteration 8 ((s.crc.reg.setWidth 8 ^^^ b).setWidth 32)
     exec (.crcByte b) s = .next { s with crc := { s.crc with w := w, reg := (s.crc.reg >>> 8) ^^^ w } }) ∧
    (s.crc.reg.setWidth 8 = b →
      exec (.crcByte b) s = .next { s with crc := { s.crc with w := 0#32, reg := s.crc.reg >>> 8 } })

/-- 40_crc.md R102: whatever `CRC.W` holds afterwards, the register after `CRC.BYTE` is `(reg >> 8)` with the table entry
of the 8-bit seed folded in, where the table is the eight iterations; nothing else changes. A seed of 0 leaves
`reg >> 8`. -/
def Obligations.CrcByteRegisterIsTheTableFold : Prop :=
  let iteration : Word → Word := fun w => if w.getLsbD 0 then (w >>> 1) ^^^ 0xEDB88320#32 else w >>> 1
  let table : Byte → Word := fun seed => Nat.iterate iteration 8 (seed.setWidth 32)
  (∀ (b : Byte) (s : State), ∃ w, exec (.crcByte b) s = .next { s with
    crc := { s.crc with w := w, reg := (s.crc.reg >>> 8) ^^^ table (s.crc.reg.setWidth 8 ^^^ b) } }) ∧
  table 0x00#8 = 0#32 ∧ table 0x01#8 = 0x77073096#32 ∧ table 0xFF#8 = 0x2D02EF8D#32

/-- A byte fold is eight bit steps: the engine in the middle of a byte (the model's own position, log 3) reaches after
eight steps what `CRC.BYTE` does at once, and the index has moved on (40_crc.md R102, R108). That both leave the last working
value in `CRC.W` is the model's choice (log 22). -/
def Obligations.CrcByteIsEightBitSteps : Prop :=
  ∀ (s : State) (b : Byte), s.inputs = [] → s.seq.phase = .crcA ∨ s.seq.phase = .crcB → s.crc.iter = 8 →
    s.crc.w = (s.crc.reg.setWidth 8 ^^^ b).setWidth 32 →
    ∃ t, exec (.crcByte b) s = .next t ∧
      runSteps 8 s = .next { t with crc := { t.crc with iter := 0, idx := t.crc.idx + 1#32 } }

/-- 40_crc.md R106 (a), (b) and (d): a fold over two pieces is the fold over their concatenation, the empty sequence
changes nothing, and changing exactly one byte changes the checksum. -/
def Obligations.OneByteChangeChangesChecksum : Prop :=
  (∀ (r : Word) (x y : List Byte), crc32Fn (crc32Fn r x) y = crc32Fn r (x ++ y)) ∧
  (∀ r : Word, crc32Fn r [] = r) ∧
  ∀ (r : Word) (before after : List Byte) (b c : Byte), b ≠ c →
    crc32Fn r (before ++ b :: after) ≠ crc32Fn r (before ++ c :: after)

/-- One step of phase `CRC_A` or `CRC_B` between two bytes (40_crc.md R108). That `CRC.W` keeps the last working value
after a byte is the model's choice (log 22). -/
def Obligations.FoldStepFoldsOneByte : Prop :=
  ∀ s : State, engineTurn s = true → s.seq.phase = .crcA ∨ s.seq.phase = .crcB → s.crc.iter = 0 →
    s.crc.base.toNat + s.crc.len.toNat ≤ Config.CAP →
    let u := turnTaken s
    let b := byteAt s.crc.sel (s.memory s.crc.sel) (s.crc.base.toNat + s.crc.idx.toNat)
    step s =
      if s.crc.idx.toNat < s.crc.len.toNat then
        .next { u with
          crc := { s.crc with
            w := crcBitSteps 8 (crcSeedWord s.crc.reg b), reg := crcByteFn s.crc.reg b, idx := s.crc.idx + 1#32 } }
      else if s.seq.op = .crc32 then
        .next { u with
          status := { s.status with busy := false, done := true, err := false }
          seq := { s.seq with phase := .idle } }
      else if s.seq.phase = .crcA then
        .next { u with
          crc := { s.crc with
            sel := .obuf, base := s.dsp.offset.setWidth 32, len := s.huf.outLen.setWidth 32, idx := 0#32 }
          seq := { s.seq with phase := .crcB } }
      else .next { u with seq := { s.seq with phase := .crcChk } }

/-- A fold of `n` bytes takes `n` byte steps, after which the register is `crc32` of the register it began with and of
the bytes, in ascending order (40_crc.md R103, R108). -/
def Obligations.FoldStepsComputeCrc32 : Prop :=
  ∀ s : State, s.inputs = [] → s.seq.phase = .crcA ∨ s.seq.phase = .crcB → s.crc.iter = 0 → s.crc.idx = 0#32 →
    s.crc.base.toNat + s.crc.len.toNat ≤ Config.CAP →
    ∃ w, runSteps s.crc.len.toNat s =
      .next { s with
        crc := { s.crc with
          w := w, idx := s.crc.len
          reg := crc32Fn s.crc.reg (slice s.crc.sel s s.crc.base.toNat s.crc.len.toNat) } }

/-! ### Commands and the host -/

/-- 43_system.md R171, R173, R174, R175: with an operand that fits, each command raises `BUSY`, clears the result of the
last operation and loads its unit registers; with one that does not fit, it sets `ILLCMD` alone. -/
def Obligations.CommandsStartTheirOperation : Prop :=
  ∀ s : State, s.status.busy = false →
    let begun : StatusFlags := { s.status with busy := true, done := false, err := false }
    let cleared : HostRegs := { s.regs with errCode := none, errParam := 0#32 }
    (s.regs.argBase.toNat + s.regs.argLen.toNat ≤ Config.CAP →
      (∀ src, exec (.crc32 src) s = .next { s with
        status := begun, regs := cleared, seq := { op := .crc32, phase := .crcA }
        crc := { s.crc with sel := src, base := s.regs.argBase, len := s.regs.argLen, idx := 0#32 } }) ∧
      exec .hdec s = .next { s with
        status := begun, regs := cleared, seq := { op := .hdec, phase := .hufInit }
        huf := { s.huf with sbase := s.regs.argBase, slen := s.regs.argLen, obase := 0#32 } } ∧
      exec .decomp s = .next { s with
        status := begun, regs := cleared, seq := { op := .decomp, phase := .scan }
        dsp := { s.dsp with fbase := s.regs.argBase, flen := s.regs.argLen, probe := 0#11 } }) ∧
    (Config.CAP < s.regs.argBase.toNat + s.regs.argLen.toNat →
      ∀ i, i = .crc32 .ibuf ∨ i = .crc32 .obuf ∨ i = .hdec ∨ i = .decomp →
        exec i s = .next { s with status := { s.status with illCmd := true } })

/-- 43_system.md R171: what a host's write of a word to `CMD` does while the engine is idle. -/
def Obligations.CommandWriteStartsOrIsIllegal : Prop :=
  ∀ (s : State) (v : Word) (rest : List Input), s.inputs = .host (.writeReg 0 v.toNat) :: rest →
    s.status.busy = false →
    let u : State := { s with inputs := rest }
    let fits : Bool := decide (s.regs.argBase.toNat + s.regs.argLen.toNat ≤ Config.CAP)
    let begun : StatusFlags := { s.status with busy := true, done := false, err := false }
    let cleared : HostRegs := { s.regs with errCode := none, errParam := 0#32 }
    step s =
      if (v = 0x1#32 ∨ v = 0x5#32) ∧ fits = true then
        .next { u with
          status := begun, regs := cleared, seq := { op := .crc32, phase := .crcA }
          crc := { s.crc with
            sel := if v.getLsbD 2 then .obuf else .ibuf
            base := s.regs.argBase, len := s.regs.argLen, idx := 0#32 } }
      else if v = 0x2#32 ∧ fits = true then
        .next { u with
          status := begun, regs := cleared, seq := { op := .hdec, phase := .hufInit }
          huf := { s.huf with sbase := s.regs.argBase, slen := s.regs.argLen, obase := 0#32 } }
      else if v = 0x3#32 ∧ fits = true then
        .next { u with
          status := begun, regs := cleared, seq := { op := .decomp, phase := .scan }
          dsp := { s.dsp with fbase := s.regs.argBase, flen := s.regs.argLen, probe := 0#11 } }
      else .next { u with status := { s.status with illCmd := true } }

/-- 43_system.md R177: an illegal command sets `ILLCMD` and changes nothing else, and the flag stays until reset. -/
def Obligations.IllegalCommandSetsOnlyStickyFlag : Prop :=
  (∀ (s : State) (v : Word) (rest : List Input), s.inputs = .host (.writeReg 0 v.toNat) :: rest →
    s.status.busy = false →
    (v ≠ 0x1#32 ∧ v ≠ 0x5#32 ∧ v ≠ 0x2#32 ∧ v ≠ 0x3#32) ∨
      Config.CAP < s.regs.argBase.toNat + s.regs.argLen.toNat →
    step s = .next { s with inputs := rest, status := { s.status with illCmd := true } }) ∧
  (∀ s t : State, step s = .next t → s.status.illCmd = true →
    t.status.illCmd = true ∨ s.inputs.head? = some .reset)

/-- 43_system.md R170: while `BUSY` = 1 the host may read `STATUS`, which changes nothing; the spec asks the model to
refuse every other action (93_implementation_defined.md U3, log 9), and so does each of the three commands. -/
def Obligations.BusyBlockAnswersOnlyStatusReads : Prop :=
  ∀ s : State, s.status.busy = true →
    (∀ (a : HostAction) (rest : List Input), s.inputs = .host a :: rest →
      step s =
        if a = .readReg 1 then
          .next { s with inputs := rest, reply := .reg ((statusWord s.status).setWidth 32) }
        else .refused .hostAccessWhileBusy) ∧
    (∀ i, i = .crc32 .ibuf ∨ i = .crc32 .obuf ∨ i = .hdec ∨ i = .decomp → exec i s = .refused .hostAccessWhileBusy)

/-- 10_state.md R40, R41, R42, R45: what a read of each register number answers, and that it changes nothing. -/
def Obligations.HostReadsRegisterByNumber : Prop :=
  ∀ (s : State) (n : Nat) (rest : List Input), s.inputs = .host (.readReg n) :: rest → s.status.busy = false →
    step s = .next { s with inputs := rest, reply := .reg (readHostReg n s) } ∧
    readHostReg 0 s = 0#32 ∧
    (readHostReg 1 s).toNat =
      s.status.busy.toNat + 2 * s.status.done.toNat + 4 * s.status.err.toNat + 8 * s.status.illCmd.toNat ∧
    (readHostReg 2 s).toNat = (errCodeWord s.regs.errCode).toNat ∧
    readHostReg 3 s = s.regs.errParam ∧ readHostReg 4 s = s.regs.argBase ∧ readHostReg 5 s = s.regs.argLen ∧
    readHostReg 6 s = s.crc.reg ∧ readHostReg 7 s = 0xEDB88320#32 ∧ readHostReg 8 s = ~~~s.crc.reg ∧
    readHostReg 9 s = s.regs.resultLen ∧ (readHostReg 10 s).toNat = s.dsp.offset.toNat ∧
    readHostReg 11 s = s.dsp.expLen ∧ readHostReg 12 s = s.dsp.expCrc ∧
    (readHostReg 13 s).toNat = s.dsp.hStart.toNat ∧ (readHostReg 14 s).toNat = s.huf.outLen.toNat ∧
    (15 ≤ n → readHostReg n s = 0#32)

/-- 43_system.md R178: a write to a register other than `CMD`. -/
def Obligations.HostWritesStoreModuloWidth : Prop :=
  ∀ (s : State) (n v : Nat) (rest : List Input), s.inputs = .host (.writeReg n v) :: rest → s.status.busy = false →
    n ≠ 0 →
    let u : State := { s with inputs := rest }
    step s =
      if n = 4 then .next { u with regs := { s.regs with argBase := BitVec.ofNat 32 v } }
      else if n = 5 then .next { u with regs := { s.regs with argLen := BitVec.ofNat 32 v } }
      else if n = 6 then .next { u with crc := { s.crc with reg := BitVec.ofNat 32 v } }
      else .next u

/-- 10_state.md R42: in every state of the invariant bits 2:0 of `STATUS` are 000, 001, 010 or 110, and no higher bit
than bit 3 is ever set. -/
def Obligations.StatusWordIsALegalCombination : Prop :=
  ∀ s : State, readHostReg 1 s = (statusWord s.status).setWidth 32 ∧
    (Inv s →
      (statusWord s.status).setWidth 3 = 0b000#3 ∨ (statusWord s.status).setWidth 3 = 0b001#3 ∨
      (statusWord s.status).setWidth 3 = 0b010#3 ∨ (statusWord s.status).setWidth 3 = 0b110#3)

/-- 43_system.md R170, 20_memory.md R55: bytes a host writes are the bytes it reads back from there, every other byte
of both memories is as before, and no register changes. -/
def Obligations.HostMemoryWriteReadsBack : Prop :=
  ∀ (s : State) (buf : Buffer) (a : Nat) (bs : List Byte) (rest : List Input),
    s.inputs = .host (.writeMem buf a bs) :: .host (.readMem buf a bs.length) :: rest → s.status.busy = false →
    a + bs.length ≤ Config.CAP →
    ∃ t, runSteps 2 s = .next t ∧ t.reply = .bytes bs ∧ t.inputs = rest ∧
      (∀ other b, other ≠ buf ∨ b < a ∨ a + bs.length ≤ b →
        byteAt other (t.memory other) b = byteAt other (s.memory other) b) ∧
      t.crc = s.crc ∧ t.huf = s.huf ∧ t.dsp = s.dsp ∧ t.seq = s.seq ∧ t.status = s.status ∧ t.regs = s.regs

/-- 20_memory.md R50, R53: a multi-byte read at any address is little-endian and needs no alignment. -/
def Obligations.WordReadIsLittleEndian : Prop :=
  ∀ (buf : Buffer) (a : Nat) (s : State),
    (a + 4 ≤ Config.CAP → readLE buf a 4 s = .ok (wordAt buf s a).toNat) ∧
    (a + 3 ≤ Config.CAP → readLE buf a 3 s = .ok (triadAt buf s a).toNat)

/-- An access to an address that a memory does not have is a fault of the model (10_state.md R37, R38; log 11): a byte
read, a byte write, a host read or write that runs past the end, and a walker step whose tree byte is not there. -/
def Obligations.AccessOutsideMemoryFaults : Prop :=
  ∀ (s : State) (buf : Buffer) (a : Nat), Config.CAP ≤ a →
    (readByte buf a s = .error (.outsideMemory buf a)) ∧
    (∀ v, writeByte buf a v s = .error (.outsideMemory buf a)) ∧
    (s.status.busy = false → ∀ n rest, s.inputs = .host (.readMem buf a (n + 1)) :: rest →
      step s = .fault (.outsideMemory buf a)) ∧
    (s.status.busy = false → ∀ v rest, s.inputs = .host (.writeMem buf a [v]) :: rest →
      step s = .fault (.outsideMemory buf a)) ∧
    (∀ other off, advancedPos off s ≤ s.huf.extra.toNat →
      (treeAddr s (2 * advancedPos off s) = a →
        exec (.walkLNode other off) s = .fault (.outsideMemory .ibuf a) ∧
        exec (.walkLLeaf other off) s = .fault (.outsideMemory .ibuf a)) ∧
      (treeAddr s (2 * advancedPos off s + 1) = a →
        exec (.walkRNode other off) s = .fault (.outsideMemory .ibuf a) ∧
        exec (.walkRLeaf other off) s = .fault (.outsideMemory .ibuf a)))

/-! ### Container unit -/

/-- One `SCAN` step (42_container.md R151, R162). -/
def Obligations.ScanStepProbesOneOffset : Prop :=
  ∀ s : State, engineTurn s = true → s.seq.phase = .scan → s.dsp.fbase.toNat + s.dsp.flen.toNat ≤ Config.CAP →
    let u := turnTaken s
    step s =
      if 1024 < s.dsp.probe.toNat ∨ s.dsp.flen.toNat < s.dsp.probe.toNat + 4 then raise .sectorNotFound 0 u
      else if wordAt .ibuf s (s.dsp.fbase.toNat + s.dsp.probe.toNat) = 0x434F4D50#32 then
        .next { u with dsp := { s.dsp with offset := s.dsp.probe }, seq := { s.seq with phase := .hdr } }
      else .next { u with dsp := { s.dsp with probe := s.dsp.probe + 64#11 } }

/-- `SECT.MARK` (42_container.md R151, R162). -/
def Obligations.SectMarkFixesOffset : Prop :=
  ∀ s : State, exec .sectMark s =
    .next { s with dsp := { s.dsp with offset := s.dsp.probe }, seq := { s.seq with phase := .hdr } }

/-- One `HDR` step: the size guard before any field is read, the two little-endian fields, the descriptor start, the
early discriminator check (42_container.md R153, R154, R155). -/
def Obligations.HdrStepReadsHeader : Prop :=
  ∀ s : State, engineTurn s = true → s.seq.phase = .hdr → OffsetOk s.dsp →
    s.dsp.fbase.toNat + s.dsp.flen.toNat ≤ Config.CAP →
    let u := turnTaken s
    let offset := s.dsp.offset.toNat
    let base := s.dsp.fbase.toNat
    let d : DspUnit := { s.dsp with
      expLen := wordAt .ibuf s (base + (offset + 8)), expCrc := wordAt .ibuf s (base + (offset + 12))
      hStart := s.dsp.offset + 16#11 }
    step s =
      if s.dsp.flen.toNat < offset + 17 then raise .bufferTooSmall 0 u
      else if byteAt .ibuf s.ibuf (base + (offset + 16)) ≠ 0x28#8 then raise .unsupportedFormat 0 { u with dsp := d }
      else .next { u with dsp := { d with cpIdx := 0#11 }, seq := { s.seq with phase := .copy } }

/-- One `COPY` step: one preamble byte to `OBUF`, or the hand-over to the Huffman unit (42_container.md R162). -/
def Obligations.CopyStepCopiesPreamble : Prop :=
  ∀ s : State, engineTurn s = true → Inv s → s.seq.phase = .copy →
    let u := turnTaken s
    if s.dsp.cpIdx.toNat < s.dsp.offset.toNat then
      ∃ t, step s = .next t ∧
        (∀ a, byteAt .obuf t.obuf a =
          if a = s.dsp.cpIdx.toNat then byteAt .ibuf s.ibuf (s.dsp.fbase.toNat + s.dsp.cpIdx.toNat)
          else byteAt .obuf s.obuf a) ∧
        t = { u with obuf := t.obuf, dsp := { s.dsp with cpIdx := s.dsp.cpIdx + 1#11 } }
    else
      ∃ t, step s = .next t ∧ t.huf.sbase.toNat = s.dsp.fbase.toNat + s.dsp.hStart.toNat ∧
        t.huf.slen.toNat = s.dsp.flen.toNat - s.dsp.hStart.toNat ∧
        t = { u with
          huf := { s.huf with sbase := t.huf.sbase, slen := t.huf.slen, obase := s.dsp.offset.setWidth 32 }
          seq := { s.seq with phase := .hufInit } }

/-- One `LENCHK` step (42_container.md R157, R162). -/
def Obligations.LenChkStepComparesLengths : Prop :=
  ∀ s : State, engineTurn s = true → s.seq.phase = .lenChk →
    let u := turnTaken s
    step s =
      if s.huf.outLen.setWidth 32 ≠ s.dsp.expLen then raise .lengthMismatch 0 u
      else .next { u with
        crc := { s.crc with
          reg := 0xFFFFFFFF#32, sel := .ibuf, base := s.dsp.fbase, len := s.dsp.offset.setWidth 32, idx := 0#32 }
        seq := { s.seq with phase := .crcA } }

/-- One `CRCCHK` step: the complement is taken for the comparison only (42_container.md R159, R160, R162). -/
def Obligations.CrcChkStepComparesChecksums : Prop :=
  ∀ s : State, engineTurn s = true → s.seq.phase = .crcChk →
    let u := turnTaken s
    step s =
      if ~~~s.crc.reg ≠ s.dsp.expCrc then raise .checksumMismatch 0 u
      else .next { u with
        regs := { s.regs with resultLen := s.dsp.offset.setWidth 32 + s.huf.outLen.setWidth 32 }
        status := { s.status with busy := false, done := true, err := false }
        seq := { s.seq with phase := .idle } }

/-! ### Huffman unit -/

/-- One `HUF_INIT` step makes the entry checks in order, parses the header and starts the walk (41_huffman.md R121,
R122, R123, R124, R126, R127). -/
def Obligations.HufInitStepChecksInOrder : Prop :=
  ∀ s : State, engineTurn s = true → s.seq.phase = .hufInit → SourceOk s.huf →
    let u := turnTaken s
    let base := s.huf.sbase.toNat
    let extra := byteAt .ibuf s.ibuf (base + 4)
    let magIdx := 6 + 2 * extra.toNat
    let h : HufUnit := { s.huf with
      outLen := triadAt .ibuf s (base + 1), extra := extra, magIdx := BitVec.ofNat 10 magIdx }
    step s =
      if s.huf.slen.toNat ≤ 6 then raise .bufferTooSmall 0 u
      else if byteAt .ibuf s.ibuf base ≠ 0x28#8 then raise .unsupportedFormat 0 u
      else if s.huf.slen.toNat ≤ magIdx then raise .unsupportedFormat 0 { u with huf := h }
      else if triadAt .ibuf s (base + 1) = 0#24 then .refused .zeroOutLength
      else .next { u with
        huf := { h with
          pos := 0#9, entry := byteAt .ibuf s.ibuf (base + 5), outPos := 0#24
          chunk := BitVec.ofNat 32 magIdx, byte := 3#2, mask := 128#8 }
        seq := { s.seq with phase := .hufBit } }

/-- `DESC.HUFF8` in a `HUF_INIT` step parses the header and starts the walk (41_huffman.md R123, R127); in a `HDR` step
it starts the preamble copy (42_container.md R155; log 19). -/
def Obligations.DescHuff8StartsTheWalk : Prop :=
  ∀ s : State,
    let base := s.huf.sbase.toNat
    let extra := byteAt .ibuf s.ibuf (base + 4)
    let magIdx := 6 + 2 * extra.toNat
    (s.seq.phase ≠ .hdr → SourceOk s.huf → magIdx < s.huf.slen.toNat → triadAt .ibuf s (base + 1) ≠ 0#24 →
      exec .descHuff8 s = .next { s with
        huf := { s.huf with
          outLen := triadAt .ibuf s (base + 1), extra := extra, magIdx := BitVec.ofNat 10 magIdx
          pos := 0#9, entry := byteAt .ibuf s.ibuf (base + 5), outPos := 0#24
          chunk := BitVec.ofNat 32 magIdx, byte := 3#2, mask := 128#8 }
        seq := { s.seq with phase := .hufBit } }) ∧
    (s.seq.phase = .hdr →
      exec .descHuff8 s = .next { s with dsp := { s.dsp with cpIdx := 0#11 }, seq := { s.seq with phase := .copy } })

/-- One `HUF_BIT` step: exhaustion before anything is read; else one bit of a whole chunk is taken, and with the entry as
it was before the step it selects one walker row; the step ends with that row's outcome, and the cursor moves on exactly
when the walk goes on (41_huffman.md R138, R141, 30_encoding.md R83). -/
def Obligations.HufBitStepTakesNextBit : Prop :=
  ∀ s : State, Inv s → engineTurn s = true → s.seq.phase = .hufBit →
    let u := turnTaken s
    let e := s.huf.entry
    let off := (e.extractLsb' 0 6).toNat
    if s.huf.slen.toNat < s.huf.chunk.toNat + 4 then
      step s = raise .truncatedInput (s.huf.outLen.toNat - s.huf.outPos.toNat) u ∧
      1 ≤ s.huf.outLen.toNat - s.huf.outPos.toNat ∧
      s.huf.outLen.toNat - s.huf.outPos.toNat ≤ s.huf.outLen.toNat
    else
      let v := byteAt .ibuf s.ibuf (s.huf.sbase.toNat + (s.huf.chunk.toNat + s.huf.byte.toNat))
      let b : Bool := decide (v &&& s.huf.mask ≠ 0#8)
      let row : Instr :=
        if b then if e.getLsbD 6 then .walkRLeaf (e.getLsbD 7) off else .walkRNode (e.getLsbD 7) off
        else if e.getLsbD 7 then .walkLLeaf (e.getLsbD 6) off else .walkLNode (e.getLsbD 6) off
      decode (.walk (BitVec.ofBool b ++ e)) = .ok row ∧
      ∃ t, exec row u = .next t ∧
        step s = .next (if t.seq.phase = .hufBit then { t with huf := advanceCursor t.huf } else t)

/-- The cursor moves by one bit: to the next bit of the byte, the next lower byte of the chunk or the next chunk, and
stays a cursor (10_state.md R32, 41_huffman.md R128). Nothing else of the unit changes. -/
def Obligations.CursorMovesOneBit : Prop :=
  ∀ h : HufUnit, MaskOneBit h → h.chunk.toNat + 4 < 2 ^ 32 →
    MaskOneBit (advanceCursor h) ∧ cursorIndex (advanceCursor h) = cursorIndex h + 1 ∧
    ((advanceCursor h).chunk = h.chunk ∨ (advanceCursor h).chunk.toNat = h.chunk.toNat + 4) ∧
    advanceCursor h =
      { h with
        chunk := (advanceCursor h).chunk, byte := (advanceCursor h).byte, mask := (advanceCursor h).mask }

/-- The bit under the cursor is bit `31 - i` of the little-endian chunk word, where `i` counts the bits of the chunk
already consumed (20_memory.md R51). -/
def Obligations.StreamBitsDescendTheChunkWord : Prop :=
  ∀ s : State, MaskOneBit s.huf →
    cursorIndex s.huf - 8 * s.huf.chunk.toNat ≤ 31 ∧
    streamBit (byteAt .ibuf s.ibuf (streamAddr s)) s.huf.mask =
      (wordAt .ibuf s (sourceAddr s s.huf.chunk.toNat)).getLsbD (31 - (cursorIndex s.huf - 8 * s.huf.chunk.toNat))

/-- 41_huffman.md R130: above `tree[0]` every walker row raises `TreeOverflow`, before it reads the tree; at or below it
both children are inside the tree. -/
def Obligations.WalkOutsideTreeOverflows : Prop :=
  ∀ (s : State) (other : Bool) (off : Nat),
    (s.huf.extra.toNat < s.huf.pos.toNat + off + 1 →
      exec (.walkLNode other off) s = raise .treeOverflow 0 s ∧
      exec (.walkLLeaf other off) s = raise .treeOverflow 0 s ∧
      exec (.walkRNode other off) s = raise .treeOverflow 0 s ∧
      exec (.walkRLeaf other off) s = raise .treeOverflow 0 s) ∧
    (s.huf.pos.toNat + off + 1 ≤ s.huf.extra.toNat →
      1 ≤ s.huf.pos.toNat + off + 1 ∧ s.huf.pos.toNat + off + 1 ≤ 255 ∧
      2 * (s.huf.pos.toNat + off + 1) + 1 < 2 * s.huf.extra.toNat + 2) ∧
    (s.huf.pos.toNat ≤ s.huf.extra.toNat → off < 64 → s.huf.pos.toNat + off + 1 ≤ 319)

/-- 41_huffman.md R131, R133: the child becomes the current entry, `p'` the current pair index, and nothing else
changes; the other tag, whatever its value, makes no difference. -/
def Obligations.WalkNodesDescend : Prop :=
  ∀ (s : State) (other : Bool) (off : Nat),
    let p := s.huf.pos.toNat + off + 1
    (off < 64 →
      decode (.walk (0#1 ++ 0#1 ++ BitVec.ofBool other ++ BitVec.ofNat 6 off)) = .ok (.walkLNode other off) ∧
      decode (.walk (1#1 ++ BitVec.ofBool other ++ 0#1 ++ BitVec.ofNat 6 off)) = .ok (.walkRNode other off)) ∧
    (p ≤ s.huf.extra.toNat → treeAddr s (2 * p) < Config.CAP →
      exec (.walkLNode other off) s = .next { s with
        huf := { s.huf with entry := byteAt .ibuf s.ibuf (treeAddr s (2 * p)), pos := BitVec.ofNat 9 p } }) ∧
    (p ≤ s.huf.extra.toNat → treeAddr s (2 * p + 1) < Config.CAP →
      exec (.walkRNode other off) s = .next { s with
        huf := { s.huf with entry := byteAt .ibuf s.ibuf (treeAddr s (2 * p + 1)), pos := BitVec.ofNat 9 p } })

/-- 41_huffman.md R132, R134, R135, R137: all eight bits of the child are the output byte; while the payload is not
full the walk restarts at the root and the bit cursor is not touched. -/
def Obligations.WalkLeavesEmitAndRestart : Prop :=
  ∀ (s : State) (right other : Bool) (off : Nat),
    let p := s.huf.pos.toNat + off + 1
    let j := if right then 2 * p + 1 else 2 * p
    p ≤ s.huf.extra.toNat → treeAddr s j < Config.CAP → treeAddr s 1 < Config.CAP → payloadAddr s < Config.CAP →
    s.huf.outPos + 1#24 ≠ s.huf.outLen →
    exec (if right then .walkRLeaf other off else .walkLLeaf other off) s = .next { s with
      obuf := s.obuf.put (payloadAddr s) (byteAt .ibuf s.ibuf (treeAddr s j))
      huf := { s.huf with
        outPos := s.huf.outPos + 1#24, entry := byteAt .ibuf s.ibuf (treeAddr s 1), pos := 0#9 } }

/-- 41_huffman.md R136, R141: the byte that fills the payload ends the decode: trailing bytes fail with their count,
else `HDEC` has its result and `DECOMP` goes on to the length check. -/
def Obligations.WalkLeavesFillThePayload : Prop :=
  ∀ (s : State) (right other : Bool) (off : Nat),
    let p := s.huf.pos.toNat + off + 1
    let j := if right then 2 * p + 1 else 2 * p
    p ≤ s.huf.extra.toNat → treeAddr s j < Config.CAP → payloadAddr s < Config.CAP →
    s.huf.outPos + 1#24 = s.huf.outLen →
    let filled : State := { s with
      obuf := s.obuf.put (payloadAddr s) (byteAt .ibuf s.ibuf (treeAddr s j))
      huf := { s.huf with outPos := s.huf.outLen } }
    exec (if right then .walkRLeaf other off else .walkLLeaf other off) s =
      if s.huf.slen.toNat - s.huf.chunk.toNat ≠ 4 then
        raise .trailingBytes (s.huf.slen.toNat - s.huf.chunk.toNat - 4) filled
      else if s.seq.op = .hdec then
        .next { filled with
          regs := { s.regs with resultLen := s.huf.outLen.setWidth 32 }
          status := { s.status with busy := false, done := true, err := false }
          seq := { s.seq with phase := .idle } }
      else .next { filled with seq := { s.seq with phase := .lenChk } }

/-- The frame of the two storing rows: when a leaf row answers a next state, the one byte stored is the child at the
payload address, every other byte of both memories reads as before (after a failure: every other byte that the failure
does not leave unspecified, log 5), and no register but the walker's and, at the end, the result's has changed
(41_huffman.md R135, 20_memory.md R63). -/
def Obligations.WalkLeavesStoreOneByte : Prop :=
  ∀ (s t : State) (right other : Bool) (off : Nat),
    exec (if right then .walkRLeaf other off else .walkLLeaf other off) s = .next t →
    (∀ a, byteAt .ibuf t.ibuf a = byteAt .ibuf s.ibuf a) ∧
    (∀ a, a ≠ payloadAddr s → t.status.err = false ∨ spoiledBytes s ≤ a →
      byteAt .obuf t.obuf a = byteAt .obuf s.obuf a) ∧
    (t.status.err = false → byteAt .obuf t.obuf (payloadAddr s) =
      byteAt .ibuf s.ibuf
        (treeAddr s (if right then 2 * advancedPos off s + 1 else 2 * advancedPos off s))) ∧
    t.crc = s.crc ∧ t.dsp = s.dsp ∧ t.seq.op = s.seq.op ∧ t.inputs = s.inputs ∧ t.reply = s.reply ∧
    t.status.illCmd = s.status.illCmd ∧ t.regs.argBase = s.regs.argBase ∧ t.regs.argLen = s.regs.argLen ∧
    t.huf = { s.huf with pos := t.huf.pos, entry := t.huf.entry, outPos := t.huf.outPos }

/-- The frame of the ten rows that store nothing: `IBUF` reads as before, and so does `OBUF`, except that the failure
that a walker step or a descriptor can end in leaves bytes below `spoiledBytes` unspecified (log 5). -/
def Obligations.OtherRowsStoreNothing : Prop :=
  ∀ (i : Instr) (s t : State), exec i s = .next t →
    (∀ a, byteAt .ibuf t.ibuf a = byteAt .ibuf s.ibuf a) ∧
    ((∃ src, i = .crc32 src) ∨ i = .hdec ∨ i = .decomp ∨ i = .crcShift ∨ i = .crcShiftXor ∨ (∃ b, i = .crcByte b) ∨
        i = .sectMark →
      ∀ a, byteAt .obuf t.obuf a = byteAt .obuf s.obuf a) ∧
    ((∃ x off, i = .walkLNode x off ∨ i = .walkRNode x off) ∨
        (i = .descHuff8 ∧ (s.seq.phase = .hufInit ∨ s.seq.phase = .hdr)) →
      ∀ a, t.status.err = false ∨ spoiledBytes s ≤ a → byteAt .obuf t.obuf a = byteAt .obuf s.obuf a)

/-! ### Failure results and reset -/

/-- 60_exceptions.md R200: what `raise E(n)` writes, and that every register it does not name keeps its value. -/
def Obligations.RaiseRecordsTheFailure : Prop :=
  ∀ (e : Failure) (n : Nat) (s : State), n < 2 ^ 32 →
    ∃ t, raise e n s = .next t ∧
      readHostReg 2 t = (failureCode e).setWidth 32 ∧ t.regs.errParam.toNat = n ∧ t.regs.resultLen = 0#32 ∧
      t.status.err = true ∧ t.status.done = true ∧ t.status.busy = false ∧ t.seq.phase = .idle ∧
      t.status.illCmd = s.status.illCmd ∧ t.seq.op = s.seq.op ∧ t.regs.argBase = s.regs.argBase ∧
      t.regs.argLen = s.regs.argLen ∧ t.crc = s.crc ∧ t.huf = s.huf ∧ t.dsp = s.dsp ∧ t.ibuf = s.ibuf ∧
      t.inputs = s.inputs ∧ t.reply = s.reply

/-- The codes and the classes of the eight failures; codes 9 to 15 are never produced (60_exceptions.md R190, R199). -/
def Obligations.FailureCodesAreThoseOfTheList : Prop :=
  (Failure.bufferTooSmall, 1#4, FailureClass.format) = failureEntry .bufferTooSmall ∧
  (Failure.unsupportedFormat, 2#4, FailureClass.format) = failureEntry .unsupportedFormat ∧
  (Failure.treeOverflow, 3#4, FailureClass.structural) = failureEntry .treeOverflow ∧
  (Failure.trailingBytes, 4#4, FailureClass.structural) = failureEntry .trailingBytes ∧
  (Failure.truncatedInput, 5#4, FailureClass.structural) = failureEntry .truncatedInput ∧
  (Failure.lengthMismatch, 6#4, FailureClass.integrity) = failureEntry .lengthMismatch ∧
  (Failure.checksumMismatch, 7#4, FailureClass.integrity) = failureEntry .checksumMismatch ∧
  (Failure.sectorNotFound, 8#4, FailureClass.format) = failureEntry .sectorNotFound ∧
  (∀ c, (errCodeWord c).toNat ≤ 8) ∧ errCodeWord none = 0#4

/-- 70_reset_and_hazards.md R220: the reset input, at any time and in any state, puts every register at its value after
reset (`CRC.W` has none, and the model's own mid-byte count is no register), and the engine is idle. -/
def Obligations.ResetInputRestoresRegisters : Prop :=
  ∀ (s : State) (rest : List Input), s.inputs = .reset :: rest →
    ∃ t, step s = .next t ∧ t.crc = { State.reset.crc with w := t.crc.w, iter := t.crc.iter } ∧ t.huf = State.reset.huf ∧
      t.dsp = State.reset.dsp ∧ t.seq = State.reset.seq ∧ t.status = State.reset.status ∧
      t.regs = State.reset.regs ∧ t.inputs = rest

/-- 70_reset_and_hazards.md R221. Nothing is said of what it leaves unspecified: `CRC.W` and both memories. -/
def Obligations.ResetStateIsTheSpecsReset : Prop :=
  State.reset.seq = { op := .none, phase := .idle } ∧ seqOpBits State.reset.seq.op = 0b00#2 ∧
  State.reset.status = { busy := false, done := false, err := false, illCmd := false } ∧
  readHostReg 1 State.reset = 0#32 ∧ readHostReg 2 State.reset = 0#32 ∧ readHostReg 3 State.reset = 0#32 ∧
  readHostReg 4 State.reset = 0#32 ∧ readHostReg 5 State.reset = 0#32 ∧
  readHostReg 6 State.reset = 0xFFFFFFFF#32 ∧ readHostReg 7 State.reset = 0xEDB88320#32 ∧
  readHostReg 8 State.reset = 0x00000000#32 ∧ readHostReg 9 State.reset = 0#32 ∧
  State.reset.crc.sel = .ibuf ∧ State.reset.crc.base = 0#32 ∧ State.reset.crc.len = 0#32 ∧
  State.reset.crc.idx = 0#32 ∧
  State.reset.dsp =
    { probe := 0#11, offset := 0#11, expLen := 0#32, expCrc := 0#32, hStart := 0#11, cpIdx := 0#11, fbase := 0#32
      flen := 0#32 } ∧
  State.reset.huf =
    { outLen := 0#24, extra := 0#8, magIdx := 0#10, pos := 0#9, entry := 0#8, outPos := 0#24, sbase := 0#32
      slen := 0#32, obase := 0#32, chunk := 0#32, byte := 0#2, mask := 0#8 }

/-! ### The whole machine -/

/-- The invariant of the machine holds right after reset. -/
def Obligations.InvHoldsAtReset : Prop := Inv State.reset

/-- Every step keeps the invariant: the memories stay in canonical form, the flags stay a legal combination and agree
with the phase and with the failure registers, and each phase has what it needs (10_state.md R26, R27, R31, R32, R35,
R42, R43, 41_huffman.md R130, 42_container.md R163). -/
def Obligations.EveryStepKeepsInv : Prop := ∀ s t : State, Inv s → step s = .next t → Inv t

/-- 20_memory.md R57: in every state of the invariant an engine step accesses no byte outside the memories; it always
has a next state, but for the one input the spec refuses (41_huffman.md R126). -/
def Obligations.EngineStaysInsideMemory : Prop :=
  ∀ s : State, Inv s → engineTurn s = true →
    (∃ t, step s = .next t) ∨ (s.seq.phase = .hufInit ∧ step s = .refused .zeroOutLength)

/-- 10_state.md R37, 20_memory.md R54, R62: no engine step writes `IBUF`. -/
def Obligations.EngineNeverWritesIbuf : Prop :=
  ∀ s t : State, engineTurn s = true → step s = .next t → t.ibuf = s.ibuf

/-- 20_memory.md R63: an engine step changes no byte of `OBUF` at or above the part its phase may write (or, after a
failure, leave unspecified: which bytes those are is the model's reading, log 5). -/
def Obligations.EngineTouchesOnlyItsPartOfObuf : Prop :=
  ∀ s t : State, Inv s → engineTurn s = true → step s = .next t →
    ∀ a, touchedBelow s ≤ a → byteAt .obuf t.obuf a = byteAt .obuf s.obuf a

/-- 42_container.md section 6, 10_state.md R22: only `LENCHK` and the fold steps write `CRC.REG`. -/
def Obligations.CrcRegKeptOutsideTheFolds : Prop :=
  ∀ s t : State, engineTurn s = true → step s = .next t → s.seq.phase ≠ .lenChk → s.seq.phase ≠ .crcA →
    s.seq.phase ≠ .crcB → t.crc.reg = s.crc.reg

/-- 43_system.md R180: a phase is left forward only, or to `IDLE` by a finishing step. -/
def Obligations.PhasesGoForward : Prop :=
  ∀ s t : State, engineTurn s = true → step s = .next t →
    t.seq.op = s.seq.op ∧ t.seq.phase ∈ phaseSuccessors s.seq.phase ∧
    (s.seq.phase ≠ .idle → t.seq.phase = .idle → t.status.done = true ∧ t.status.busy = false)

/-- In `IDLE` the engine has no step (10_state.md R31); the model's choice is that its turn changes nothing (log 8). -/
def Obligations.IdleEngineChangesNothing : Prop :=
  ∀ s : State, engineTurn s = true → s.seq.phase = .idle → step s = .next (turnTaken s)

/-- 43_system.md R176: from every state of the invariant in which an operation runs, the engine, left alone, reaches the
finishing step after finitely many steps, unless it meets the one input that is refused. -/
def Obligations.EveryOperationEnds : Prop :=
  ∀ s : State, Inv s → s.inputs = [] → s.status.busy = true →
    ∃ n, (∃ t, runSteps n s = .next t ∧ t.status.busy = false ∧ t.status.done = true ∧ t.seq.phase = .idle) ∨
      runSteps n s = .refused .zeroOutLength

/-! ### The operations are the functions -/

/-- 41_huffman.md R142 (c): a clean decode returns exactly `out_length` bytes, and the source ended with a whole chunk. -/
def Obligations.HdecResultHasDeclaredLength : Prop :=
  ∀ source out : List Byte, hdecFn source = .ok out →
    out.length = leAt source 1 3 ∧ out ≠ [] ∧
    6 + 2 * (byteIn source 4).toNat + 4 ≤ source.length ∧
    (source.length - (6 + 2 * (byteIn source 4).toNat)) % 4 = 0

/-- 42_container.md R163 (b), (c): what holds of a successful decompression. -/
def Obligations.DecompressResultIsVerified : Prop :=
  ∀ file res : List Byte, decompressFn file = .ok res →
    ∃ offset, offset % 64 = 0 ∧ offset ≤ 1024 ∧ offset + 17 ≤ file.length ∧
      leAt file offset 4 = 0x434F4D50 ∧ (∀ k, 64 * k < offset → leAt file (64 * k) 4 ≠ 0x434F4D50) ∧
      res.length = offset + leAt file (offset + 8) 4 ∧ res.take offset = file.take offset ∧
      (~~~(crc32Fn 0xFFFFFFFF#32 res)).toNat = leAt file (offset + 12) 4

/-- 43_system.md R173: the whole `CRC32` operation, from the command to the finishing step, is the function `crc32` on
`CRC.REG`; the command's loads are spelled out, and nothing else changes (`CRC.W` holds nothing between steps). -/
def Obligations.Crc32OperationIsTheFunction : Prop :=
  ∀ (src : Buffer) (s : State), Inv s → s.inputs = [] → s.status.busy = false →
    s.regs.argBase.toNat + s.regs.argLen.toNat ≤ Config.CAP →
    ∃ t0 w, exec (.crc32 src) s = .next t0 ∧
      t0.crc = { s.crc with sel := src, base := s.regs.argBase, len := s.regs.argLen, idx := 0#32 } ∧
      t0.seq = { op := .crc32, phase := .crcA } ∧
      runSteps (s.regs.argLen.toNat + 1) t0 = .next { s with
        crc := { s.crc with
          reg := crc32Fn s.crc.reg (operand src s), w := w
          sel := src, base := s.regs.argBase, len := s.regs.argLen, idx := s.regs.argLen }
        seq := { op := .crc32, phase := .idle }
        status := { s.status with busy := false, done := true, err := false }
        regs := { s.regs with errCode := none, errParam := 0#32 } }

/-- 43_system.md R174, R181: the whole `HDEC` operation is the function `hdec` of its operand, and leaves `CRC.REG` and
every byte of `OBUF` outside `OBUF[0 .. out_length)` alone. When check 1 or 2 fails, no header has been parsed and no byte
of `OBUF` changes; else `HUF.OUTLEN`, which bounds the range that `ReportsResult` leaves open after a failure, is the
`out_length` of this source. -/
def Obligations.HdecOperationIsTheFunction : Prop :=
  ∀ s : State, Inv s → s.inputs = [] → s.status.busy = false →
    s.regs.argBase.toNat + s.regs.argLen.toNat ≤ Config.CAP →
    let source := operand .ibuf s
    ∃ t0, exec .hdec s = .next t0 ∧ t0.ibuf = s.ibuf ∧ t0.obuf = s.obuf ∧
      t0.huf = { s.huf with sbase := s.regs.argBase, slen := s.regs.argLen, obase := 0#32 } ∧
      t0.seq = { op := .hdec, phase := .hufInit } ∧
      ReportsResult t0
        (fun t => t.crc.reg = s.crc.reg ∧ t.huf.obase = 0#32 ∧
          if source.length ≤ 6 ∨ byteIn source 0 ≠ 0x28#8 then
            ∀ a, byteAt .obuf t.obuf a = byteAt .obuf s.obuf a
          else t.huf.outLen.toNat = leAt source 1 3)
        (hdecFn source)

/-- 43_system.md R175, R181: the whole `DECOMP` operation is the function `decompress` of its operand; `CRC.REG` keeps its
value unless the decode and the length check passed, else it holds the uncomplemented chained register. -/
def Obligations.DecompOperationIsTheFunction : Prop :=
  ∀ s : State, Inv s → s.inputs = [] → s.status.busy = false →
    s.regs.argBase.toNat + s.regs.argLen.toNat ≤ Config.CAP →
    let file := operand .ibuf s
    ∃ t0, exec .decomp s = .next t0 ∧ t0.ibuf = s.ibuf ∧ t0.obuf = s.obuf ∧
      t0.dsp = { s.dsp with fbase := s.regs.argBase, flen := s.regs.argLen, probe := 0#11 } ∧
      t0.seq = { op := .decomp, phase := .scan } ∧
      ReportsResult t0
        (fun t =>
          if t.regs.errCode = none ∨ t.regs.errCode = some .checksumMismatch then
            (t.regs.errCode = none → t.crc.reg = ~~~t.dsp.expCrc) ∧
            ∃ decoded, hdecFn (file.drop (t.dsp.offset.toNat + 16)) = .ok decoded ∧
              t.crc.reg = crc32Fn (crc32Fn 0xFFFFFFFF#32 (file.take t.dsp.offset.toNat)) decoded
          else t.crc.reg = s.crc.reg)
        (decompressFn file)
end

