-- ==== Sys2Proof/Laws/State.lean ====
section
/-! SUPPORT. The small lemmas of every state update: one per field, so that no later proof unfolds an update. -/

namespace Sys2Proof.Machine

variable (s : State)

/-! ### `State.finish` -/

@[simp] theorem State.finish_crc : (State.finish s).crc = s.crc := rfl
@[simp] theorem State.finish_huf : (State.finish s).huf = s.huf := rfl
@[simp] theorem State.finish_dsp : (State.finish s).dsp = s.dsp := rfl
@[simp] theorem State.finish_seq : (State.finish s).seq = { s.seq with phase := .idle } := rfl
@[simp] theorem State.finish_status : (State.finish s).status = flagsEnded false s.status := rfl
@[simp] theorem State.finish_regs : (State.finish s).regs = s.regs := rfl
@[simp] theorem State.finish_ibuf : (State.finish s).ibuf = s.ibuf := rfl
@[simp] theorem State.finish_obuf : (State.finish s).obuf = s.obuf := rfl
@[simp] theorem State.finish_inputs : (State.finish s).inputs = s.inputs := rfl
@[simp] theorem State.finish_reply : (State.finish s).reply = s.reply := rfl

/-! ### `State.failed` -/

@[simp] theorem State.failed_crc (e : Failure) (n : Nat) : (State.failed e n s).crc = s.crc := rfl
@[simp] theorem State.failed_huf (e : Failure) (n : Nat) : (State.failed e n s).huf = s.huf := rfl
@[simp] theorem State.failed_dsp (e : Failure) (n : Nat) : (State.failed e n s).dsp = s.dsp := rfl
@[simp] theorem State.failed_seq (e : Failure) (n : Nat) : (State.failed e n s).seq = { s.seq with phase := .idle } := rfl
@[simp] theorem State.failed_status (e : Failure) (n : Nat) : (State.failed e n s).status = flagsEnded true s.status := rfl
@[simp] theorem State.failed_regs (e : Failure) (n : Nat) : (State.failed e n s).regs = { s.regs with errCode := some e, errParam := BitVec.ofNat 32 n, resultLen := 0#32 } := rfl
@[simp] theorem State.failed_ibuf (e : Failure) (n : Nat) : (State.failed e n s).ibuf = s.ibuf := rfl
@[simp] theorem State.failed_obuf (e : Failure) (n : Nat) : (State.failed e n s).obuf = s.obuf.spoil (spoiledBytes s) := rfl
@[simp] theorem State.failed_inputs (e : Failure) (n : Nat) : (State.failed e n s).inputs = s.inputs := rfl
@[simp] theorem State.failed_reply (e : Failure) (n : Nat) : (State.failed e n s).reply = s.reply := rfl

/-! ### `State.begun` -/

@[simp] theorem State.begun_crc (op : SeqOp) (p : Phase) : (State.begun op p s).crc = s.crc := rfl
@[simp] theorem State.begun_huf (op : SeqOp) (p : Phase) : (State.begun op p s).huf = s.huf := rfl
@[simp] theorem State.begun_dsp (op : SeqOp) (p : Phase) : (State.begun op p s).dsp = s.dsp := rfl
@[simp] theorem State.begun_seq (op : SeqOp) (p : Phase) : (State.begun op p s).seq = { op := op, phase := p } := rfl
@[simp] theorem State.begun_status (op : SeqOp) (p : Phase) : (State.begun op p s).status = flagsStarted s.status := rfl
@[simp] theorem State.begun_regs (op : SeqOp) (p : Phase) : (State.begun op p s).regs = { s.regs with errCode := none, errParam := 0#32 } := rfl
@[simp] theorem State.begun_ibuf (op : SeqOp) (p : Phase) : (State.begun op p s).ibuf = s.ibuf := rfl
@[simp] theorem State.begun_obuf (op : SeqOp) (p : Phase) : (State.begun op p s).obuf = s.obuf := rfl
@[simp] theorem State.begun_inputs (op : SeqOp) (p : Phase) : (State.begun op p s).inputs = s.inputs := rfl
@[simp] theorem State.begun_reply (op : SeqOp) (p : Phase) : (State.begun op p s).reply = s.reply := rfl

/-! ### `State.illegal` -/

@[simp] theorem State.illegal_crc : (State.illegal s).crc = s.crc := rfl
@[simp] theorem State.illegal_huf : (State.illegal s).huf = s.huf := rfl
@[simp] theorem State.illegal_dsp : (State.illegal s).dsp = s.dsp := rfl
@[simp] theorem State.illegal_seq : (State.illegal s).seq = s.seq := rfl
@[simp] theorem State.illegal_status : (State.illegal s).status = flagsIllegal s.status := rfl
@[simp] theorem State.illegal_regs : (State.illegal s).regs = s.regs := rfl
@[simp] theorem State.illegal_ibuf : (State.illegal s).ibuf = s.ibuf := rfl
@[simp] theorem State.illegal_obuf : (State.illegal s).obuf = s.obuf := rfl
@[simp] theorem State.illegal_inputs : (State.illegal s).inputs = s.inputs := rfl
@[simp] theorem State.illegal_reply : (State.illegal s).reply = s.reply := rfl

/-! ### `State.engaged` -/

@[simp] theorem State.engaged_crc (op : SeqOp) (p : Phase) : (State.engaged op p s).crc = s.crc := rfl
@[simp] theorem State.engaged_huf (op : SeqOp) (p : Phase) : (State.engaged op p s).huf = s.huf := rfl
@[simp] theorem State.engaged_dsp (op : SeqOp) (p : Phase) : (State.engaged op p s).dsp = s.dsp := rfl
@[simp] theorem State.engaged_seq (op : SeqOp) (p : Phase) : (State.engaged op p s).seq = { op := op, phase := p } := rfl
@[simp] theorem State.engaged_status (op : SeqOp) (p : Phase) : (State.engaged op p s).status = flagsStarted s.status := rfl
@[simp] theorem State.engaged_regs (op : SeqOp) (p : Phase) : (State.engaged op p s).regs = { s.regs with errCode := none, errParam := 0#32 } := rfl
@[simp] theorem State.engaged_ibuf (op : SeqOp) (p : Phase) : (State.engaged op p s).ibuf = s.ibuf := rfl
@[simp] theorem State.engaged_obuf (op : SeqOp) (p : Phase) : (State.engaged op p s).obuf = s.obuf := rfl
@[simp] theorem State.engaged_inputs (op : SeqOp) (p : Phase) : (State.engaged op p s).inputs = .engine :: s.inputs := rfl
@[simp] theorem State.engaged_reply (op : SeqOp) (p : Phase) : (State.engaged op p s).reply = s.reply := rfl

/-! ### `State.afterReset` -/

@[simp] theorem State.afterReset_crc : (State.afterReset s).crc = State.reset.crc := rfl
@[simp] theorem State.afterReset_huf : (State.afterReset s).huf = State.reset.huf := rfl
@[simp] theorem State.afterReset_dsp : (State.afterReset s).dsp = State.reset.dsp := rfl
@[simp] theorem State.afterReset_seq : (State.afterReset s).seq = State.reset.seq := rfl
@[simp] theorem State.afterReset_status : (State.afterReset s).status = State.reset.status := rfl
@[simp] theorem State.afterReset_regs : (State.afterReset s).regs = State.reset.regs := rfl
@[simp] theorem State.afterReset_ibuf : (State.afterReset s).ibuf = s.ibuf.spoil Config.CAP := rfl
@[simp] theorem State.afterReset_obuf : (State.afterReset s).obuf = s.obuf.spoil Config.CAP := rfl
@[simp] theorem State.afterReset_inputs : (State.afterReset s).inputs = s.inputs := rfl
@[simp] theorem State.afterReset_reply : (State.afterReset s).reply = s.reply := rfl

/-! ### `State.outputAdvanced` -/

@[simp] theorem State.outputAdvanced_crc : (State.outputAdvanced s).crc = s.crc := rfl
@[simp] theorem State.outputAdvanced_huf : (State.outputAdvanced s).huf = { s.huf with outPos := s.huf.outPos + 1#24 } := rfl
@[simp] theorem State.outputAdvanced_dsp : (State.outputAdvanced s).dsp = s.dsp := rfl
@[simp] theorem State.outputAdvanced_seq : (State.outputAdvanced s).seq = s.seq := rfl
@[simp] theorem State.outputAdvanced_status : (State.outputAdvanced s).status = s.status := rfl
@[simp] theorem State.outputAdvanced_regs : (State.outputAdvanced s).regs = s.regs := rfl
@[simp] theorem State.outputAdvanced_ibuf : (State.outputAdvanced s).ibuf = s.ibuf := rfl
@[simp] theorem State.outputAdvanced_obuf : (State.outputAdvanced s).obuf = s.obuf := rfl
@[simp] theorem State.outputAdvanced_inputs : (State.outputAdvanced s).inputs = s.inputs := rfl
@[simp] theorem State.outputAdvanced_reply : (State.outputAdvanced s).reply = s.reply := rfl

/-! ### `State.copyAdvanced` -/

@[simp] theorem State.copyAdvanced_crc : (State.copyAdvanced s).crc = s.crc := rfl
@[simp] theorem State.copyAdvanced_huf : (State.copyAdvanced s).huf = s.huf := rfl
@[simp] theorem State.copyAdvanced_dsp : (State.copyAdvanced s).dsp = { s.dsp with cpIdx := s.dsp.cpIdx + 1#11 } := rfl
@[simp] theorem State.copyAdvanced_seq : (State.copyAdvanced s).seq = s.seq := rfl
@[simp] theorem State.copyAdvanced_status : (State.copyAdvanced s).status = s.status := rfl
@[simp] theorem State.copyAdvanced_regs : (State.copyAdvanced s).regs = s.regs := rfl
@[simp] theorem State.copyAdvanced_ibuf : (State.copyAdvanced s).ibuf = s.ibuf := rfl
@[simp] theorem State.copyAdvanced_obuf : (State.copyAdvanced s).obuf = s.obuf := rfl
@[simp] theorem State.copyAdvanced_inputs : (State.copyAdvanced s).inputs = s.inputs := rfl
@[simp] theorem State.copyAdvanced_reply : (State.copyAdvanced s).reply = s.reply := rfl

/-! ### `State.headerRead` -/

@[simp] theorem State.headerRead_crc (len crc : Nat) : (State.headerRead len crc s).crc = s.crc := rfl
@[simp] theorem State.headerRead_huf (len crc : Nat) : (State.headerRead len crc s).huf = s.huf := rfl
@[simp] theorem State.headerRead_dsp (len crc : Nat) : (State.headerRead len crc s).dsp = { s.dsp with expLen := BitVec.ofNat 32 len, expCrc := BitVec.ofNat 32 crc, hStart := s.dsp.offset + BitVec.ofNat 11 Config.OFF_HUFF } := rfl
@[simp] theorem State.headerRead_seq (len crc : Nat) : (State.headerRead len crc s).seq = s.seq := rfl
@[simp] theorem State.headerRead_status (len crc : Nat) : (State.headerRead len crc s).status = s.status := rfl
@[simp] theorem State.headerRead_regs (len crc : Nat) : (State.headerRead len crc s).regs = s.regs := rfl
@[simp] theorem State.headerRead_ibuf (len crc : Nat) : (State.headerRead len crc s).ibuf = s.ibuf := rfl
@[simp] theorem State.headerRead_obuf (len crc : Nat) : (State.headerRead len crc s).obuf = s.obuf := rfl
@[simp] theorem State.headerRead_inputs (len crc : Nat) : (State.headerRead len crc s).inputs = s.inputs := rfl
@[simp] theorem State.headerRead_reply (len crc : Nat) : (State.headerRead len crc s).reply = s.reply := rfl

/-! ### `State.headerParsed` -/

@[simp] theorem State.headerParsed_crc (outLen : Nat) (extra : Byte) : (State.headerParsed outLen extra s).crc = s.crc := rfl
@[simp] theorem State.headerParsed_huf (outLen : Nat) (extra : Byte) : (State.headerParsed outLen extra s).huf = { s.huf with outLen := BitVec.ofNat 24 outLen, extra := extra, magIdx := magIdxOf extra } := rfl
@[simp] theorem State.headerParsed_dsp (outLen : Nat) (extra : Byte) : (State.headerParsed outLen extra s).dsp = s.dsp := rfl
@[simp] theorem State.headerParsed_seq (outLen : Nat) (extra : Byte) : (State.headerParsed outLen extra s).seq = s.seq := rfl
@[simp] theorem State.headerParsed_status (outLen : Nat) (extra : Byte) : (State.headerParsed outLen extra s).status = s.status := rfl
@[simp] theorem State.headerParsed_regs (outLen : Nat) (extra : Byte) : (State.headerParsed outLen extra s).regs = s.regs := rfl
@[simp] theorem State.headerParsed_ibuf (outLen : Nat) (extra : Byte) : (State.headerParsed outLen extra s).ibuf = s.ibuf := rfl
@[simp] theorem State.headerParsed_obuf (outLen : Nat) (extra : Byte) : (State.headerParsed outLen extra s).obuf = s.obuf := rfl
@[simp] theorem State.headerParsed_inputs (outLen : Nat) (extra : Byte) : (State.headerParsed outLen extra s).inputs = s.inputs := rfl
@[simp] theorem State.headerParsed_reply (outLen : Nat) (extra : Byte) : (State.headerParsed outLen extra s).reply = s.reply := rfl

/-! ### `State.walkStarted` -/

@[simp] theorem State.walkStarted_crc (root : Byte) : (State.walkStarted root s).crc = s.crc := rfl
@[simp] theorem State.walkStarted_huf (root : Byte) : (State.walkStarted root s).huf = { s.huf with pos := 0#9, entry := root, outPos := 0#24, chunk := s.huf.magIdx.setWidth 32, byte := 3#2, mask := 128#8 } := rfl
@[simp] theorem State.walkStarted_dsp (root : Byte) : (State.walkStarted root s).dsp = s.dsp := rfl
@[simp] theorem State.walkStarted_seq (root : Byte) : (State.walkStarted root s).seq = { s.seq with phase := .hufBit } := rfl
@[simp] theorem State.walkStarted_status (root : Byte) : (State.walkStarted root s).status = s.status := rfl
@[simp] theorem State.walkStarted_regs (root : Byte) : (State.walkStarted root s).regs = s.regs := rfl
@[simp] theorem State.walkStarted_ibuf (root : Byte) : (State.walkStarted root s).ibuf = s.ibuf := rfl
@[simp] theorem State.walkStarted_obuf (root : Byte) : (State.walkStarted root s).obuf = s.obuf := rfl
@[simp] theorem State.walkStarted_inputs (root : Byte) : (State.walkStarted root s).inputs = s.inputs := rfl
@[simp] theorem State.walkStarted_reply (root : Byte) : (State.walkStarted root s).reply = s.reply := rfl

/-! ### `nextProbe` -/

@[simp] theorem nextProbe_crc : (nextProbe s).crc = s.crc := rfl
@[simp] theorem nextProbe_huf : (nextProbe s).huf = s.huf := rfl
@[simp] theorem nextProbe_dsp : (nextProbe s).dsp = { s.dsp with probe := s.dsp.probe + BitVec.ofNat 11 Config.SCAN_STRIDE } := rfl
@[simp] theorem nextProbe_seq : (nextProbe s).seq = s.seq := rfl
@[simp] theorem nextProbe_status : (nextProbe s).status = s.status := rfl
@[simp] theorem nextProbe_regs : (nextProbe s).regs = s.regs := rfl
@[simp] theorem nextProbe_ibuf : (nextProbe s).ibuf = s.ibuf := rfl
@[simp] theorem nextProbe_obuf : (nextProbe s).obuf = s.obuf := rfl
@[simp] theorem nextProbe_inputs : (nextProbe s).inputs = s.inputs := rfl
@[simp] theorem nextProbe_reply : (nextProbe s).reply = s.reply := rfl

/-! ### `handOver` -/

@[simp] theorem handOver_crc : (handOver s).crc = s.crc := rfl
@[simp] theorem handOver_huf : (handOver s).huf = { s.huf with sbase := BitVec.ofNat 32 (s.dsp.fbase.toNat + s.dsp.hStart.toNat), slen := BitVec.ofNat 32 (s.dsp.flen.toNat - s.dsp.hStart.toNat), obase := s.dsp.offset.setWidth 32 } := rfl
@[simp] theorem handOver_dsp : (handOver s).dsp = s.dsp := rfl
@[simp] theorem handOver_seq : (handOver s).seq = { s.seq with phase := .hufInit } := rfl
@[simp] theorem handOver_status : (handOver s).status = s.status := rfl
@[simp] theorem handOver_regs : (handOver s).regs = s.regs := rfl
@[simp] theorem handOver_ibuf : (handOver s).ibuf = s.ibuf := rfl
@[simp] theorem handOver_obuf : (handOver s).obuf = s.obuf := rfl
@[simp] theorem handOver_inputs : (handOver s).inputs = s.inputs := rfl
@[simp] theorem handOver_reply : (handOver s).reply = s.reply := rfl

/-! ### `headerAccepted` -/

@[simp] theorem headerAccepted_crc : (headerAccepted s).crc = s.crc := rfl
@[simp] theorem headerAccepted_huf : (headerAccepted s).huf = s.huf := rfl
@[simp] theorem headerAccepted_dsp : (headerAccepted s).dsp = { s.dsp with cpIdx := 0#11 } := rfl
@[simp] theorem headerAccepted_seq : (headerAccepted s).seq = { s.seq with phase := .copy } := rfl
@[simp] theorem headerAccepted_status : (headerAccepted s).status = s.status := rfl
@[simp] theorem headerAccepted_regs : (headerAccepted s).regs = s.regs := rfl
@[simp] theorem headerAccepted_ibuf : (headerAccepted s).ibuf = s.ibuf := rfl
@[simp] theorem headerAccepted_obuf : (headerAccepted s).obuf = s.obuf := rfl
@[simp] theorem headerAccepted_inputs : (headerAccepted s).inputs = s.inputs := rfl
@[simp] theorem headerAccepted_reply : (headerAccepted s).reply = s.reply := rfl

/-! ### `byteFolded` -/

@[simp] theorem byteFolded_crc : (byteFolded s).crc = { s.crc with idx := s.crc.idx + 1#32 } := rfl
@[simp] theorem byteFolded_huf : (byteFolded s).huf = s.huf := rfl
@[simp] theorem byteFolded_dsp : (byteFolded s).dsp = s.dsp := rfl
@[simp] theorem byteFolded_seq : (byteFolded s).seq = s.seq := rfl
@[simp] theorem byteFolded_status : (byteFolded s).status = s.status := rfl
@[simp] theorem byteFolded_regs : (byteFolded s).regs = s.regs := rfl
@[simp] theorem byteFolded_ibuf : (byteFolded s).ibuf = s.ibuf := rfl
@[simp] theorem byteFolded_obuf : (byteFolded s).obuf = s.obuf := rfl
@[simp] theorem byteFolded_inputs : (byteFolded s).inputs = s.inputs := rfl
@[simp] theorem byteFolded_reply : (byteFolded s).reply = s.reply := rfl

/-! ### `turnTaken` -/

@[simp] theorem turnTaken_crc : (turnTaken s).crc = s.crc := rfl
@[simp] theorem turnTaken_huf : (turnTaken s).huf = s.huf := rfl
@[simp] theorem turnTaken_dsp : (turnTaken s).dsp = s.dsp := rfl
@[simp] theorem turnTaken_seq : (turnTaken s).seq = s.seq := rfl
@[simp] theorem turnTaken_status : (turnTaken s).status = s.status := rfl
@[simp] theorem turnTaken_regs : (turnTaken s).regs = s.regs := rfl
@[simp] theorem turnTaken_ibuf : (turnTaken s).ibuf = s.ibuf := rfl
@[simp] theorem turnTaken_obuf : (turnTaken s).obuf = s.obuf := rfl
@[simp] theorem turnTaken_inputs : (turnTaken s).inputs = s.inputs.tail := rfl
@[simp] theorem turnTaken_reply : (turnTaken s).reply = s.reply := rfl

/-! ### Replacing a memory -/

@[simp] theorem State.withMemory_ibuf_crc (m : Memory) : (s.withMemory .ibuf m).crc = s.crc := rfl
@[simp] theorem State.withMemory_ibuf_huf (m : Memory) : (s.withMemory .ibuf m).huf = s.huf := rfl
@[simp] theorem State.withMemory_ibuf_dsp (m : Memory) : (s.withMemory .ibuf m).dsp = s.dsp := rfl
@[simp] theorem State.withMemory_ibuf_seq (m : Memory) : (s.withMemory .ibuf m).seq = s.seq := rfl
@[simp] theorem State.withMemory_ibuf_status (m : Memory) : (s.withMemory .ibuf m).status = s.status := rfl
@[simp] theorem State.withMemory_ibuf_regs (m : Memory) : (s.withMemory .ibuf m).regs = s.regs := rfl
@[simp] theorem State.withMemory_ibuf_ibuf (m : Memory) : (s.withMemory .ibuf m).ibuf = m := rfl
@[simp] theorem State.withMemory_ibuf_obuf (m : Memory) : (s.withMemory .ibuf m).obuf = s.obuf := rfl
@[simp] theorem State.withMemory_ibuf_inputs (m : Memory) : (s.withMemory .ibuf m).inputs = s.inputs := rfl
@[simp] theorem State.withMemory_ibuf_reply (m : Memory) : (s.withMemory .ibuf m).reply = s.reply := rfl

@[simp] theorem State.withMemory_obuf_crc (m : Memory) : (s.withMemory .obuf m).crc = s.crc := rfl
@[simp] theorem State.withMemory_obuf_huf (m : Memory) : (s.withMemory .obuf m).huf = s.huf := rfl
@[simp] theorem State.withMemory_obuf_dsp (m : Memory) : (s.withMemory .obuf m).dsp = s.dsp := rfl
@[simp] theorem State.withMemory_obuf_seq (m : Memory) : (s.withMemory .obuf m).seq = s.seq := rfl
@[simp] theorem State.withMemory_obuf_status (m : Memory) : (s.withMemory .obuf m).status = s.status := rfl
@[simp] theorem State.withMemory_obuf_regs (m : Memory) : (s.withMemory .obuf m).regs = s.regs := rfl
@[simp] theorem State.withMemory_obuf_ibuf (m : Memory) : (s.withMemory .obuf m).ibuf = s.ibuf := rfl
@[simp] theorem State.withMemory_obuf_obuf (m : Memory) : (s.withMemory .obuf m).obuf = m := rfl
@[simp] theorem State.withMemory_obuf_inputs (m : Memory) : (s.withMemory .obuf m).inputs = s.inputs := rfl
@[simp] theorem State.withMemory_obuf_reply (m : Memory) : (s.withMemory .obuf m).reply = s.reply := rfl

@[simp] theorem State.memory_ibuf : s.memory .ibuf = s.ibuf := rfl
@[simp] theorem State.memory_obuf : s.memory .obuf = s.obuf := rfl

/-! ### The flag updates -/

variable (f : StatusFlags)

@[simp] theorem flagsStarted_busy : (flagsStarted f).busy = true := rfl
@[simp] theorem flagsStarted_done : (flagsStarted f).done = false := rfl
@[simp] theorem flagsStarted_err : (flagsStarted f).err = false := rfl
@[simp] theorem flagsStarted_illCmd : (flagsStarted f).illCmd = f.illCmd := rfl
@[simp] theorem flagsEnded_busy (b : Bool) : (flagsEnded b f).busy = false := rfl
@[simp] theorem flagsEnded_done (b : Bool) : (flagsEnded b f).done = true := rfl
@[simp] theorem flagsEnded_err (b : Bool) : (flagsEnded b f).err = b := rfl
@[simp] theorem flagsEnded_illCmd (b : Bool) : (flagsEnded b f).illCmd = f.illCmd := rfl
@[simp] theorem flagsIllegal_busy : (flagsIllegal f).busy = f.busy := rfl
@[simp] theorem flagsIllegal_done : (flagsIllegal f).done = f.done := rfl
@[simp] theorem flagsIllegal_err : (flagsIllegal f).err = f.err := rfl
@[simp] theorem flagsIllegal_illCmd : (flagsIllegal f).illCmd = true := rfl

end Sys2Proof.Machine
end

