-- ==== Sys2Proof/Laws/Memory.lean ====
section
/-! SUPPORT. The byte memories: reading back, leaving alone, and the canonical form every operation keeps. -/

namespace Sys2Proof.Machine

/-! ### Cells -/

theorem lookupCell_insertCell_same (a : Nat) (b : Byte) (l : List Host.Cell) :
    lookupCell (insertCell a b l) a = some b := by
  induction l with
  | nil => simp [insertCell, lookupCell]
  | cons c rest ih =>
    obtain ⟨k, v⟩ := c
    simp only [insertCell]
    split
    · simp [lookupCell]
    · split
      · simp [lookupCell]
      · have hne : k ≠ a := by omega
        simpa [lookupCell, hne] using ih

theorem lookupCell_insertCell_ne {a a' : Nat} (h : a' ≠ a) (b : Byte) (l : List Host.Cell) :
    lookupCell (insertCell a b l) a' = lookupCell l a' := by
  induction l with
  | nil => simp [insertCell, lookupCell, h.symm]
  | cons c rest ih =>
    obtain ⟨k, v⟩ := c
    simp only [insertCell]
    split
    · simp [lookupCell, h.symm]
    · split
      · next _ hk => subst hk; simp [lookupCell, h.symm]
      · simp [lookupCell, ih]

theorem cellsFrom_mono {lo lo' : Nat} (h : lo ≤ lo') (l : List Host.Cell) (hl : cellsFrom lo' l = true) :
    cellsFrom lo l = true := by
  cases l with
  | nil => rfl
  | cons c rest =>
    simp only [cellsFrom, Bool.and_eq_true, decide_eq_true_eq] at hl ⊢
    exact ⟨⟨by omega, hl.1.2⟩, hl.2⟩

theorem cellsFrom_insertCell {a lo : Nat} (b : Byte) (ha : a < Config.CAP) (l : List Host.Cell) :
    lo ≤ a → cellsFrom lo l = true → cellsFrom lo (insertCell a b l) = true := by
  induction l generalizing lo with
  | nil => intro hlo _; simp [insertCell, cellsFrom, hlo, ha]
  | cons c rest ih =>
    intro hlo hl
    simp only [cellsFrom, Bool.and_eq_true, decide_eq_true_eq] at hl
    simp only [insertCell]
    split
    · simp only [cellsFrom, Bool.and_eq_true, decide_eq_true_eq]
      exact ⟨⟨hlo, ha⟩, ⟨by omega, hl.1.2⟩, hl.2⟩
    · split
      · next _ hk => subst hk; simp [cellsFrom, hlo, ha, hl.2]
      · simp only [cellsFrom, Bool.and_eq_true, decide_eq_true_eq]
        exact ⟨hl.1, ih (by omega) hl.2⟩

theorem cellsFrom_filter (p : Host.Cell → Bool) (l : List Host.Cell) :
    ∀ lo, cellsFrom lo l = true → cellsFrom lo (l.filter p) = true := by
  induction l with
  | nil => intro lo _; rfl
  | cons c rest ih =>
    intro lo hl
    simp only [cellsFrom, Bool.and_eq_true, decide_eq_true_eq] at hl
    by_cases hp : p c = true
    · simp only [List.filter_cons, hp, if_true, cellsFrom, Bool.and_eq_true, decide_eq_true_eq]
      exact ⟨hl.1, ih _ hl.2⟩
    · simp only [List.filter_cons, hp, Bool.false_eq_true, if_false]
      exact cellsFrom_mono (by omega) _ (ih _ hl.2)

theorem lookupCell_filter {n a : Nat} (h : n ≤ a) (l : List Host.Cell) :
    lookupCell (l.filter fun c => decide (n ≤ c.1)) a = lookupCell l a := by
  induction l with
  | nil => rfl
  | cons c rest ih =>
    obtain ⟨k, v⟩ := c
    by_cases hk : n ≤ k
    · simp [hk, lookupCell, ih]
    · have hne : k ≠ a := by omega
      simp [hk, lookupCell, hne, ih]

/-! ### The canonical form is kept -/

theorem Memory.blank_wf : Memory.blank.wf = true := rfl

theorem Memory.put_wf {a : Nat} (b : Byte) {m : Memory} (ha : a < Config.CAP) (h : m.wf = true) :
    (m.put a b).wf = true := cellsFrom_insertCell b ha m.cells (Nat.zero_le a) h

theorem Memory.putAll_wf (bs : List Byte) :
    ∀ {a : Nat} {m : Memory}, bs = [] ∨ a + bs.length ≤ Config.CAP → m.wf = true → (m.putAll a bs).wf = true := by
  induction bs with
  | nil => intro a m _ h; exact h
  | cons b rest ih =>
    intro a m ha h
    have ha' : a + (rest.length + 1) ≤ Config.CAP := by simpa using ha
    exact ih (by right; omega) (Memory.put_wf b (by omega) h)

theorem Memory.spoil_wf (n : Nat) {m : Memory} (h : m.wf = true) : (m.spoil n).wf = true := by
  unfold Memory.spoil
  split
  · exact h
  · exact cellsFrom_filter _ m.cells 0 h

/-! ### What a byte reads as after an update -/

@[simp] theorem byteAt_put_same (buf : Buffer) (m : Memory) (a : Nat) (b : Byte) : byteAt buf (m.put a b) a = b := by
  simp [byteAt, Memory.put, lookupCell_insertCell_same]

theorem byteAt_put_ne (buf : Buffer) (m : Memory) {a a' : Nat} (h : a' ≠ a) (b : Byte) :
    byteAt buf (m.put a b) a' = byteAt buf m a' := by
  simp [byteAt, Memory.put, lookupCell_insertCell_ne h]

theorem byteAt_spoil (buf : Buffer) (m : Memory) {n a : Nat} (h : n ≤ a) : byteAt buf (m.spoil n) a = byteAt buf m a := by
  unfold Memory.spoil
  split
  · rfl
  · have hg : openGeneration (n :: m.opens) a = openGeneration m.opens a := by
      simp [openGeneration, Nat.not_lt.mpr h]
    simp only [byteAt, hg, lookupCell_filter h]

theorem byteAt_putAll_before (buf : Buffer) (bs : List Byte) :
    ∀ {a a' : Nat} (m : Memory), a' < a → byteAt buf (m.putAll a bs) a' = byteAt buf m a' := by
  induction bs with
  | nil => intro a a' m _; rfl
  | cons b rest ih =>
    intro a a' m h
    rw [Memory.putAll, ih (m.put a b) (by omega), byteAt_put_ne buf m (by omega)]

/-! ### Accesses -/

@[simp] theorem access_ok {α : Type} (v : α) (k : α → Out) : access (.ok v) k = k v := rfl
@[simp] theorem access_error {α : Type} (f : Fault) (k : α → Out) : access (.error f) k = .fault f := rfl
@[simp] theorem accessFetch_ok {α : Type} (v : α) (k : α → Fetched) : accessFetch (.ok v) k = k v := rfl
@[simp] theorem accessFetch_error {α : Type} (f : Fault) (k : α → Fetched) :
    accessFetch (.error f) k = .ended (.fault f) := rfl

theorem readByte_inside {buf : Buffer} {a : Nat} {s : State} (h : a < Config.CAP) :
    readByte buf a s = .ok (byteAt buf (s.memory buf) a) := by
  simp [readByte, h]

theorem readByte_outside {buf : Buffer} {a : Nat} {s : State} (h : Config.CAP ≤ a) :
    readByte buf a s = .error (.outsideMemory buf a) := by
  simp [readByte, Nat.not_lt.mpr h]

theorem readByte_ok_iff {buf : Buffer} {a : Nat} {s : State} {b : Byte} :
    readByte buf a s = .ok b ↔ a < Config.CAP ∧ b = byteAt buf (s.memory buf) a := by
  unfold readByte
  split
  · next h => simp [h, eq_comm]
  · next h => simp [h]

/-- Reading a byte depends on nothing but its memory. -/
theorem readByte_congr {buf : Buffer} {a : Nat} {s t : State} (h : s.memory buf = t.memory buf) :
    readByte buf a s = readByte buf a t := by
  simp [readByte, h]

theorem writeByte_ok_iff {buf : Buffer} {a : Nat} {v : Byte} {s t : State} :
    writeByte buf a v s = .ok t ↔ a < Config.CAP ∧ t = s.withMemory buf ((s.memory buf).put a v) := by
  unfold writeByte
  split
  · next h => simp [h, eq_comm]
  · next h => simp [h]

theorem writeByte_inside {buf : Buffer} {a : Nat} {v : Byte} {s : State} (h : a < Config.CAP) :
    writeByte buf a v s = .ok (s.withMemory buf ((s.memory buf).put a v)) := writeByte_ok_iff.mpr ⟨h, rfl⟩

theorem writeBytes_ok_iff {buf : Buffer} {a : Nat} {bs : List Byte} {s t : State} :
    writeBytes buf a bs s = .ok t ↔
      (bs = [] ∨ a + bs.length ≤ Config.CAP) ∧ t = s.withMemory buf ((s.memory buf).putAll a bs) := by
  unfold writeBytes
  split
  · next h => simp [h, eq_comm]
  · next h => simp [h]

/-- A little-endian read inside the memory succeeds, and its value fits its bytes. -/
theorem readLE_inside {buf : Buffer} {s : State} (n : Nat) :
    ∀ {a : Nat}, a + n ≤ Config.CAP → ∃ v, readLE buf a n s = .ok v ∧ v < 256 ^ n := by
  induction n with
  | zero => intro a _; exact ⟨0, rfl, by simp⟩
  | succ n ih =>
    intro a h
    obtain ⟨hi, hhi, hlt⟩ := ih (a := a + 1) (by omega)
    have hb := (byteAt buf (s.memory buf) a).isLt
    refine ⟨(byteAt buf (s.memory buf) a).toNat + 256 * hi, ?_, ?_⟩
    · simp [readLE, readByte_inside (show a < Config.CAP by omega), hhi]
    · rw [Nat.pow_succ]; omega

theorem readLE_congr {buf : Buffer} {s t : State} (h : s.memory buf = t.memory buf) (n : Nat) :
    ∀ a, readLE buf a n s = readLE buf a n t := by
  induction n with
  | zero => intro a; rfl
  | succ n ih => intro a; simp [readLE, readByte_congr h, ih]

end Sys2Proof.Machine
end

