-- ==== Sys2Proof/Laws/Ops.lean ====
section
/-! SUPPORT. For each shared operation, once, everything it can do when it answers a next state. -/

namespace Sys2Proof.Machine

theorem access_next {α : Type} {x : Except Fault α} {k : α → Out} {t : State} (h : access x k = .next t) :
    ∃ v, x = .ok v ∧ k v = .next t := by
  cases x with
  | ok v => exact ⟨v, rfl, h⟩
  | error f => cases h

theorem raise_next {e : Failure} {n : Nat} {s t : State} (h : raise e n s = .next t) : t = s.failed e n := by
  cases h; rfl

/-- A command: never while busy; begun and loaded when the operand fits; else only the sticky flag. -/
theorem command_next {op : SeqOp} {p : Phase} {load : State → State} {s t : State}
    (h : command op p load s = .next t) :
    s.status.busy = false ∧
      ((operandFits s = true ∧ t = load (s.begun op p)) ∨ (operandFits s = false ∧ t = s.illegal)) := by
  unfold command at h
  split at h
  · cases h
  · next hb =>
    refine ⟨by simpa using hb, ?_⟩
    split at h
    · next hf => cases h; exact .inl ⟨hf, rfl⟩
    · next hf => cases h; exact .inr ⟨by simpa using hf, rfl⟩

theorem command_starts {op : SeqOp} {p : Phase} {load : State → State} {s : State}
    (hb : s.status.busy = false) (hf : operandFits s = true) : command op p load s = .next (load (s.begun op p)) := by
  simp [command, hb, hf]

/-! ### The Huffman unit -/

theorem withTree_next {j : Nat} {s t : State} {k : Byte → Out} (h : withTree j s k = .next t) :
    ∃ e, readByte .ibuf (treeAddr s j) s = .ok e ∧ k e = .next t := access_next h

theorem withAdvance_next {off : Nat} {s t : State} {k : Nat → Out} (h : withAdvance off s k = .next t) :
    (s.huf.extra.toNat < advancedPos off s ∧ t = s.failed .treeOverflow 0) ∨
      (advancedPos off s ≤ s.huf.extra.toNat ∧ k (advancedPos off s) = .next t) := by
  unfold withAdvance at h
  split at h
  · next ho => exact .inl ⟨ho, raise_next h⟩
  · next ho => exact .inr ⟨by omega, h⟩

theorem withAdvance_inside {off : Nat} {s : State} {k : Nat → Out} (h : advancedPos off s ≤ s.huf.extra.toNat) :
    withAdvance off s k = k (advancedPos off s) := by
  simp [withAdvance, Nat.not_lt.mpr h]

theorem withAdvance_overflow {off : Nat} {s : State} {k : Nat → Out} (h : s.huf.extra.toNat < advancedPos off s) :
    withAdvance off s k = .next (s.failed .treeOverflow 0) := by
  simp [withAdvance, h, raise]

theorem descend_next {j p : Nat} {s t : State} (h : descend j p s = .next t) :
    ∃ e, readByte .ibuf (treeAddr s j) s = .ok e ∧
      t = { s with huf := { s.huf with entry := e, pos := BitVec.ofNat 9 p } } := by
  obtain ⟨e, he, hk⟩ := withTree_next h
  cases hk; exact ⟨e, he, rfl⟩

theorem restartAtRoot_next {s t : State} (h : restartAtRoot s = .next t) :
    ∃ root, readByte .ibuf (treeAddr s 1) s = .ok root ∧ t = { s with huf := { s.huf with entry := root, pos := 0#9 } } := by
  obtain ⟨e, he, hk⟩ := withTree_next h
  cases hk; exact ⟨e, he, rfl⟩

theorem complete_next {s t : State} (h : complete s = .next t) :
    (remainingBytes s ≠ 4 ∧ t = s.failed .trailingBytes (remainingBytes s - 4)) ∨
      (remainingBytes s = 4 ∧ t = decodeEnded s) := by
  unfold complete at h
  split at h
  · next hr => exact .inl ⟨hr, raise_next h⟩
  · next hr => cases h; exact .inr ⟨by simpa using hr, rfl⟩

/-- The state after the byte `lit` has been written and counted. -/
def emittedState (lit : Byte) (s : State) : State :=
  State.outputAdvanced (s.withMemory .obuf (s.obuf.put (payloadAddr s) lit))

/-- An emission: the byte is written inside the memory and counted; then completion when the payload is full, else the
walk restarts. -/
theorem emit_next {lit : Byte} {s t : State} (h : emit lit s = .next t) :
    payloadAddr s < Config.CAP ∧
      ((payloadFull (emittedState lit s).huf = true ∧ complete (emittedState lit s) = .next t) ∨
        (payloadFull (emittedState lit s).huf = false ∧ restartAtRoot (emittedState lit s) = .next t)) := by
  obtain ⟨s1, hw, hk⟩ := access_next h
  obtain ⟨ha, rfl⟩ := writeByte_ok_iff.mp hw
  refine ⟨ha, ?_⟩
  change (if payloadFull (emittedState lit s).huf = true then complete (emittedState lit s)
    else restartAtRoot (emittedState lit s)) = .next t at hk
  split at hk
  · next hf => exact .inl ⟨hf, hk⟩
  · next hf => exact .inr ⟨by simpa using hf, hk⟩

theorem emit_inside {lit : Byte} {s : State} (h : payloadAddr s < Config.CAP) :
    emit lit s =
      if payloadFull (emittedState lit s).huf then complete (emittedState lit s)
      else restartAtRoot (emittedState lit s) := by
  simp only [emit, writeByte_inside h, access_ok]; rfl

theorem descendToLeaf_next {j : Nat} {s t : State} (h : descendToLeaf j s = .next t) :
    ∃ lit, readByte .ibuf (treeAddr s j) s = .ok lit ∧ emit lit s = .next t := withTree_next h

/-- The parse of a descriptor: check 3 fails, or the walk starts; `out_length` = 0 has no next state. -/
theorem parseDescriptor_next {s t : State} (h : parseDescriptor s = .next t) :
    ∃ outLen extra, readLE .ibuf (sourceAddr s 1) 3 s = .ok outLen ∧ readByte .ibuf (sourceAddr s 4) s = .ok extra ∧
      ((s.huf.slen.toNat ≤ (magIdxOf extra).toNat ∧
          t = (s.headerParsed outLen extra).failed .unsupportedFormat 0) ∨
        ((magIdxOf extra).toNat < s.huf.slen.toNat ∧ BitVec.ofNat 24 outLen ≠ 0#24 ∧
          ∃ root, readByte .ibuf (treeAddr s 1) s = .ok root ∧
            t = (s.headerParsed outLen extra).walkStarted root)) := by
  obtain ⟨outLen, ho, h⟩ := access_next h
  obtain ⟨extra, he, h⟩ := access_next h
  refine ⟨outLen, extra, ho, he, ?_⟩
  by_cases hl : s.huf.slen.toNat ≤ (magIdxOf extra).toNat
  · exact .inl ⟨hl, raise_next ((if_pos hl).symm.trans h)⟩
  · replace h := (if_neg hl).symm.trans h
    by_cases hz : BitVec.ofNat 24 outLen = 0#24
    · cases (if_pos hz).symm.trans h
    · obtain ⟨root, hr, hk⟩ := withTree_next ((if_neg hz).symm.trans h)
      cases hk
      exact .inr ⟨by omega, hz, root, hr, rfl⟩

/-! ### The Container unit -/

theorem copyStep_next {s t : State} (h : copyStep s = .next t) :
    (s.dsp.cpIdx.toNat < s.dsp.offset.toNat ∧ preambleAddr s < Config.CAP ∧
        ∃ b, readByte .ibuf (fileAddr s s.dsp.cpIdx.toNat) s = .ok b ∧
          t = State.copyAdvanced (s.withMemory .obuf (s.obuf.put (preambleAddr s) b))) ∨
      (s.dsp.offset.toNat ≤ s.dsp.cpIdx.toNat ∧ t = handOver s) := by
  unfold copyStep at h
  split at h
  · next hc =>
    obtain ⟨b, hb, h⟩ := access_next h
    obtain ⟨s1, hw, h⟩ := access_next h
    obtain ⟨ha, rfl⟩ := writeByte_ok_iff.mp hw
    cases h
    exact .inl ⟨hc, ha, b, hb, rfl⟩
  · next hc => cases h; exact .inr ⟨by omega, rfl⟩

theorem lenChkStep_next {s t : State} (h : lenChkStep s = .next t) :
    (s.huf.outLen.setWidth 32 ≠ s.dsp.expLen ∧ t = s.failed .lengthMismatch 0) ∨
      (s.huf.outLen.setWidth 32 = s.dsp.expLen ∧
        t = { s with
              crc := { s.crc with
                reg := Config.SEED, sel := .ibuf, base := s.dsp.fbase, len := s.dsp.offset.setWidth 32, idx := 0#32 }
              seq := { s.seq with phase := .crcA } }) := by
  unfold lenChkStep at h
  split at h
  · next hl => exact .inl ⟨hl, raise_next h⟩
  · next hl => cases h; exact .inr ⟨by simpa using hl, rfl⟩

theorem crcChkStep_next {s t : State} (h : crcChkStep s = .next t) :
    (~~~s.crc.reg ≠ s.dsp.expCrc ∧ t = s.failed .checksumMismatch 0) ∨
      (~~~s.crc.reg = s.dsp.expCrc ∧
        t = State.finish
          { s with regs := { s.regs with resultLen := s.dsp.offset.setWidth 32 + s.huf.outLen.setWidth 32 } }) := by
  unfold crcChkStep at h
  split at h
  · next hl => exact .inl ⟨hl, raise_next h⟩
  · next hl => cases h; exact .inr ⟨by simpa using hl, rfl⟩

end Sys2Proof.Machine
end

