-- ==== Sys2Proof/Laws/PerInstr.lean ====
section
/-! SUPPORT. What is said of every instruction, one lemma per constructor. -/

namespace Sys2Proof.Laws.MatchesTableRow

/-- The value a well-formed instruction is selected by matches its row of the opcode table (30_encoding.md R85). -/
def Statement (i : Instr) : Prop := WellFormed i = true → (tableRow i).selects (encode i) = true

/-- A walk value with its offset field below 64 has the pattern its stream bit and tags give. -/
theorem walkValue_selects (r : TableRow) (b l t : Bool) (hr : r.format = .walk)
    (h : ∀ off, off < 64 → (walkValue b l t off).toNat &&& r.mask = r.pattern) {off : Nat}
    (ho : offsetFits off = true) : r.selects (.walk (walkValue b l t off)) = true := by
  simp only [TableRow.selects, selectorFormat, selectorValue, hr, decide_true, Bool.true_and]
  exact decide_eq_true (h off (of_decide_eq_true ho))

theorem crc32 (src : Buffer) : Statement (.crc32 src) := fun _ => by cases src <;> decide
theorem hdec : Statement .hdec := fun _ => by decide
theorem decomp : Statement .decomp := fun _ => by decide
theorem crcShift : Statement .crcShift := fun _ => by decide
theorem crcShiftXor : Statement .crcShiftXor := fun _ => by decide
theorem crcByte (b : Byte) : Statement (.crcByte b) := fun _ => by
  simp [TableRow.selects, tableRow, encode, selectorFormat, selectorValue]
theorem walkLNode (other : Bool) (off : Nat) : Statement (.walkLNode other off) := fun h =>
  walkValue_selects ⟨.walk, 9, 0x000, 0x180⟩ false false other rfl (by cases other <;> decide) h
theorem walkLLeaf (other : Bool) (off : Nat) : Statement (.walkLLeaf other off) := fun h =>
  walkValue_selects ⟨.walk, 9, 0x080, 0x180⟩ false true other rfl (by cases other <;> decide) h
theorem walkRNode (other : Bool) (off : Nat) : Statement (.walkRNode other off) := fun h =>
  walkValue_selects ⟨.walk, 9, 0x100, 0x140⟩ true other false rfl (by cases other <;> decide) h
theorem walkRLeaf (other : Bool) (off : Nat) : Statement (.walkRLeaf other off) := fun h =>
  walkValue_selects ⟨.walk, 9, 0x140, 0x140⟩ true other true rfl (by cases other <;> decide) h
theorem sectMark : Statement .sectMark := fun _ => by decide
theorem descHuff8 : Statement .descHuff8 := fun _ => by decide

end Sys2Proof.Laws.MatchesTableRow
end

