-- ==== Sys2Proof/Laws/Step.lean ====
section
/-! SUPPORT. What a step can do, said once: whose move it is, and what each engine phase starts with. -/

namespace Sys2Proof.Machine

@[simp] theorem runFetched_ended (o : Out) : runFetched (.ended o) = o := rfl

/-- A selected instruction runs, and the step settles what it leaves. -/
theorem runFetched_selected {sel : Selector} {s : State} {i : Instr} (h : decode sel = .ok i) :
    runFetched (.selected sel s) = settleOut sel (exec i s) := by
  simp only [runFetched, h]

/-- A value that selects nothing has the step of its format. -/
theorem runFetched_unselected {sel : Selector} {s : State} {r : Reject} (h : decode sel = .error r) :
    runFetched (.selected sel s) = unselected sel s := by
  simp only [runFetched, h]

theorem settleOut_next {sel : Selector} {o : Out} {t : State} (h : settleOut sel o = .next t) :
    ∃ u, o = .next u ∧ t = settle sel u := by
  cases o with
  | next u => cases h; exact ⟨u, rfl, rfl⟩
  | fault f => cases h
  | refused r => cases h

/-- On the engine's turn a step is the engine's. -/
theorem step_engineTurn {s : State} (h : engineTurn s = true) : step s = runFetched (fetchEngine (turnTaken s)) := by
  have hs : ∀ l, s.inputs = l → ({ s with inputs := l } : State) = s := by rintro l rfl; rfl
  unfold engineTurn at h
  unfold step fetch turnTaken
  split at h
  · next hi => rw [hi]; simp only [List.tail_nil, hs [] hi]
  · next rest hi => rw [hi]; rfl
  · cases h
  · cases h

theorem step_host {s : State} {a : HostAction} {rest : List Input} (h : s.inputs = .host a :: rest) :
    step s = runFetched (fetchHost a { s with inputs := rest }) := by
  simp only [step, fetch, h]

theorem step_reset {s : State} {rest : List Input} (h : s.inputs = .reset :: rest) :
    step s = .next (State.afterReset { s with inputs := rest }) := by
  simp only [step, fetch, h, runFetched_ended]

/-- Every step is the reset input's, the host's or the engine's. -/
theorem step_cases (s : State) :
    (∃ rest, s.inputs = .reset :: rest ∧ step s = .next (State.afterReset { s with inputs := rest })) ∨
      (∃ a rest, s.inputs = .host a :: rest ∧ step s = runFetched (fetchHost a { s with inputs := rest })) ∨
      (engineTurn s = true ∧ step s = runFetched (fetchEngine (turnTaken s))) := by
  cases hi : s.inputs with
  | nil =>
    have ht : engineTurn s = true := by simp [engineTurn, hi]
    exact .inr (.inr ⟨ht, step_engineTurn ht⟩)
  | cons i rest =>
    cases i with
    | engine =>
      have ht : engineTurn s = true := by simp [engineTurn, hi]
      exact .inr (.inr ⟨ht, step_engineTurn ht⟩)
    | host a => exact .inr (.inl ⟨a, rest, rfl, step_host hi⟩)
    | reset => exact .inl ⟨rest, rfl, step_reset hi⟩

/-- The host's move, when it answers a next state. -/
theorem fetchHost_next {a : HostAction} {s t : State} (h : runFetched (fetchHost a s) = .next t) :
    hostMay a s = true ∧
      ((∃ n, a = .readReg n ∧ t = { s with reply := .reg (readHostReg n s) }) ∨
        (∃ v, a = .writeReg 0 v ∧ runFetched (.selected (.cmd (BitVec.ofNat 32 v)) s) = .next t) ∨
        (∃ n v, a = .writeReg n v ∧ n ≠ 0 ∧ t = writeHostReg n v s) ∨
        (∃ buf b n bs, a = .readMem buf b n ∧ readBytes buf b n s = .ok bs ∧ t = { s with reply := .bytes bs }) ∨
        (∃ buf b bs, a = .writeMem buf b bs ∧ writeBytes buf b bs s = .ok t)) := by
  unfold fetchHost at h
  split at h
  · next hm =>
    refine ⟨hm, ?_⟩
    cases a with
    | readReg n => cases h; exact .inl ⟨n, rfl, rfl⟩
    | writeReg n v =>
      by_cases hn : n = 0
      · subst hn; exact .inr (.inl ⟨v, rfl, by simpa using h⟩)
      · simp only [if_neg hn, runFetched_ended] at h
        cases h; exact .inr (.inr (.inl ⟨n, v, rfl, hn, rfl⟩))
    | readMem buf b n =>
      cases hr : readBytes buf b n s with
      | ok bs =>
        simp only [hr, accessFetch_ok, runFetched_ended] at h
        cases h; exact .inr (.inr (.inr (.inl ⟨buf, b, n, bs, rfl, hr, rfl⟩)))
      | error f => simp [hr] at h
    | writeMem buf b bs =>
      cases hw : writeBytes buf b bs s with
      | ok u =>
        simp only [hw, accessFetch_ok, runFetched_ended] at h
        cases h; exact .inr (.inr (.inr (.inr ⟨buf, b, bs, rfl, hw⟩)))
      | error f => simp [hw] at h
  · cases h

/-- An access of an engine step, when the step answers a next state. -/
theorem accessFetch_next {α : Type} {x : Except Fault α} {k : α → Fetched} {t : State}
    (h : runFetched (accessFetch x k) = .next t) : ∃ v, x = .ok v ∧ runFetched (k v) = .next t := by
  cases x with
  | ok v => exact ⟨v, rfl, h⟩
  | error f => cases h

/-- A `SCAN` step, when it answers a next state. -/
theorem fetchScan_next {s t : State} (h : runFetched (fetchScan s) = .next t) :
    (scanExhausted s = true ∧ t = s.failed .sectorNotFound 0) ∨
      (scanExhausted s = false ∧ ∃ w, readLE .ibuf (fileAddr s s.dsp.probe.toNat) 4 s = .ok w ∧
        ((BitVec.ofNat 32 w = Config.MARKER ∧ exec .sectMark s = .next t) ∨
          (BitVec.ofNat 32 w ≠ Config.MARKER ∧ t = nextProbe s))) := by
  unfold fetchScan at h
  split at h
  · next he => exact .inl ⟨he, raise_next h⟩
  · next he =>
    refine .inr ⟨by simpa using he, ?_⟩
    obtain ⟨w, hw, h⟩ := accessFetch_next h
    refine ⟨w, hw, ?_⟩
    by_cases hm : BitVec.ofNat 32 w = Config.MARKER
    · rw [runFetched_selected (i := .sectMark) (by simp [decode, hm])] at h
      obtain ⟨u, hu, rfl⟩ := settleOut_next h
      exact .inl ⟨hm, hu⟩
    · rw [runFetched_unselected (r := .notMarker (BitVec.ofNat 32 w)) (by simp [decode, hm])] at h
      cases h; exact .inr ⟨hm, rfl⟩

/-- A step that checks a discriminator, when it answers a next state. -/
theorem runDesc_next {d : Byte} {s t : State} (h : runFetched (.selected (.desc d) s) = .next t) :
    (d = Config.DISCR ∧ exec .descHuff8 s = .next t) ∨ (d ≠ Config.DISCR ∧ t = s.failed .unsupportedFormat 0) := by
  by_cases hd : d = Config.DISCR
  · rw [runFetched_selected (i := .descHuff8) (by simp [decode, hd])] at h
    obtain ⟨u, hu, rfl⟩ := settleOut_next h
    exact .inl ⟨hd, hu⟩
  · rw [runFetched_unselected (r := .notHuff8 d) (by simp [decode, hd])] at h
    exact .inr ⟨hd, raise_next h⟩

/-- A `HDR` step, when it answers a next state. -/
theorem fetchHdr_next {s t : State} (h : runFetched (fetchHdr s) = .next t) :
    (headerTooShort s = true ∧ t = s.failed .bufferTooSmall 0) ∨
      (headerTooShort s = false ∧ ∃ len crc d,
        readLE .ibuf (fileAddr s (s.dsp.offset.toNat + Config.OFF_LENGTH)) 4 s = .ok len ∧
        readLE .ibuf (fileAddr s (s.dsp.offset.toNat + Config.OFF_CRC)) 4 s = .ok crc ∧
        readByte .ibuf (fileAddr (s.headerRead len crc) (s.headerRead len crc).dsp.hStart.toNat)
          (s.headerRead len crc) = .ok d ∧
        ((d = Config.DISCR ∧ exec .descHuff8 (s.headerRead len crc) = .next t) ∨
          (d ≠ Config.DISCR ∧ t = (s.headerRead len crc).failed .unsupportedFormat 0))) := by
  unfold fetchHdr at h
  split at h
  · next he => exact .inl ⟨he, raise_next h⟩
  · next he =>
    obtain ⟨len, hl, h⟩ := accessFetch_next h
    obtain ⟨crc, hc, h⟩ := accessFetch_next h
    obtain ⟨d, hd, h⟩ := accessFetch_next h
    exact .inr ⟨by simpa using he, len, crc, d, hl, hc, hd, runDesc_next h⟩

/-- A `HUF_INIT` step, when it answers a next state. -/
theorem fetchHufInit_next {s t : State} (h : runFetched (fetchHufInit s) = .next t) :
    (s.huf.slen.toNat ≤ 6 ∧ t = s.failed .bufferTooSmall 0) ∨
      (6 < s.huf.slen.toNat ∧ ∃ d, readByte .ibuf (sourceAddr s 0) s = .ok d ∧
        ((d = Config.DISCR ∧ exec .descHuff8 s = .next t) ∨
          (d ≠ Config.DISCR ∧ t = s.failed .unsupportedFormat 0))) := by
  unfold fetchHufInit at h
  split at h
  · next he => exact .inl ⟨he, raise_next h⟩
  · next he =>
    obtain ⟨d, hd, h⟩ := accessFetch_next h
    exact .inr ⟨by omega, d, hd, runDesc_next h⟩

/-- A `HUF_BIT` step, when it answers a next state: one walk instruction, then the cursor. -/
theorem fetchHufBit_next {s t : State} (h : runFetched (fetchHufBit s) = .next t) :
    (s.huf.slen.toNat < s.huf.chunk.toNat + 4 ∧
        t = s.failed .truncatedInput (s.huf.outLen.toNat - s.huf.outPos.toNat)) ∨
      (s.huf.chunk.toNat + 4 ≤ s.huf.slen.toNat ∧ ∃ v u, readByte .ibuf (streamAddr s) s = .ok v ∧
        exec (decodeWalk (walkSelector (streamBit v s.huf.mask) s.huf.entry)) s = .next u ∧
        t = (if u.seq.phase = .hufBit then { u with huf := advanceCursor u.huf } else u)) := by
  unfold fetchHufBit at h
  split at h
  · next he => exact .inl ⟨he, raise_next h⟩
  · next he =>
    obtain ⟨v, hv, h⟩ := accessFetch_next h
    rw [runFetched_selected (i := decodeWalk (walkSelector (streamBit v s.huf.mask) s.huf.entry)) rfl] at h
    obtain ⟨u, hu, rfl⟩ := settleOut_next h
    exact .inr ⟨by omega, v, u, hv, hu, rfl⟩

/-- A `CRC_A` or `CRC_B` step, when it answers a next state. -/
theorem fetchFold_next {s t : State} (h : runFetched (fetchFold s) = .next t) :
    (s.crc.iter ≠ 0 ∧ t = bitStepped { s with crc := { s.crc with w := crcBitStep s.crc.w } }) ∨
      (s.crc.iter = 0 ∧ s.crc.idx.toNat < s.crc.len.toNat ∧ ∃ b u, readByte s.crc.sel (dataAddr s) s = .ok b ∧
        exec (.crcByte b) s = .next u ∧ t = byteFolded u) ∨
      (s.crc.iter = 0 ∧ s.crc.len.toNat ≤ s.crc.idx.toNat ∧ t = foldEnded s) := by
  unfold fetchFold at h
  split at h
  · next hi =>
    refine .inl ⟨hi, ?_⟩
    rw [runFetched_selected (i := decodeCrcw (s.crc.w.extractLsb' 0 1)) rfl] at h
    obtain ⟨u, hu, rfl⟩ := settleOut_next h
    have hw : (s.crc.w.extractLsb' 0 1 = 1#1) ↔ s.crc.w.getLsbD 0 = true := by
      constructor
      · intro h1
        have := congrArg (fun x => x.getLsbD 0) h1
        simpa using this
      · intro h1
        apply BitVec.eq_of_getLsbD_eq
        intro i hi
        have h0 : i = 0 := by omega
        subst h0; simpa using h1
    by_cases hb : s.crc.w.getLsbD 0 = true
    · have hd : decodeCrcw (s.crc.w.extractLsb' 0 1) = .crcShiftXor := by simp only [decodeCrcw, hw.mpr hb, if_true]
      rw [hd] at hu; cases hu
      simp only [settle, crcBitStep, hb, if_true]
    · have hd : decodeCrcw (s.crc.w.extractLsb' 0 1) = .crcShift := by
        simp only [decodeCrcw, mt hw.mp hb, if_false]
      rw [hd] at hu; cases hu
      simp only [settle, crcBitStep, if_neg hb]
  · next hi =>
    have hi' : s.crc.iter = 0 := by omega
    split at h
    · next hl =>
      obtain ⟨b, hb, h⟩ := accessFetch_next h
      rw [runFetched_selected (i := .crcByte b) rfl] at h
      obtain ⟨u, hu, rfl⟩ := settleOut_next h
      exact .inr (.inl ⟨hi', hl, b, u, hb, hu, rfl⟩)
    · next hl => cases h; exact .inr (.inr ⟨hi', by omega, rfl⟩)

/-- The four walk instructions at once: overflow, or a node becomes the current entry, or a leaf is emitted. -/
theorem execWalk_next {v : BitVec 9} {s t : State} (h : exec (decodeWalk v) s = .next t) :
    ∃ j, (j = 2 * advancedPos (v.extractLsb' 0 6).toNat s ∨ j = 2 * advancedPos (v.extractLsb' 0 6).toNat s + 1) ∧
      ((s.huf.extra.toNat < advancedPos (v.extractLsb' 0 6).toNat s ∧ t = s.failed .treeOverflow 0) ∨
        (advancedPos (v.extractLsb' 0 6).toNat s ≤ s.huf.extra.toNat ∧
          (descend j (advancedPos (v.extractLsb' 0 6).toNat s) s = .next t ∨ descendToLeaf j s = .next t))) := by
  unfold decodeWalk at h
  cases h8 : v.getLsbD 8 <;> cases h7 : v.getLsbD 7 <;> cases h6 : v.getLsbD 6 <;>
    simp only [h8, h7, h6, exec, execWalkLNode, execWalkLLeaf, execWalkRNode, execWalkRLeaf] at h <;>
    rcases withAdvance_next h with ⟨ho, ht⟩ | ⟨hi, hk⟩
  all_goals first
    | exact ⟨_, .inl rfl, .inl ⟨ho, ht⟩⟩
    | exact ⟨_, .inl rfl, .inr ⟨hi, .inl hk⟩⟩
    | exact ⟨_, .inl rfl, .inr ⟨hi, .inr hk⟩⟩
    | exact ⟨_, .inr rfl, .inr ⟨hi, .inl hk⟩⟩
    | exact ⟨_, .inr rfl, .inr ⟨hi, .inr hk⟩⟩

end Sys2Proof.Machine
end

