-- ==== Sys2Proof/Tests/Slice0.lean ====
section
/-! SUPPORT. Tests. Expected values are those of the spec: the examples of the rules, 30_encoding.md for the words, and
the vectors of 95_test_vectors.md (named where used). A `witness_` theorem shows a concrete state and operands that meet
the hypotheses of the obligation of that name, one for each of its clauses. -/

open Sys2Proof Sys2Proof.Machine

namespace Sys2Proof.Tests

/-! ### Small states -/

/-- The next state of an outcome, if it is one. -/
def nextState : Out → Option State
  | .next s => some s
  | .fault _ => none
  | .refused _ => none

/-- The name of the refusal of an outcome, if it is one. -/
def refusal : Out → Option Refusal
  | .next _ => none
  | .fault _ => none
  | .refused r => some r

/-- The fault of an outcome, if it is one. -/
def faultOf : Out → Option Fault
  | .next _ => none
  | .fault f => some f
  | .refused _ => none

/-- The instruction of a decode, if there is one. -/
def decoded (sel : Selector) : Option Instr := (decode sel).toOption

/-- The selecting value a step starts with, if there is one. -/
def fetchedSelector : Fetched → Option Selector
  | .selected sel _ => some sel
  | .ended _ => none

/-- Bytes from address 0. -/
def loaded (bs : List Byte) : Memory := Memory.blank.putAll 0 bs

/-- After reset, with the bytes in `IBUF` from address 0, and the operand registers naming them. -/
def withOperand (bs : List Byte) : State :=
  { State.reset with
    ibuf := loaded bs, regs := { State.reset.regs with argLen := BitVec.ofNat 32 bs.length } }

/-- In the middle of an operation, the bytes in `IBUF` from address 0. -/
def running (op : SeqOp) (p : Phase) (bs : List Byte) : State := (withOperand bs).begun op p

/-- The host moves next. -/
def hostTurn (a : HostAction) (s : State) : State := { s with inputs := [.host a] }

/-- H3 of 95_test_vectors.md. -/
def h3 : List Byte :=
  [0x28#8, 5#8, 0#8, 0#8, 2#8, 0x80#8, 0x61#8, 0xC0#8, 0x62#8, 0x63#8, 0#8, 0#8, 0#8, 0x5A#8]

/-- H8 of 95_test_vectors.md. -/
def h8 : List Byte := [0x28#8, 1#8, 0#8, 0#8, 1#8, 0xC0#8, 0x41#8, 0x42#8, 0#8, 0#8, 0#8, 0x80#8]

/-- The sector header of F1 of 95_test_vectors.md, with the byte that follows it. -/
def f1Header (discr : Byte) : List Byte :=
  [0x50#8, 0x4D#8, 0x4F#8, 0x43#8, 0#8, 0#8, 0#8, 0#8, 4#8, 0#8, 0#8, 0#8, 0x6B#8, 0xE5#8, 0x66#8, 0xB2#8, discr]

/-- The walk of H3: the header registers of its descriptor, `pos` and `entry` and the payload so far as given, the
cursor at bit `mask` of byte 3 of its only chunk. -/
def walkH3 (op : SeqOp) (pos : BitVec 9) (entry : BitVec 8) (outPos outLen : BitVec 24) (mask : BitVec 8) : State :=
  let s := running op .hufBit h3
  { s with huf := { s.huf with
      outLen := outLen, extra := 2#8, magIdx := 10#10, pos := pos, entry := entry, outPos := outPos
      sbase := 0#32, slen := 14#32, obase := 0#32, chunk := 10#32, byte := 3#2, mask := mask } }

/-- The walk of H3 after its last whole chunk. -/
def walkH3Exhausted : State :=
  let s := walkH3 .hdec 1#9 0xC0#8 4#24 5#24 128#8
  { s with huf := { s.huf with chunk := 14#32 } }

/-- A scan of a file of 1028 bytes or fewer at a probe. -/
def scanning (probe : BitVec 11) (flen : Word) (bs : List Byte) : State :=
  let s := running .decomp .scan bs
  { s with dsp := { s.dsp with probe := probe, flen := flen } }

/-- A header step at offset 0. -/
def headering (flen : Word) (bs : List Byte) : State :=
  let s := running .decomp .hdr bs
  { s with dsp := { s.dsp with flen := flen } }

/-- A preamble copy with the marker at offset 64. -/
def copying (cpIdx : BitVec 11) : State :=
  let s := running .decomp .copy []
  { s with dsp := { s.dsp with offset := 64#11, hStart := 80#11, flen := 81#32, cpIdx := cpIdx } }

/-- A fold in phase `p` of operation `op`, `idx` of 2 bytes folded. -/
def folding (op : SeqOp) (p : Phase) (idx : Word) : State :=
  let s := running op p [0x31#8, 0x32#8]
  { s with crc := { s.crc with len := 2#32, idx := idx } }

/-- A `HUF_INIT` step of a source. -/
def parsing (bs : List Byte) : State :=
  let s := running .hdec .hufInit bs
  { s with huf := { s.huf with slen := BitVec.ofNat 32 bs.length } }

/-! ### WellFormed -/

theorem test_wellFormed_refuses_walkLNode : WellFormed (.walkLNode false 64) = false := by decide
theorem test_wellFormed_refuses_walkLLeaf : WellFormed (.walkLLeaf false 64) = false := by decide
theorem test_wellFormed_refuses_walkRNode : WellFormed (.walkRNode false 64) = false := by decide
theorem test_wellFormed_refuses_walkRLeaf : WellFormed (.walkRLeaf false 64) = false := by decide
theorem test_wellFormed_admits_63 : WellFormed (.walkRLeaf true 63) = true := by decide

/-! ### Decoding: words written out from 30_encoding.md R77, R83, R84, R85 -/

theorem test_decode_crc32_ibuf : decoded (.cmd 0b00000000000000000000000000000001#32) = some (.crc32 .ibuf) := by decide
theorem test_decode_crc32_obuf : decoded (.cmd 0b00000000000000000000000000000101#32) = some (.crc32 .obuf) := by decide
theorem test_decode_hdec : decoded (.cmd 0b00000000000000000000000000000010#32) = some .hdec := by decide
theorem test_decode_decomp : decoded (.cmd 0b00000000000000000000000000000011#32) = some .decomp := by decide
theorem test_decode_crcShift : decoded (.crcw 0b0#1) = some .crcShift := by decide
theorem test_decode_crcShiftXor : decoded (.crcw 0b1#1) = some .crcShiftXor := by decide
theorem test_decode_crcByte : decoded (.data 0b00101000#8) = some (.crcByte 0x28#8) := by decide
theorem test_decode_walkLNode : decoded (.walk 0b0_0_1_000101#9) = some (.walkLNode true 5) := by decide
theorem test_decode_walkLLeaf : decoded (.walk 0b0_1_0_111111#9) = some (.walkLLeaf false 63) := by decide
theorem test_decode_walkRNode : decoded (.walk 0b1_1_0_000000#9) = some (.walkRNode true 0) := by decide
theorem test_decode_walkRLeaf : decoded (.walk 0b1_0_1_100000#9) = some (.walkRLeaf false 32) := by decide
theorem test_decode_sectMark : decoded (.sect 0b01000011_01001111_01001101_01010000#32) = some .sectMark := by decide
theorem test_decode_descHuff8 : decoded (.desc 0b00101000#8) = some .descHuff8 := by decide

/-- R86: `OP` = 00, `SEL` = 1 with `HDEC` and with `DECOMP`, a reserved bit. -/
theorem test_decode_illegal_commands :
    [0x0#32, 0x4#32, 0x6#32, 0x7#32, 0x9#32, 0x80000001#32].all (fun v => (decoded (.cmd v)).isNone) = true := by decide

/-- R87: a byte swapped marker, and mode 0x24 (F10 and F22 of 95_test_vectors.md). -/
theorem test_decode_unselected : decoded (.sect 0x504D4F43#32) = none ∧ decoded (.desc 0x24#8) = none := by decide

/-- One word of each row of the opcode table, at its width in whole bytes. -/
def tableWords : List (Nat × Nat × Instr) :=
  [(32, 0x1, .crc32 .ibuf), (32, 0x5, .crc32 .obuf), (32, 0x2, .hdec), (32, 0x3, .decomp), (8, 0x0, .crcShift),
    (8, 0x1, .crcShiftXor), (8, 0x61, .crcByte 0x61#8), (16, 0x042, .walkLNode true 2), (16, 0x0BF, .walkLLeaf false 63),
    (16, 0x181, .walkRNode true 1), (16, 0x140, .walkRLeaf false 0), (32, 0x434F4D50, .sectMark), (8, 0x28, .descHuff8)]

theorem test_decodeTableWord : tableWords.all (fun w => decide (decodeTableWord w.1 w.2.1 = some w.2.2)) = true := by
  decide

theorem test_withFetchWord_places :
    tableWords.all (fun w =>
      ((fetchedSelector (fetch (State.reset.withFetchWord w.1 w.2.1))).bind decoded) == some w.2.2) = true := by decide

theorem test_withFetchWord_runs :
    tableWords.all (fun w => (nextState (step (State.reset.withFetchWord w.1 w.2.1))).isSome) = true := by decide

/-! ### One instruction each (examples of the rules, 95_test_vectors.md sections 2 to 5) -/

theorem test_crcShift_msb_clears :
    (nextState (exec .crcShift { State.reset with crc := { State.reset.crc with w := 0x80000000#32 } })).map (·.crc.w)
      = some 0x40000000#32 := by decide

theorem test_crcShiftXor_shift_first :
    (nextState (exec .crcShiftXor { State.reset with crc := { State.reset.crc with w := 0xFFFFFFFF#32 } })).map (·.crc.w)
      = some 0x92477CDF#32 := by decide

theorem test_crcByte_letter_a : (nextState (exec (.crcByte 0x61#8) State.reset)).map (·.crc.reg) = some 0x174841BC#32 := by
  decide

theorem test_crcByte_table_entries :
    crcByteFn 0#32 0x01#8 = 0x77073096#32 ∧ crcByteFn 0#32 0xFF#8 = 0x2D02EF8D#32 ∧
      crcByteFn 0x12345678#32 0x00#8 = 0x5ECCCD58#32 := by decide

/-- V9 and the chain of 95_test_vectors.md section 2. -/
theorem test_crc32Fn_check_value :
    crc32Fn 0xFFFFFFFF#32 [0x31#8, 0x32#8, 0x33#8, 0x34#8] = 0x641C1F5C#32 ∧
      crc32Fn 0x641C1F5C#32 [0x35#8, 0x36#8, 0x37#8, 0x38#8, 0x39#8] = 0x340BC6D9#32 := by decide

/-- R131: tree 03 00 C0 C1 77 78 79 7A, at the root, bit 0. -/
theorem test_walkLNode_descends :
    let s := running .hdec .hufBit [0x28#8, 4#8, 0#8, 0#8, 3#8, 0#8, 0xC0#8, 0xC1#8]
    ((nextState (exec (.walkLNode false 0) { s with huf := { s.huf with extra := 3#8 } })).map
      fun t => (t.huf.entry, t.huf.pos)) = some (0xC0#8, 1#9) := by decide

/-- Step 2 of the trace of H3. -/
theorem test_walkRNode_descends :
    ((nextState (exec (.walkRNode true 0) (walkH3 .hdec 0#9 0x80#8 1#24 5#24 64#8))).map
      fun t => (t.huf.entry, t.huf.pos, t.huf.outPos)) = some (0xC0#8, 1#9, 1#24) := by decide

/-- Step 1 of the trace of H3, cursor and all. -/
theorem test_walkLLeaf_emits :
    ((nextState (step (walkH3 .hdec 0#9 0x80#8 0#24 5#24 128#8))).map
      fun t => (lookupCell t.obuf.cells 0, t.huf.entry, t.huf.pos, t.huf.outPos, t.huf.mask)) =
      some (some 0x61#8, 0x80#8, 0#9, 1#24, 64#8) := by decide

/-- Step 8 of the trace of H3: the payload is full and the chunk is the last one. -/
theorem test_walkLLeaf_completes :
    ((nextState (step (walkH3 .hdec 1#9 0xC0#8 4#24 5#24 1#8))).map
      fun t => (lookupCell t.obuf.cells 4, statusWord t.status, t.regs.resultLen, t.huf.mask)) =
      some (some 0x62#8, 0b0010#4, 5#32, 1#8) := by decide

/-- Step 5 of the trace of H3. -/
theorem test_walkRLeaf_emits :
    ((nextState (step (walkH3 .hdec 1#9 0xC0#8 2#24 5#24 8#8))).map
      fun t => (lookupCell t.obuf.cells 2, t.huf.entry, t.huf.pos, t.huf.outPos)) =
      some (some 0x63#8, 0x80#8, 0#9, 3#24) := by decide

/-- F23: offset 1 at `pos` = 1 leaves a tree of 2 pairs. -/
theorem test_walkRLeaf_overflows :
    ((nextState (exec (.walkRLeaf true 1) (walkH3 .hdec 1#9 0xC1#8 2#24 5#24 8#8))).map
      fun t => (errCodeWord t.regs.errCode, statusWord t.status, t.regs.errParam)) = some (3#4, 0b0110#4, 0#32) := by decide

/-- Output bytes missing when no whole chunk is left (R138). -/
theorem test_hufBit_exhausted :
    ((nextState (step walkH3Exhausted)).map fun t => (errCodeWord t.regs.errCode, t.regs.errParam)) =
      some (5#4, 1#32) := by decide

/-- R123: 28 05 00 00 02 ...: `out_length` = 5, `extra_size` = 2, `mag_idx` = 10. -/
theorem test_descHuff8_parses :
    ((nextState (step (parsing h3))).map
      fun t => (t.huf.outLen, t.huf.magIdx, t.huf.entry, t.huf.chunk, t.seq.phase)) =
      some (5#24, 10#10, 0x80#8, 10#32, .hufBit) := by decide

/-- H-E17: every entry check passes and `out_length` is 0. -/
theorem test_descHuff8_refuses_zero_length :
    refusal (step (parsing [0x28#8, 0#8, 0#8, 0#8, 1#8, 0xC0#8, 0x41#8, 0x42#8, 0#8, 0#8, 0#8, 0x60#8])) =
      some .zeroOutLength := by decide

theorem test_sectMark_fixes_offset :
    ((nextState (step (scanning 0#11 17#32 (f1Header 0x28#8)))).map fun t => (t.dsp.offset, t.seq.phase)) =
      some (0#11, .hdr) := by decide

/-- The header fields of F1. -/
theorem test_hdr_reads_fields :
    ((nextState (step (headering 17#32 (f1Header 0x28#8)))).map
      fun t => (t.dsp.expLen, t.dsp.expCrc, t.dsp.hStart, t.seq.phase)) =
      some (4#32, 0xB266E56B#32, 16#11, .copy) := by decide

theorem test_crc32_starts :
    ((nextState (step (hostTurn (.writeReg 0 5) (withOperand h8)))).map
      fun t => (t.crc.sel, t.crc.len, t.seq.phase, statusWord t.status)) = some (.obuf, 12#32, .crcA, 0b0001#4) := by decide

theorem test_hdec_starts :
    ((nextState (step (hostTurn (.writeReg 0 2) (withOperand h8)))).map
      fun t => (t.huf.slen, t.huf.obase, t.seq.phase)) = some (12#32, 0#32, .hufInit) := by decide

theorem test_decomp_starts :
    ((nextState (step (hostTurn (.writeReg 0 3) (withOperand h8)))).map
      fun t => (t.dsp.flen, t.dsp.probe, t.seq.phase)) = some (12#32, 0#11, .scan) := by decide

/-- R177: a reserved command word sets the sticky flag alone. -/
theorem test_illegal_command :
    nextState (step (hostTurn (.writeReg 0 6) (withOperand h8))) =
      some { withOperand h8 with status := { State.reset.status with illCmd := true } } := by decide

/-- U3: a register read while busy. -/
theorem test_busy_refuses : refusal (step (hostTurn (.readReg 6) (parsing h8))) = some .hostAccessWhileBusy := by decide

/-! ### Witnesses -/

theorem witness_StepRunsDecodedInstruction :
    decoded (.cmd 2#32) = some .hdec ∧ fetchedSelector (fetch (hostTurn (.writeReg 0 2) State.reset)) = some (.cmd 2#32) ∧
      decoded (.cmd 4#32) = none ∧ fetchedSelector (fetch (hostTurn (.writeReg 0 4) State.reset)) = some (.cmd 4#32) ∧
      fetchedSelector (fetch State.reset) = none := by decide

theorem witness_DecodeInvertsEncode : WellFormed (.walkLNode true 63) = true := by decide

theorem witness_EncodeInvertsDecode : decoded (.walk 0x1FF#9) = some (.walkRLeaf true 63) := by decide

theorem witness_DecodeIsTheOpcodeTable :
    decoded (.cmd 5#32) = some (.crc32 .obuf) ∧ (tableRow (.crc32 .ibuf)).selects (.cmd 5#32) = true := by decide

theorem witness_OnlyFourCommandWordsAreLegal :
    (6#32 : Word) ≠ 0x1#32 ∧ (6#32 : Word) ≠ 0x5#32 ∧ (6#32 : Word) ≠ 0x2#32 ∧ (6#32 : Word) ≠ 0x3#32 := by decide

/-- The seed byte 0 of R102. -/
theorem witness_CrcByteFoldsOneByte : (0x12345678#32 : Word).setWidth 8 = 0x78#8 := by decide

theorem witness_CrcByteIsEightBitSteps :
    let s := folding .crc32 .crcA 0#32
    let t : State := { s with crc := { s.crc with iter := 8, w := (s.crc.reg.setWidth 8 ^^^ 0x61#8).setWidth 32 } }
    t.inputs = [] ∧ t.seq.phase = .crcA ∧ t.crc.iter = 8 ∧
      t.crc.w = (t.crc.reg.setWidth 8 ^^^ 0x61#8).setWidth 32 := by decide

theorem witness_OneByteChangeChangesChecksum : (0x0A#8 : Byte) ≠ 0x0B#8 := by decide

theorem witness_FoldStepFoldsOneByte :
    [folding .crc32 .crcA 1#32, folding .crc32 .crcA 2#32, folding .decomp .crcA 2#32, folding .decomp .crcB 2#32].all
      (fun s => engineTurn s && decide (s.seq.phase = .crcA ∨ s.seq.phase = .crcB) && decide (s.crc.iter = 0) &&
        decide (s.crc.base.toNat + s.crc.len.toNat ≤ Config.CAP)) = true := by decide

theorem witness_FoldStepsComputeCrc32 :
    let s := folding .decomp .crcB 0#32
    s.inputs = [] ∧ s.seq.phase = .crcB ∧ s.crc.iter = 0 ∧ s.crc.idx = 0#32 ∧
      s.crc.base.toNat + s.crc.len.toNat ≤ Config.CAP := by decide

/-- An idle machine whose operand ends at the last byte of the memory, or one byte beyond it. -/
def operandAt (len : Word) : State :=
  { State.reset with regs := { State.reset.regs with argBase := 33554431#32, argLen := len } }

theorem witness_CommandsStartTheirOperation :
    (operandAt 1#32).status.busy = false ∧
      (operandAt 1#32).regs.argBase.toNat + (operandAt 1#32).regs.argLen.toNat ≤ Config.CAP ∧
      (operandAt 2#32).status.busy = false ∧
      Config.CAP < (operandAt 2#32).regs.argBase.toNat + (operandAt 2#32).regs.argLen.toNat := by decide

theorem witness_CommandWriteStartsOrIsIllegal :
    [0x1#32, 0x5#32, 0x2#32, 0x3#32, 0x4#32].all (fun v =>
      let s := hostTurn (.writeReg 0 v.toNat) (operandAt 1#32)
      decide (s.inputs = [.host (.writeReg 0 v.toNat)]) && !s.status.busy) = true := by decide

theorem witness_IllegalCommandSetsOnlyStickyFlag :
    let s := hostTurn (.writeReg 0 (7#32 : Word).toNat) (operandAt 1#32)
    let t := hostTurn (.writeReg 0 (1#32 : Word).toNat) (operandAt 2#32)
    s.status.busy = false ∧ ((7#32 : Word) ≠ 0x1#32 ∧ (7#32 : Word) ≠ 0x5#32 ∧ (7#32 : Word) ≠ 0x2#32 ∧ (7#32 : Word) ≠ 0x3#32) ∧
      t.status.busy = false ∧ Config.CAP < t.regs.argBase.toNat + t.regs.argLen.toNat ∧
      State.illegal State.reset = { State.reset with status := { State.reset.status with illCmd := true } } ∧
      (nextState (step (State.illegal State.reset))).isSome = true := by decide

theorem witness_BusyBlockAnswersOnlyStatusReads :
    (parsing h8).status.busy = true ∧ (hostTurn (.readReg 1) (parsing h8)).inputs = [.host (.readReg 1)] ∧
      (hostTurn (.writeReg 0 1) (parsing h8)).inputs = [.host (.writeReg 0 1)] := by decide

theorem witness_HostReadsRegisterByNumber :
    (hostTurn (.readReg 15) State.reset).inputs = [.host (.readReg 15)] ∧
      (hostTurn (.readReg 15) State.reset).status.busy = false ∧ 15 ≤ 15 := by decide

theorem witness_HostWritesStoreModuloWidth :
    [4, 5, 6, 7, 15].all (fun n =>
      let s := hostTurn (.writeReg n (2 ^ 32 + 1)) State.reset
      decide (s.inputs = [.host (.writeReg n (2 ^ 32 + 1))]) && !s.status.busy && decide (n ≠ 0)) = true := by decide

theorem witness_HostMemoryWriteReadsBack :
    let s : State :=
      { State.reset with inputs := [.host (.writeMem .obuf 33554431 [0xAA#8]), .host (.readMem .obuf 33554431 1)] }
    s.status.busy = false ∧ 33554431 + [0xAA#8].length ≤ Config.CAP ∧ (Buffer.ibuf ≠ Buffer.obuf) ∧
      (33554430 < 33554431) ∧ 33554431 + [0xAA#8].length ≤ 33554432 := by decide

theorem witness_WordReadIsLittleEndian : 33554428 + 4 ≤ Config.CAP ∧ 33554429 + 3 ≤ Config.CAP := by decide

/-- A walker state whose tree begins at the last two bytes of `IBUF`. -/
def treeAtTheEnd : State :=
  let s := walkH3 .hdec 0#9 0#8 0#24 5#24 128#8
  { s with huf := { s.huf with sbase := 33554426#32 } }

theorem witness_AccessOutsideMemoryFaults :
    Config.CAP ≤ 33554432 ∧ advancedPos 0 treeAtTheEnd ≤ treeAtTheEnd.huf.extra.toNat ∧
      treeAddr treeAtTheEnd (2 * advancedPos 0 treeAtTheEnd) = 33554432 ∧
      treeAddr treeAtTheEnd (2 * advancedPos 0 treeAtTheEnd + 1) = 33554433 ∧
      (hostTurn (.readMem .ibuf 33554432 1) State.reset).status.busy = false ∧
      faultOf (exec (.walkLNode false 0) treeAtTheEnd) = some (.outsideMemory .ibuf 33554432) := by decide

theorem witness_ScanStepProbesOneOffset :
    [scanning 1088#11 2000#32 [], scanning 1024#11 1027#32 [], scanning 0#11 4#32 (f1Header 0x28#8),
      scanning 0#11 4#32 [0x43#8, 0x4F#8, 0x4D#8, 0x50#8]].all
      (fun s => engineTurn s && decide (s.seq.phase = .scan) &&
        decide (s.dsp.fbase.toNat + s.dsp.flen.toNat ≤ Config.CAP)) = true ∧
      wordAt .ibuf (scanning 0#11 4#32 (f1Header 0x28#8)) 0 = 0x434F4D50#32 ∧
      wordAt .ibuf (scanning 0#11 4#32 [0x43#8, 0x4F#8, 0x4D#8, 0x50#8]) 0 ≠ 0x434F4D50#32 := by decide

theorem witness_HdrStepReadsHeader :
    [headering 16#32 (f1Header 0x28#8), headering 17#32 (f1Header 0x29#8), headering 17#32 (f1Header 0x28#8)].all
      (fun s => engineTurn s && decide (s.seq.phase = .hdr) &&
        decide (s.dsp.offset.toNat % 64 = 0 ∧ s.dsp.offset.toNat ≤ 1024) &&
        decide (s.dsp.fbase.toNat + s.dsp.flen.toNat ≤ Config.CAP)) = true ∧
      byteAt .ibuf (headering 17#32 (f1Header 0x29#8)).ibuf 16 = 0x29#8 := by decide

theorem flagsOk_running (op : SeqOp) (p : Phase) (bs : List Byte) (hp : p ≠ .idle) :
    FlagsOk (running op p bs).seq (running op p bs).status (running op p bs).regs where
  idle_iff := ⟨fun h => absurd h hp, fun h => by cases h⟩
  not_busy_done := fun _ => rfl
  err_done := fun h => by cases h
  err_code := ⟨fun h => by (cases h), fun h => absurd rfl h⟩
  err_param := ⟨fun h => absurd rfl h, fun h => by rcases h with h | h <;> cases h⟩
  err_result := fun h => by cases h

theorem inv_copying (cpIdx : BitVec 11) (h : cpIdx.toNat ≤ 64) : Inv (copying cpIdx) where
  memories := ⟨rfl, rfl⟩
  flags := flagsOk_running .decomp .copy [] (by decide)
  phase :=
    show HeaderOk _ _ ∧ _ from
      ⟨⟨⟨rfl, show 0 + 81 ≤ Config.CAP by decide⟩, ⟨show (64#11).toNat % 64 = 0 by decide, show 64 ≤ 1024 by decide⟩, Nat.le_refl 81, rfl⟩, h⟩
  iter := .inl rfl

theorem witness_CopyStepCopiesPreamble :
    (Inv (copying 63#11) ∧ engineTurn (copying 63#11) = true ∧ (copying 63#11).seq.phase = .copy ∧
      (copying 63#11).dsp.cpIdx.toNat < (copying 63#11).dsp.offset.toNat) ∧
    (Inv (copying 64#11) ∧ engineTurn (copying 64#11) = true ∧ (copying 64#11).seq.phase = .copy ∧
      ¬ (copying 64#11).dsp.cpIdx.toNat < (copying 64#11).dsp.offset.toNat) :=
  ⟨⟨inv_copying _ (by decide), by decide, by decide, by decide⟩,
    ⟨inv_copying _ (by decide), by decide, by decide, by decide⟩⟩

theorem witness_LenChkStepComparesLengths :
    let s := running .decomp .lenChk []
    let t : State := { s with dsp := { s.dsp with expLen := 1#32 } }
    engineTurn s = true ∧ s.seq.phase = .lenChk ∧ s.huf.outLen.setWidth 32 = s.dsp.expLen ∧
      engineTurn t = true ∧ t.seq.phase = .lenChk ∧ t.huf.outLen.setWidth 32 ≠ t.dsp.expLen := by decide

theorem witness_CrcChkStepComparesChecksums :
    let s := running .decomp .crcChk []
    let t : State := { s with dsp := { s.dsp with expCrc := 1#32 } }
    engineTurn s = true ∧ s.seq.phase = .crcChk ∧ ~~~s.crc.reg = s.dsp.expCrc ∧
      engineTurn t = true ∧ t.seq.phase = .crcChk ∧ ~~~t.crc.reg ≠ t.dsp.expCrc := by decide

/-- H-E2, H-E4, H-E6, H-E17 and H8: one source for each clause, those of 6 and of 7 bytes among them. -/
def entrySources : List (List Byte) :=
  [[0x28#8, 1#8, 0#8, 0#8, 0#8, 0xC0#8], [0x29#8, 1#8, 0#8, 0#8, 0#8, 0xC0#8, 0#8],
    [0x28#8, 4#8, 0#8, 0#8, 1#8, 0xC0#8, 0x41#8],
    [0x28#8, 0#8, 0#8, 0#8, 1#8, 0xC0#8, 0x41#8, 0x42#8, 0#8, 0#8, 0#8, 0x60#8], h8]

theorem witness_HufInitStepChecksInOrder :
    entrySources.all (fun bs =>
      let s := parsing bs
      engineTurn s && decide (s.seq.phase = .hufInit) &&
        decide (s.huf.sbase.toNat + s.huf.slen.toNat ≤ Config.CAP)) = true := by decide

theorem witness_DescHuff8StartsTheWalk :
    let s := parsing h8
    (s.seq.phase ≠ .hdr ∧ s.huf.sbase.toNat + s.huf.slen.toNat ≤ Config.CAP ∧
      6 + 2 * (byteAt .ibuf s.ibuf (s.huf.sbase.toNat + 4)).toNat < s.huf.slen.toNat ∧
      triadAt .ibuf s (s.huf.sbase.toNat + 1) ≠ 0#24) ∧
    (headering 17#32 (f1Header 0x28#8)).seq.phase = .hdr := by decide

theorem loaded_h3_wf : (loaded h3).wf = true := by decide

theorem inv_walkH3 (pos : BitVec 9) (entry : BitVec 8) (outPos outLen : BitVec 24) (hp : pos.toNat ≤ 2)
    (ho : outPos.toNat < outLen.toNat) : Inv (walkH3 .hdec pos entry outPos outLen 128#8) where
  memories := ⟨loaded_h3_wf, rfl⟩
  flags := flagsOk_running .hdec .hufBit h3 (by decide)
  phase :=
    show DecodeOk _ _ _ ∧ WalkOk _ from
      ⟨.inl ⟨rfl, rfl⟩,
        { source := show 0 + 14 ≤ Config.CAP by decide
          magIdx := rfl
          tree := show 10 < 14 by decide
          pos := hp
          outPos := ho
          chunk := ⟨Nat.le_refl 10, rfl⟩
          chunkEnd := show 10 ≤ 14 by decide
          mask := .inl rfl }⟩
  iter := .inl rfl

theorem inv_walkH3Exhausted : Inv walkH3Exhausted where
  memories := ⟨loaded_h3_wf, rfl⟩
  flags := flagsOk_running .hdec .hufBit h3 (by decide)
  phase :=
    show DecodeOk _ _ _ ∧ WalkOk _ from
      ⟨.inl ⟨rfl, rfl⟩,
        { source := show 0 + 14 ≤ Config.CAP by decide
          magIdx := rfl
          tree := show 10 < 14 by decide
          pos := show 1 ≤ 2 by decide
          outPos := show 4 < 5 by decide
          chunk := ⟨show 10 ≤ 14 by decide, rfl⟩
          chunkEnd := Nat.le_refl 14
          mask := .inl rfl }⟩
  iter := .inl rfl

/-- The first bit of H3. -/
def firstBit : State := walkH3 .hdec 0#9 0x80#8 0#24 5#24 128#8

theorem inv_firstBit : Inv firstBit := inv_walkH3 _ _ _ _ (by decide) (by decide)

theorem witness_HufBitStepTakesNextBit :
    (Inv walkH3Exhausted ∧ engineTurn walkH3Exhausted = true ∧ walkH3Exhausted.seq.phase = .hufBit ∧
      walkH3Exhausted.huf.slen.toNat < walkH3Exhausted.huf.chunk.toNat + 4) ∧
    (Inv firstBit ∧ engineTurn firstBit = true ∧ firstBit.seq.phase = .hufBit ∧
      ¬ firstBit.huf.slen.toNat < firstBit.huf.chunk.toNat + 4) :=
  ⟨⟨inv_walkH3Exhausted, by decide, by decide, by decide⟩, ⟨inv_firstBit, by decide, by decide, by decide⟩⟩

/-- The last bit of a chunk, at the highest chunk index the statement admits. -/
theorem witness_CursorMovesOneBit :
    let h : HufUnit := { firstBit.huf with chunk := 4294967291#32, byte := 0#2, mask := 1#8 }
    MaskOneBit h ∧ h.chunk.toNat + 4 < 2 ^ 32 :=
  ⟨.inr (.inr (.inr (.inr (.inr (.inr (.inr rfl)))))), by decide⟩

theorem witness_StreamBitsDescendTheChunkWord : MaskOneBit firstBit.huf := .inl rfl

theorem witness_WalkOutsideTreeOverflows :
    firstBit.huf.extra.toNat < firstBit.huf.pos.toNat + 2 + 1 ∧
      firstBit.huf.pos.toNat + 1 + 1 ≤ firstBit.huf.extra.toNat ∧
      firstBit.huf.pos.toNat ≤ firstBit.huf.extra.toNat ∧ 63 < 64 := by decide

theorem witness_WalkNodesDescend :
    63 < 64 ∧ firstBit.huf.pos.toNat + 1 + 1 ≤ firstBit.huf.extra.toNat ∧ treeAddr firstBit (2 * 2) < Config.CAP ∧
      treeAddr firstBit (2 * 2 + 1) < Config.CAP := by decide

theorem witness_WalkLeavesEmitAndRestart :
    firstBit.huf.pos.toNat + 0 + 1 ≤ firstBit.huf.extra.toNat ∧ treeAddr firstBit (2 * 1) < Config.CAP ∧
      treeAddr firstBit (2 * 1 + 1) < Config.CAP ∧ treeAddr firstBit 1 < Config.CAP ∧
      payloadAddr firstBit < Config.CAP ∧ firstBit.huf.outPos + 1#24 ≠ firstBit.huf.outLen := by decide

/-- The last byte of a payload: `HDEC` and `DECOMP` with the last chunk, and a chunk with bytes after it. -/
theorem witness_WalkLeavesFillThePayload :
    let s := walkH3 .hdec 0#9 0x80#8 4#24 5#24 128#8
    let more : State := { s with huf := { s.huf with slen := 15#32 } }
    [s, walkH3 .decomp 0#9 0x80#8 4#24 5#24 128#8, more].all (fun t =>
      decide (t.huf.pos.toNat + 0 + 1 ≤ t.huf.extra.toNat) && decide (treeAddr t (2 * 1 + 1) < Config.CAP) &&
        decide (payloadAddr t < Config.CAP) && decide (t.huf.outPos + 1#24 = t.huf.outLen)) = true ∧
      more.huf.slen.toNat - more.huf.chunk.toNat ≠ 4 ∧ s.huf.slen.toNat - s.huf.chunk.toNat = 4 := by decide

/-- A leaf that restarts the walk, and one that overflows. -/
theorem witness_WalkLeavesStoreOneByte :
    (nextState (exec (.walkLLeaf false 0) firstBit)).map (·.status.err) = some false ∧
      (nextState (exec (.walkRLeaf false 2) firstBit)).map (·.status.err) = some true := by decide

theorem witness_OtherRowsStoreNothing :
    (nextState (exec .hdec State.reset)).isSome = true ∧
      (nextState (exec (.walkLNode false 0) firstBit)).map (·.status.err) = some false ∧
      (nextState (exec (.walkRNode false 2) firstBit)).map (·.status.err) = some true ∧
      (nextState (exec .descHuff8 (parsing h8))).map (·.status.err) = some false := by decide

theorem witness_RaiseRecordsTheFailure : 4294967295 < 2 ^ 32 := by decide

theorem witness_ResetInputRestoresRegisters :
    ({ firstBit with inputs := [.reset] } : State).inputs = .reset :: [] := by decide

theorem witness_StatusWordIsALegalCombination : Inv firstBit := inv_firstBit

theorem witness_EveryStepKeepsInv : Inv firstBit ∧ (nextState (step firstBit)).isSome = true := ⟨inv_firstBit, by decide⟩

theorem witness_EngineStaysInsideMemory : Inv firstBit ∧ engineTurn firstBit = true := ⟨inv_firstBit, by decide⟩

theorem witness_EngineNeverWritesIbuf : engineTurn firstBit = true ∧ (nextState (step firstBit)).isSome = true := by decide

theorem witness_EngineTouchesOnlyItsPartOfObuf :
    Inv firstBit ∧ engineTurn firstBit = true ∧ (nextState (step firstBit)).isSome = true ∧ touchedBelow firstBit ≤ 5 :=
  ⟨inv_firstBit, by decide, by decide, by decide⟩

theorem witness_CrcRegKeptOutsideTheFolds :
    engineTurn firstBit = true ∧ (nextState (step firstBit)).isSome = true ∧ firstBit.seq.phase ≠ .lenChk ∧
      firstBit.seq.phase ≠ .crcA ∧ firstBit.seq.phase ≠ .crcB := by decide

theorem witness_PhasesGoForward :
    engineTurn walkH3Exhausted = true ∧ walkH3Exhausted.seq.phase ≠ .idle ∧
      (nextState (step walkH3Exhausted)).map (·.seq.phase) = some .idle := by decide

theorem witness_IdleEngineChangesNothing : engineTurn State.reset = true ∧ State.reset.seq.phase = .idle := by decide

theorem witness_EveryOperationEnds : Inv firstBit ∧ firstBit.inputs = [] ∧ firstBit.status.busy = true :=
  ⟨inv_firstBit, by decide, by decide⟩

theorem witness_HdecResultHasDeclaredLength : hdecFn h8 = .ok [0x42#8] := by decide

/-- F1 of 95_test_vectors.md: the checksum of "ABBA" is V10's complement. -/
theorem witness_DecompressResultIsVerified :
    decompressFn (f1Header 0x28#8 ++ [4#8, 0#8, 0#8, 1#8, 0xC0#8, 0x41#8, 0x42#8, 0#8, 0#8, 0#8, 0x60#8]) =
      .ok [0x41#8, 0x42#8, 0x42#8, 0x41#8] := by decide

theorem inv_operandAt (len : Word) : Inv (operandAt len) where
  memories := ⟨rfl, rfl⟩
  flags :=
    { idle_iff := ⟨fun _ => rfl, fun _ => rfl⟩
      not_busy_done := fun _ => rfl
      err_done := fun h => by cases h
      err_code := ⟨fun h => by (cases h), fun h => absurd rfl h⟩
      err_param := ⟨fun h => absurd rfl h, fun h => by rcases h with h | h <;> cases h⟩
      err_result := fun h => by cases h }
  phase := trivial
  iter := .inl rfl

/-- An operand that ends with the memory. -/
theorem witness_Crc32OperationIsTheFunction :
    Inv (operandAt 1#32) ∧ (operandAt 1#32).inputs = [] ∧ (operandAt 1#32).status.busy = false ∧
      (operandAt 1#32).regs.argBase.toNat + (operandAt 1#32).regs.argLen.toNat ≤ Config.CAP :=
  ⟨inv_operandAt 1#32, by decide, by decide, by decide⟩

theorem inv_withOperand (bs : List Byte) (h : (loaded bs).wf = true) : Inv (withOperand bs) where
  memories := ⟨h, rfl⟩
  flags :=
    { idle_iff := ⟨fun _ => rfl, fun _ => rfl⟩
      not_busy_done := fun _ => rfl
      err_done := fun h => by cases h
      err_code := ⟨fun h => by (cases h), fun h => absurd rfl h⟩
      err_param := ⟨fun h => absurd rfl h, fun h => by rcases h with h | h <;> cases h⟩
      err_result := fun h => by cases h }
  phase := trivial
  iter := .inl rfl

/-- H-E9: the first bit leaves a tree of no pair. -/
def overflowing : List Byte := [0x28#8, 1#8, 0#8, 0#8, 0#8, 0xC0#8, 0#8, 0#8, 0#8, 0#8]

/-- H-E2, H-E4, H-E6, H-E17 and H8 (`entrySources`) and H-E9: a failure of each entry check, the refusal, success, and a
failure of the walk. -/
theorem witness_HdecOperationIsTheFunction :
    (∀ bs ∈ overflowing :: entrySources, Inv (withOperand bs)) ∧
      (overflowing :: entrySources).all (fun bs =>
        let s := withOperand bs
        decide (s.inputs = []) && !s.status.busy &&
          decide (s.regs.argBase.toNat + s.regs.argLen.toNat ≤ Config.CAP)) = true ∧
      (overflowing :: entrySources).map (fun bs => hdecFn (operand .ibuf (withOperand bs))) =
        [.err .treeOverflow 0, .err .bufferTooSmall 0, .err .unsupportedFormat 0, .err .unsupportedFormat 0, .refused,
          .ok [0x42#8]] := by
  refine ⟨fun bs h => inv_withOperand bs ?_, by decide, by decide⟩
  revert bs
  decide

/-- F1, the start of F1 with no descriptor, F25, and a file with no marker: success, a failure after the scan, the
refusal, and a failure of the scan. -/
def files : List (List Byte) :=
  [f1Header 0x28#8 ++ [4#8, 0#8, 0#8, 1#8, 0xC0#8, 0x41#8, 0x42#8, 0#8, 0#8, 0#8, 0x60#8], f1Header 0x28#8,
    f1Header 0x28#8 ++ [0#8, 0#8, 0#8, 1#8, 0xC0#8, 0x41#8, 0x42#8, 0#8, 0#8, 0#8, 0x60#8], h8]

theorem witness_DecompOperationIsTheFunction :
    (∀ bs ∈ files, Inv (withOperand bs)) ∧
      files.all (fun bs =>
        let s := withOperand bs
        decide (s.inputs = []) && !s.status.busy &&
          decide (s.regs.argBase.toNat + s.regs.argLen.toNat ≤ Config.CAP)) = true ∧
      files.map (fun bs => decompressFn (operand .ibuf (withOperand bs))) =
        [.ok [0x41#8, 0x42#8, 0x42#8, 0x41#8], .err .bufferTooSmall 0, .refused, .err .sectorNotFound 0] := by
  refine ⟨fun bs h => inv_withOperand bs ?_, by decide, by decide⟩
  revert bs
  decide

end Sys2Proof.Tests
end

/-! PROOF of O6. The legal command words (30_encoding.md R77, R86): a word that decodes is the encoding of its
instruction, and the encodings are four. -/

namespace Sys2Proof.CommandWords

/-- A word of format `CMD` with nothing in bits 31:3 is made from its fields `SEL` and `OP` alone (R77). -/
theorem cmdWord_of_fields {v : Word} {sel : Bool} {op : BitVec 2} (hres : v.extractLsb' 3 29 = 0#29)
    (hsel : v.getLsbD 2 = sel) (hop : v.extractLsb' 0 2 = op) : cmdWord sel op = v := by
  have hbit : BitVec.ofBool sel = v.extractLsb' 2 1 := by
    ext k hk
    obtain rfl : k = 0 := by omega
    simp [← hsel]
  have hhigh : v.extractLsb' 3 29 ++ v.extractLsb' 2 1 = v.extractLsb' 2 30 :=
    BitVec.extractLsb'_append_extractLsb'_eq_extractLsb' rfl
  have hall : v.extractLsb' 2 30 ++ v.extractLsb' 0 2 = v.extractLsb' 0 32 :=
    BitVec.extractLsb'_append_extractLsb'_eq_extractLsb' rfl
  calc cmdWord sel op = v.extractLsb' 3 29 ++ v.extractLsb' 2 1 ++ v.extractLsb' 0 2 := by
        rw [cmdWord, hres, hbit, hop]
    _ = v := by rw [hhigh, hall, BitVec.extractLsb'_eq_self]

/-- The decoder of command words accepts a word as the instruction it encodes, or rejects it by name (R77, R86). -/
theorem decodeCmd_cases (v : Word) :
    (∃ i, decodeCmd v = .ok i ∧ encode i = .cmd v) ∨ decodeCmd v = .error (.illegalCommand v) := by
  by_cases hres : v.extractLsb' 3 29 = 0#29
  case neg => exact .inr (if_pos hres)
  unfold decodeCmd
  rw [if_neg (not_not_intro hres)]
  split_ifs with hop hsel hhdec hdecomp
  · exact .inl ⟨.crc32 .obuf, rfl, congrArg Selector.cmd (cmdWord_of_fields hres hsel hop)⟩
  · have hsel : v.getLsbD 2 = false := Bool.eq_false_of_not_eq_true hsel
    exact .inl ⟨.crc32 .ibuf, rfl, congrArg Selector.cmd (cmdWord_of_fields hres hsel hop)⟩
  · obtain ⟨hop, hsel⟩ := hhdec
    exact .inl ⟨.hdec, rfl, congrArg Selector.cmd (cmdWord_of_fields hres hsel hop)⟩
  · obtain ⟨hop, hsel⟩ := hdecomp
    exact .inl ⟨.decomp, rfl, congrArg Selector.cmd (cmdWord_of_fields hres hsel hop)⟩
  · exact .inr rfl

/-- The encoder makes four command words (R77). -/
theorem legal_of_encode_eq_cmd {i : Instr} {v : Word} (h : encode i = .cmd v) :
    v = 0x1#32 ∨ v = 0x5#32 ∨ v = 0x2#32 ∨ v = 0x3#32 := by
  cases i with
  | crc32 src =>
    cases src with
    | ibuf => cases h; exact .inl rfl
    | obuf => cases h; exact .inr (.inl rfl)
  | hdec => cases h; exact .inr (.inr (.inl rfl))
  | decomp => cases h; exact .inr (.inr (.inr rfl))
  | _ => cases h

/-- The four words of R77 decode. -/
theorem decodeCmd_ok_of_legal {v : Word} (h : v = 0x1#32 ∨ v = 0x5#32 ∨ v = 0x2#32 ∨ v = 0x3#32) :
    ∃ i, decodeCmd v = .ok i := by
  rcases h with rfl | rfl | rfl | rfl
  · exact ⟨.crc32 .ibuf, rfl⟩
  · exact ⟨.crc32 .obuf, rfl⟩
  · exact ⟨.hdec, rfl⟩
  · exact ⟨.decomp, rfl⟩

/-- A word that decodes is one of the four, since it is an encoding. -/
theorem legal_of_decodeCmd_ok {v : Word} {i : Instr} (hok : decodeCmd v = .ok i) :
    v = 0x1#32 ∨ v = 0x5#32 ∨ v = 0x2#32 ∨ v = 0x3#32 := by
  rcases decodeCmd_cases v with ⟨j, -, henc⟩ | herr
  · exact legal_of_encode_eq_cmd henc
  · cases herr.symm.trans hok

/-- Settles O6: a word that is none of the four does not decode, and has only the rejection left. -/
theorem onlyFourCommandWordsAreLegal : Obligations.OnlyFourCommandWordsAreLegal := by
  intro v
  refine ⟨⟨fun ⟨_, hok⟩ => legal_of_decodeCmd_ok hok, decodeCmd_ok_of_legal⟩, fun h1 h5 h2 h3 => ?_⟩
  rcases decodeCmd_cases v with ⟨i, hok, -⟩ | herr
  · exact absurd (legal_of_decodeCmd_ok hok) (by simp [h1, h5, h2, h3])
  · exact herr

end Sys2Proof.CommandWords

/-! PROOF of O8, O9 and O60. The rows of the checksum unit (40_crc.md R100, R101, R102): the two bit steps, and the byte
fold as a table lookup on the 8-bit seed, where the table is the eighth iterate of the bit step. -/

namespace Sys2Proof.ChecksumRows

open Sys2Proof.Machine

/-! ### The rows -/

theorem exec_crcShift (s : State) :
    exec .crcShift s = .next { s with crc := { s.crc with w := shiftedWord s.crc.w } } := rfl

theorem exec_crcShiftXor (s : State) :
    exec .crcShiftXor s = .next { s with crc := { s.crc with w := shiftXoredWord s.crc.w } } := rfl

/-- Settles O8: `decodeCrcw` asks whether the bit is 1 (R84), and the row shifts `CRC.W`. -/
theorem crcShiftShiftsRight : Obligations.CrcShiftShiftsRight := by
  refine ⟨?_, fun s => ?_⟩
  · rw [decode, decodeCrcw, if_neg (by decide)]
  · rw [exec_crcShift, shiftedWord]

/-- Settles O9: the other branch of `decodeCrcw`, and the polynomial is xored into the word already shifted. -/
theorem crcShiftXorShiftsThenXors : Obligations.CrcShiftXorShiftsThenXors := by
  refine ⟨?_, fun s => ?_⟩
  · rw [decode, decodeCrcw, if_pos rfl]
  · rw [exec_crcShiftXor, shiftXoredWord, Config.POLY]

/-! ### The table -/

theorem crcBitSteps_eq_iterate (n : Nat) (w : Word) : crcBitSteps n w = crcBitStep^[n] w := by
  induction n generalizing w with
  | zero => rfl
  | succ n ih => rw [crcBitSteps, ih, Function.iterate_succ_apply]

/-- The entry of an 8-bit seed (R102): the seed, zero-extended, after eight iterations. -/
def tableEntry (seed : Byte) : Word := crcBitStep^[8] (seed.setWidth 32)

/-- The working value that a byte fold ends with is a function of its seed alone (R102). -/
theorem crcBitSteps_seedWord (reg : Word) (b : Byte) :
    crcBitSteps 8 (crcSeedWord reg b) = tableEntry (reg.setWidth 8 ^^^ b) := by
  rw [crcBitSteps_eq_iterate, crcSeedWord, tableEntry]

/-- `CRC.BYTE` is a table lookup, which this model leaves in `CRC.W` (log 22), folded into the shifted register. -/
theorem exec_crcByte (b : Byte) (s : State) :
    exec (.crcByte b) s = .next { s with
      crc := { s.crc with
        w := tableEntry (s.crc.reg.setWidth 8 ^^^ b)
        reg := (s.crc.reg >>> 8) ^^^ tableEntry (s.crc.reg.setWidth 8 ^^^ b) } } := by
  change execCrcByte b s = _
  simp only [execCrcByte, crcBitSteps_seedWord, crcFoldWord]

/-- Settles O60: the iteration written out there is the bit step of the model, so its table is `tableEntry`; the word
that stands in `CRC.W` is a witness. The three entries are computed. -/
theorem crcByteRegisterIsTheTableFold : Obligations.CrcByteRegisterIsTheTableFold := by
  unfold Obligations.CrcByteRegisterIsTheTableFold
  intro iteration table
  have hiteration : crcBitStep = iteration := rfl
  have htable : tableEntry = table := by
    funext seed
    rw [tableEntry, hiteration]
  rw [← htable]
  refine ⟨fun b s => ⟨_, exec_crcByte b s⟩, ?_, ?_, ?_⟩
  · decide
  · decide
  · decide

end Sys2Proof.ChecksumRows

/-! PROOF of O31, O33 and O36 to O39. The Huffman unit (41_huffman.md): what each micro-operation does when its
addresses lie inside the memories, the four walker rows as one row over the stream bit and the tags, and the two engine
steps of the unit. -/

namespace Sys2Proof.HuffmanUnit

open Sys2Proof.Machine

/-! ### The micro-operations, inside the memories -/

section
variable {s : State} {j : Nat}

theorem withTree_inside {k : Byte → Out} (hj : treeAddr s j < Config.CAP) :
    withTree j s k = k (byteAt .ibuf s.ibuf (treeAddr s j)) := by
  rw [withTree, readByte_inside hj, access_ok, State.memory_ibuf]

theorem descend_inside {p : Nat} (hj : treeAddr s j < Config.CAP) :
    descend j p s = .next { s with
      huf := { s.huf with entry := byteAt .ibuf s.ibuf (treeAddr s j), pos := BitVec.ofNat 9 p } } :=
  withTree_inside hj

theorem restartAtRoot_inside (hroot : treeAddr s 1 < Config.CAP) :
    restartAtRoot s = .next { s with
      huf := { s.huf with entry := byteAt .ibuf s.ibuf (treeAddr s 1), pos := 0#9 } } :=
  withTree_inside hroot

theorem emittedState_eq (lit : Byte) :
    emittedState lit s = { s with
      obuf := s.obuf.put (payloadAddr s) lit, huf := { s.huf with outPos := s.huf.outPos + 1#24 } } := rfl

theorem payloadFull_emittedState {lit : Byte} :
    payloadFull (emittedState lit s).huf = true ↔ s.huf.outPos + 1#24 = s.huf.outLen := decide_eq_true_iff

/-- R135: the child is stored and counted; then the decode completes, or the walk restarts. -/
theorem descendToLeaf_inside (hj : treeAddr s j < Config.CAP) (hpay : payloadAddr s < Config.CAP) :
    descendToLeaf j s =
      if s.huf.outPos + 1#24 = s.huf.outLen then complete (emittedState (byteAt .ibuf s.ibuf (treeAddr s j)) s)
      else restartAtRoot (emittedState (byteAt .ibuf s.ibuf (treeAddr s j)) s) := by
  rw [descendToLeaf, withTree_inside hj, emit_inside hpay]
  simp only [payloadFull_emittedState]

theorem complete_answers_next : ∃ t, complete s = .next t := by
  unfold complete
  split
  · exact ⟨_, rfl⟩
  · exact ⟨_, rfl⟩

/-- With the child, the root and the payload byte inside the memories, an emission always goes on. -/
theorem descendToLeaf_answers_next (hj : treeAddr s j < Config.CAP) (hroot : treeAddr s 1 < Config.CAP)
    (hpay : payloadAddr s < Config.CAP) : ∃ t, descendToLeaf j s = .next t := by
  rw [descendToLeaf_inside hj hpay]
  split
  · exact complete_answers_next
  · exact ⟨_, restartAtRoot_inside hroot⟩

end

/-! ### The walker rows -/

/-- The row for a stream bit, the tags of an entry and its offset (30_encoding.md R83). -/
def walkRow (b tagL tagR : Bool) (off : Nat) : Instr :=
  if b then if tagR then .walkRLeaf tagL off else .walkRNode tagL off
  else if tagL then .walkLLeaf tagR off else .walkLNode tagR off

theorem decodeWalk_eq_walkRow (v : BitVec 9) :
    decodeWalk v = walkRow (v.getLsbD 8) (v.getLsbD 7) (v.getLsbD 6) (v.extractLsb' 0 6).toNat := by
  unfold decodeWalk walkRow
  cases v.getLsbD 8 with
  | false => cases v.getLsbD 7 <;> rfl
  | true => cases v.getLsbD 6 <;> rfl

/-- The row is selected by the stream bit and the entry's own fields. -/
theorem decodeWalk_ofBool_append (b : Bool) (e : BitVec 8) :
    decodeWalk (BitVec.ofBool b ++ e) = walkRow b (e.getLsbD 7) (e.getLsbD 6) (e.extractLsb' 0 6).toNat := by
  have hbit : (BitVec.ofBool b ++ e).getLsbD 8 = b := by rw [BitVec.getLsbD_append]; simp
  have htagL : (BitVec.ofBool b ++ e).getLsbD 7 = e.getLsbD 7 := BitVec.getLsbD_append
  have htagR : (BitVec.ofBool b ++ e).getLsbD 6 = e.getLsbD 6 := BitVec.getLsbD_append
  have hoff : (BitVec.ofBool b ++ e).extractLsb' 0 6 = e.extractLsb' 0 6 :=
    BitVec.extractLsb'_append_eq_of_add_le (by decide)
  rw [decodeWalk_eq_walkRow, hbit, htagL, htagR, hoff]

/-- A walk value stands for the row of its fields. -/
theorem decodeWalk_walkValue (b tagL tagR : Bool) {off : Nat} (hoff : off < 64) :
    decodeWalk (walkValue b tagL tagR off) = walkRow b tagL tagR off := by
  have hbit : (walkValue b tagL tagR off).getLsbD 8 = b := by simp only [walkValue, BitVec.getLsbD_append]; simp
  have htagL : (walkValue b tagL tagR off).getLsbD 7 = tagL := by simp only [walkValue, BitVec.getLsbD_append]; simp
  have htagR : (walkValue b tagL tagR off).getLsbD 6 = tagR := by simp only [walkValue, BitVec.getLsbD_append]; simp
  have hfield : (walkValue b tagL tagR off).extractLsb' 0 6 = BitVec.ofNat 6 off := BitVec.extractLsb'_append_eq_right
  have htoNat : (BitVec.ofNat 6 off).toNat = off := Nat.mod_eq_of_lt hoff
  rw [decodeWalk_eq_walkRow, hbit, htagL, htagR, hfield, htoNat]

/-- The index in the tree of the child of pair `p` on the side of a stream bit (R131 to R134). -/
def childIndex (b : Bool) (p : Nat) : Nat := if b then 2 * p + 1 else 2 * p

theorem childIndex_le (b : Bool) (p : Nat) : childIndex b p ≤ 2 * p + 1 := by
  unfold childIndex
  split <;> omega

/-- All four rows: the bit picks the side, and the tag of that side whether the child is a leaf or a node. -/
theorem exec_walkRow (b tagL tagR : Bool) (off : Nat) (s : State) :
    exec (walkRow b tagL tagR off) s = withAdvance off s fun p =>
      if (bif b then tagR else tagL) then descendToLeaf (childIndex b p) s else descend (childIndex b p) p s := by
  cases b with
  | false => cases tagL <;> rfl
  | true => cases tagR <;> rfl

theorem exec_walkRow_overflow {s : State} {off : Nat} (hover : s.huf.extra.toNat < advancedPos off s)
    (b tagL tagR : Bool) : exec (walkRow b tagL tagR off) s = raise .treeOverflow 0 s := by
  rw [exec_walkRow, withAdvance_overflow hover, raise]

theorem exec_walkRow_node {s : State} {b tagL tagR : Bool} {off : Nat} (htag : (bif b then tagR else tagL) = false)
    (hp : advancedPos off s ≤ s.huf.extra.toNat) :
    exec (walkRow b tagL tagR off) s = descend (childIndex b (advancedPos off s)) (advancedPos off s) s := by
  rw [exec_walkRow, withAdvance_inside hp, htag, if_neg Bool.false_ne_true]

theorem exec_walkRow_leaf {s : State} {b tagL tagR : Bool} {off : Nat} (htag : (bif b then tagR else tagL) = true)
    (hp : advancedPos off s ≤ s.huf.extra.toNat) :
    exec (walkRow b tagL tagR off) s = descendToLeaf (childIndex b (advancedPos off s)) s := by
  rw [exec_walkRow, withAdvance_inside hp, htag, if_pos rfl]

/-- A leaf row at or below `tree[0]`, whatever the other tag is. -/
theorem exec_leafRow {s : State} {right other : Bool} {off : Nat} (hp : advancedPos off s ≤ s.huf.extra.toNat) :
    exec (if right then .walkRLeaf other off else .walkLLeaf other off) s =
      descendToLeaf (childIndex right (advancedPos off s)) s := by
  cases right with
  | false => exact exec_walkRow_leaf (b := false) (tagL := true) (tagR := other) rfl hp
  | true => exact exec_walkRow_leaf (b := true) (tagL := other) (tagR := true) rfl hp

/-- Settles O38: the payload is not full after the emission, so the walk restarts; the tree is in `IBUF`, which the
stored byte has not touched. -/
theorem walkLeavesEmitAndRestart : Obligations.WalkLeavesEmitAndRestart := by
  intro s right other off p j hp hchild hroot hpay hnotFull
  let emitted := emittedState (byteAt .ibuf s.ibuf (treeAddr s j)) s
  have hrootEmitted : treeAddr emitted 1 < Config.CAP := hroot
  calc _ = descendToLeaf j s := exec_leafRow hp
    _ = restartAtRoot emitted := by rw [descendToLeaf_inside hchild hpay, if_neg hnotFull]
    _ = _ := restartAtRoot_inside hrootEmitted

/-- Settles O39: the payload is full after the emission, and the three ends are those of `complete` and
`decodeEnded`. -/
theorem walkLeavesFillThePayload : Obligations.WalkLeavesFillThePayload := by
  intro s right other off p j hp hchild hpay hfull filled
  have hemitted : emittedState (byteAt .ibuf s.ibuf (treeAddr s j)) s = filled := by rw [emittedState_eq, hfull]
  calc _ = descendToLeaf j s := exec_leafRow hp
    _ = complete filled := by rw [descendToLeaf_inside hchild hpay, if_pos hfull, hemitted]
    _ = _ := by rw [complete, decodeEnded, apply_ite Host.Outcome.next]; rfl

/-- Settles O36: every row begins with the overflow test, and at or below `tree[0]`, which is a byte, the pair index is
one of the tree's. -/
theorem walkOutsideTreeOverflows : Obligations.WalkOutsideTreeOverflows := by
  intro s other off
  have hextra : s.huf.extra.toNat < 256 := s.huf.extra.isLt
  refine ⟨fun hover => ?_, fun hp => ?_, fun hpos hoff => ?_⟩
  · exact ⟨exec_walkRow_overflow hover false false other, exec_walkRow_overflow hover false true other,
      exec_walkRow_overflow hover true other false, exec_walkRow_overflow hover true other true⟩
  · omega
  · omega

/-- Settles O37: the patterns are walk values with one tag fixed, and the rows descend to the child of their side. -/
theorem walkNodesDescend : Obligations.WalkNodesDescend := by
  intro s other off p
  refine ⟨fun hoff => ⟨?_, ?_⟩, fun hp hchild => ?_, fun hp hchild => ?_⟩
  · exact congrArg Except.ok (decodeWalk_walkValue false false other hoff)
  · exact congrArg Except.ok (decodeWalk_walkValue true other false hoff)
  · exact (exec_walkRow_node (b := false) (tagL := false) (tagR := other) rfl hp).trans (descend_inside hchild)
  · exact (exec_walkRow_node (b := true) (tagL := other) (tagR := false) rfl hp).trans (descend_inside hchild)

/-! ### The addresses of a walk lie inside the memories -/

theorem sourceAddr_inside {s : State} (hsource : SourceOk s.huf) {i : Nat} (hi : i < s.huf.slen.toNat) :
    sourceAddr s i < Config.CAP := Nat.lt_of_lt_of_le (Nat.add_lt_add_left hi _) hsource

/-- The tree ends below `mag_idx`, inside the source (R124, R125). -/
theorem treeAddr_inside {s : State} (hwalk : WalkOk s.huf) {j : Nat} (hj : j < 2 * s.huf.extra.toNat + 2) :
    treeAddr s j < Config.CAP := by
  have hmag := hwalk.magIdx
  have htree := hwalk.tree
  exact sourceAddr_inside hwalk.source (by omega)

/-- The payload begins at or below offset 1024, and its index has 24 bits: it stays below `CAP` = 2^25. -/
theorem payloadAddr_inside {s : State} (hdecode : DecodeOk s.huf s.dsp s.seq) : payloadAddr s < Config.CAP := by
  have hbase : s.huf.obase.toNat ≤ 1024 := by
    rcases hdecode with ⟨-, hzero⟩ | ⟨⟨-, ⟨-, hoffset⟩, -⟩, hobase⟩
    · simp [hzero]
    · omega
  have hpos : s.huf.outPos.toNat < 16777216 := s.huf.outPos.isLt
  unfold payloadAddr Config.CAP
  omega

/-- Between two bits of a decode every row answers a next state: overflow is one, and at or below `tree[0]` both
children are inside the tree (R130). -/
theorem exec_walkRow_answers_next {s : State} (hdecode : DecodeOk s.huf s.dsp s.seq) (hwalk : WalkOk s.huf)
    (b tagL tagR : Bool) (off : Nat) : ∃ t, exec (walkRow b tagL tagR off) s = .next t := by
  rcases Nat.lt_or_ge s.huf.extra.toNat (advancedPos off s) with hover | hp
  · exact ⟨_, exec_walkRow_overflow hover b tagL tagR⟩
  · have hindex := childIndex_le b (advancedPos off s)
    have hchild : treeAddr s (childIndex b (advancedPos off s)) < Config.CAP := treeAddr_inside hwalk (by omega)
    cases htag : bif b then tagR else tagL with
    | false => exact ⟨_, (exec_walkRow_node htag hp).trans (descend_inside hchild)⟩
    | true =>
      rw [exec_walkRow_leaf htag hp]
      exact descendToLeaf_answers_next hchild (treeAddr_inside hwalk (by omega)) (payloadAddr_inside hdecode)

/-! ### The `HUF_BIT` step -/

theorem step_hufBit {s : State} (hturn : engineTurn s = true) (hphase : s.seq.phase = .hufBit) :
    step s = runFetched (fetchHufBit (turnTaken s)) := by
  rw [step_engineTurn hturn, fetchEngine, turnTaken_seq, hphase]

/-- What the invariant says between two bits. -/
theorem decodeOk_walkOk_of_inv {s : State} (hinv : Inv s) (hphase : s.seq.phase = .hufBit) :
    DecodeOk s.huf s.dsp s.seq ∧ WalkOk s.huf := by
  have h := hinv.phase
  rwa [PhaseOk, hphase] at h

theorem fetchHufBit_exhausted {s : State} (hshort : s.huf.slen.toNat < s.huf.chunk.toNat + 4) :
    fetchHufBit s = .ended (raise .truncatedInput (s.huf.outLen.toNat - s.huf.outPos.toNat) s) := if_pos hshort

/-- A whole chunk gives its bit, with the entry as it is before the step (R83, R138). -/
theorem fetchHufBit_wholeChunk {s : State} (hsource : SourceOk s.huf)
    (hwhole : ¬ s.huf.slen.toNat < s.huf.chunk.toNat + 4) :
    fetchHufBit s = .selected
      (.walk (walkSelector (streamBit (byteAt .ibuf s.ibuf (streamAddr s)) s.huf.mask) s.huf.entry)) s := by
  have hbyte : s.huf.byte.toNat < 4 := s.huf.byte.isLt
  have hinside : streamAddr s < Config.CAP := sourceAddr_inside hsource (by omega)
  rw [fetchHufBit, if_neg hwhole, readByte_inside hinside, accessFetch_ok, State.memory_ibuf]

/-- Settles O33: without a whole chunk the step is the failure, whose count is positive while the payload is not full;
with one, the selected row answers a next state by the invariant, and the step settles it. -/
theorem hufBitStepTakesNextBit : Obligations.HufBitStepTakesNextBit := by
  intro s hinv hturn hphase u e off
  obtain ⟨hdecode, hwalk⟩ := decodeOk_walkOk_of_inv hinv hphase
  have hstep : step s = runFetched (fetchHufBit u) := step_hufBit hturn hphase
  split
  · next hshort =>
    have hnotFull := hwalk.outPos
    refine ⟨?_, by omega, Nat.sub_le _ _⟩
    rw [hstep, fetchHufBit_exhausted (s := u) hshort]
    rfl
  · next hwhole =>
    intro v b row
    have hrow : decode (.walk (BitVec.ofBool b ++ e)) = .ok row := congrArg Except.ok (decodeWalk_ofBool_append b e)
    obtain ⟨t, ht⟩ : ∃ t, exec row u = .next t := exec_walkRow_answers_next (s := u) hdecode hwalk b _ _ off
    refine ⟨hrow, t, ht, ?_⟩
    calc step s = runFetched (.selected (.walk (BitVec.ofBool b ++ e)) u) := by
          rw [hstep, fetchHufBit_wholeChunk (s := u) hwalk.source hwhole]; rfl
      _ = settleOut (.walk (BitVec.ofBool b ++ e)) (.next t) := by rw [runFetched_selected hrow, ht]

/-! ### The `HUF_INIT` step -/

theorem step_hufInit {s : State} (hturn : engineTurn s = true) (hphase : s.seq.phase = .hufInit) :
    step s = runFetched (fetchHufInit (turnTaken s)) := by
  rw [step_engineTurn hturn, fetchEngine, turnTaken_seq, hphase]

/-- A byte below a value is its low part (20_memory.md R50). -/
theorem toNat_append_byte {w : Nat} (x : BitVec w) (b : Byte) : (x ++ b).toNat = b.toNat + 256 * x.toNat := by
  rw [BitVec.toNat_append, ← Nat.shiftLeft_add_eq_or_of_lt b.isLt, Nat.shiftLeft_eq]
  omega

theorem readLE_three {buf : Buffer} {a : Nat} {s : State} (h : a + 3 ≤ Config.CAP) :
    readLE buf a 3 s = .ok (triadAt buf s a).toNat := by
  have h0 : a < Config.CAP := by omega
  have h1 : a + 1 < Config.CAP := by omega
  have h2 : a + 1 + 1 < Config.CAP := by omega
  simp only [readLE, readByte_inside h0, readByte_inside h1, readByte_inside h2, triadAt, toNat_append_byte]
  rfl

/-- `mag_idx` has at most 516 as its value and does not wrap (30_encoding.md R80). -/
theorem magIdxOf_toNat (extra : Byte) : (magIdxOf extra).toNat = 6 + 2 * extra.toNat := by
  have hextra : extra.toNat < 256 := extra.isLt
  simp only [magIdxOf, BitVec.toNat_add, BitVec.toNat_mul, BitVec.toNat_setWidth, BitVec.toNat_ofNat]
  omega

theorem magIdxOf_eq_ofNat (extra : Byte) : magIdxOf extra = BitVec.ofNat 10 (6 + 2 * extra.toNat) := by
  rw [← magIdxOf_toNat, BitVec.ofNat_toNat, BitVec.setWidth_eq]

theorem magIdxOf_setWidth (extra : Byte) :
    (magIdxOf extra).setWidth 32 = BitVec.ofNat 32 (6 + 2 * extra.toNat) := by
  rw [← magIdxOf_toNat, BitVec.ofNat_toNat]

/-- The parse of a source of more than 6 bytes reads inside it, the root included (R123 to R127). -/
theorem parseDescriptor_inside {s : State} (hsource : SourceOk s.huf) (hsize : 6 < s.huf.slen.toNat) :
    let extra := byteAt .ibuf s.ibuf (sourceAddr s 4)
    let magIdx := 6 + 2 * extra.toNat
    let h : HufUnit := { s.huf with
      outLen := triadAt .ibuf s (sourceAddr s 1), extra := extra, magIdx := BitVec.ofNat 10 magIdx }
    parseDescriptor s =
      if s.huf.slen.toNat ≤ magIdx then raise .unsupportedFormat 0 { s with huf := h }
      else if h.outLen = 0#24 then .refused .zeroOutLength
      else .next { s with
        huf := { h with
          pos := 0#9, entry := byteAt .ibuf s.ibuf (sourceAddr s 5), outPos := 0#24
          chunk := BitVec.ofNat 32 magIdx, byte := 3#2, mask := 128#8 }
        seq := { s.seq with phase := .hufBit } } := by
  intro extra magIdx h
  have houtLen : readLE .ibuf (sourceAddr s 1) 3 s = .ok h.outLen.toNat :=
    readLE_three (sourceAddr_inside hsource (i := 3) (by omega))
  have hextra : readByte .ibuf (sourceAddr s 4) s = .ok extra :=
    readByte_inside (sourceAddr_inside hsource (by omega))
  have hparsed : s.headerParsed h.outLen.toNat extra = { s with huf := h } := by
    rw [State.headerParsed, BitVec.ofNat_toNat, BitVec.setWidth_eq, magIdxOf_eq_ofNat]
  have hmagIdx : h.magIdx = magIdxOf extra := (magIdxOf_eq_ofNat extra).symm
  have hroom : h.magIdx.toNat = magIdx := by rw [hmagIdx, magIdxOf_toNat]
  have hchunk : h.magIdx.setWidth 32 = BitVec.ofNat 32 magIdx := by rw [hmagIdx, magIdxOf_setWidth]
  have hroot (k : Byte → Out) : withTree 1 { s with huf := h } k = k (byteAt .ibuf s.ibuf (sourceAddr s 5)) :=
    withTree_inside (s := { s with huf := h }) (sourceAddr_inside hsource (i := 5) (by omega))
  simp only [parseDescriptor, houtLen, hextra, access_ok, hparsed, hroot, State.walkStarted, hroom, hchunk]
  rfl

theorem fetchHufInit_tooShort {s : State} (hshort : s.huf.slen.toNat ≤ 6) :
    fetchHufInit s = .ended (raise .bufferTooSmall 0 s) := if_pos hshort

theorem fetchHufInit_inside {s : State} (hsource : SourceOk s.huf) (hsize : 6 < s.huf.slen.toNat) :
    fetchHufInit s = .selected (.desc (byteAt .ibuf s.ibuf (sourceAddr s 0))) s := by
  rw [fetchHufInit, if_neg (by omega), readByte_inside (sourceAddr_inside hsource (by omega)), accessFetch_ok,
    State.memory_ibuf]

theorem runFetched_desc (d : Byte) (s : State) :
    runFetched (.selected (.desc d) s) =
      if d ≠ Config.DISCR then raise .unsupportedFormat 0 s else settleOut (.desc d) (exec .descHuff8 s) := by
  split
  · next hd => exact runFetched_unselected (if_neg hd)
  · next hd => exact runFetched_selected (if_pos (not_not.mp hd))

/-- A discriminator step has no bookkeeping of its own. -/
theorem settleOut_desc (d : Byte) (o : Out) : settleOut (.desc d) o = o := by
  cases o <;> rfl

theorem exec_descHuff8_parses {s : State} (hphase : s.seq.phase ≠ .hdr) : exec .descHuff8 s = parseDescriptor s :=
  if_neg hphase

/-- Settles O31: the size check, the discriminator check, and then the checks of the parse, whose registers are those
of the statement. -/
theorem hufInitStepChecksInOrder : Obligations.HufInitStepChecksInOrder := by
  intro s hturn hphase hsource u base extra magIdx h
  have hstep : step s = runFetched (fetchHufInit u) := step_hufInit hturn hphase
  have hnotHdr : u.seq.phase ≠ .hdr := by simp [u, hphase]
  rcases Nat.lt_or_ge 6 s.huf.slen.toNat with hsize | hshort
  case inr => rw [if_pos hshort, hstep, fetchHufInit_tooShort (s := u) hshort, runFetched_ended]
  rw [if_neg (by omega)]
  calc step s = runFetched (.selected (.desc (byteAt .ibuf s.ibuf base)) u) := by
        rw [hstep, fetchHufInit_inside (s := u) hsource hsize]; rfl
    _ = if byteAt .ibuf s.ibuf base ≠ 0x28#8 then raise .unsupportedFormat 0 u else parseDescriptor u := by
        rw [runFetched_desc, settleOut_desc, exec_descHuff8_parses hnotHdr, Config.DISCR]
    _ = _ := by rw [parseDescriptor_inside (s := u) hsource hsize]; rfl

end Sys2Proof.HuffmanUnit

/-! PROOF of O27. The `HDR` step of the Container unit (42_container.md R153 to R155): behind the guard every read lies
inside `IBUF`, and the descriptor start does not wrap because the offset is a probed one. -/

namespace Sys2Proof.ContainerUnit

open Sys2Proof.Machine Sys2Proof.HuffmanUnit

/-- The low byte, and the three bytes above it as `readLE_three` gives them (20_memory.md R50). -/
theorem readLE_four {buf : Buffer} {a : Nat} {s : State} (h : a + 4 ≤ Config.CAP) :
    readLE buf a 4 s = .ok (wordAt buf s a).toNat := by
  have hlow : readByte buf a s = .ok (byteAt buf (s.memory buf) a) := readByte_inside (by omega)
  have hhigh : readLE buf (a + 1) 3 s = .ok (triadAt buf s (a + 1)).toNat := readLE_three (by omega)
  rw [readLE, hlow, hhigh, wordAt, toNat_append_byte]
  rfl

section
variable {s : State}

theorem step_hdr (hturn : engineTurn s = true) (hphase : s.seq.phase = .hdr) :
    step s = runFetched (fetchHdr (turnTaken s)) := by
  rw [step_engineTurn hturn, fetchEngine, turnTaken_seq, hphase]

theorem fileAddr_inside (hfile : s.dsp.fbase.toNat + s.dsp.flen.toNat ≤ Config.CAP) {i n : Nat}
    (hi : i + n ≤ s.dsp.flen.toNat) : fileAddr s i + n ≤ Config.CAP := by
  unfold fileAddr
  omega

/-- A probed offset is at most 1024, so `DSP.HSTART` holds the descriptor start without wrapping (R155). -/
theorem descriptorStart_toNat (hoffset : OffsetOk s.dsp) (len crc : Nat) :
    (s.headerRead len crc).dsp.hStart.toNat = s.dsp.offset.toNat + Config.OFF_HUFF := by
  obtain ⟨-, hlast⟩ := hoffset
  simp only [State.headerRead_dsp, Config.OFF_HUFF, BitVec.toNat_add, BitVec.toNat_ofNat]
  omega

/-- The header as its two words in memory give it (R154). -/
def headerFromFile (s : State) : State :=
  s.headerRead (wordAt .ibuf s (fileAddr s (s.dsp.offset.toNat + Config.OFF_LENGTH))).toNat
    (wordAt .ibuf s (fileAddr s (s.dsp.offset.toNat + Config.OFF_CRC))).toNat

theorem headerFromFile_eq (s : State) :
    headerFromFile s = { s with
      dsp := { s.dsp with
        expLen := wordAt .ibuf s (fileAddr s (s.dsp.offset.toNat + Config.OFF_LENGTH))
        expCrc := wordAt .ibuf s (fileAddr s (s.dsp.offset.toNat + Config.OFF_CRC))
        hStart := s.dsp.offset + BitVec.ofNat 11 Config.OFF_HUFF } } := by
  simp only [headerFromFile, State.headerRead, BitVec.ofNat_toNat, BitVec.setWidth_eq]

theorem fetchHdr_tooShort (hshort : s.dsp.flen.toNat < s.dsp.offset.toNat + 17) :
    fetchHdr s = .ended (raise .bufferTooSmall 0 s) := if_pos (decide_eq_true hshort)

/-- Behind the guard both words and the discriminator are read inside the file (R153 to R155). -/
theorem fetchHdr_inside (hoffset : OffsetOk s.dsp) (hfile : s.dsp.fbase.toNat + s.dsp.flen.toNat ≤ Config.CAP)
    (hroom : s.dsp.offset.toNat + 17 ≤ s.dsp.flen.toNat) :
    fetchHdr s = .selected (.desc (byteAt .ibuf s.ibuf (fileAddr s (s.dsp.offset.toNat + Config.OFF_HUFF))))
      (headerFromFile s) := by
  have hguard : headerTooShort s = false := decide_eq_false (by omega)
  have hlen := readLE_four (buf := .ibuf) (s := s)
    (fileAddr_inside hfile (i := s.dsp.offset.toNat + Config.OFF_LENGTH) (by unfold Config.OFF_LENGTH; omega))
  have hcrc := readLE_four (buf := .ibuf) (s := s)
    (fileAddr_inside hfile (i := s.dsp.offset.toNat + Config.OFF_CRC) (by unfold Config.OFF_CRC; omega))
  have hdiscr : readByte .ibuf (fileAddr (headerFromFile s) (headerFromFile s).dsp.hStart.toNat) (headerFromFile s) =
      .ok (byteAt .ibuf s.ibuf (fileAddr s (s.dsp.offset.toNat + Config.OFF_HUFF))) := by
    rw [headerFromFile, descriptorStart_toNat hoffset]
    exact readByte_inside (fileAddr_inside hfile (n := 1) (by unfold Config.OFF_HUFF; omega))
  simp only [fetchHdr, hguard, hlen, hcrc, accessFetch_ok, Bool.false_eq_true, if_false]
  exact congrArg (accessFetch · _) hdiscr

theorem exec_descHuff8_accepts (hphase : s.seq.phase = .hdr) :
    exec .descHuff8 s =
      .next { s with dsp := { s.dsp with cpIdx := 0#11 }, seq := { s.seq with phase := .copy } } :=
  if_pos hphase

end

/-- Settles O27: the guard fails before any read, or the fields are read and the discriminator decides in the state
that holds them. -/
theorem hdrStepReadsHeader : Obligations.HdrStepReadsHeader := by
  intro s hturn hphase hoffset hfile u offset base d
  have hstep : step s = runFetched (fetchHdr u) := step_hdr hturn hphase
  rcases Nat.lt_or_ge s.dsp.flen.toNat (offset + 17) with hshort | hroom
  case inl => rw [if_pos hshort, hstep, fetchHdr_tooShort (s := u) hshort, runFetched_ended]
  rw [if_neg (by omega)]
  have hread : headerFromFile u = { u with dsp := d } := headerFromFile_eq u
  have hphaseRead : ({ u with dsp := d } : State).seq.phase = .hdr := hphase
  calc step s = runFetched (.selected (.desc (byteAt .ibuf s.ibuf (base + (offset + 16)))) { u with dsp := d }) := by
        rw [hstep, fetchHdr_inside (s := u) hoffset hfile hroom, hread]; rfl
    _ = _ := by rw [runFetched_desc, settleOut_desc, exec_descHuff8_accepts hphaseRead, Config.DISCR]; rfl

end Sys2Proof.ContainerUnit

/-! PROOF of O16, O17, O57, O58 and O59, first part. The three commands in a state in which no operation runs
(43_system.md R171 to R175, R177). -/

namespace Sys2Proof.Commands

open Sys2Proof.Machine

section
variable (s : State)

/-- The state a `CRC32` command leaves (R173). -/
def crc32Begun (src : Buffer) : State :=
  { s.begun .crc32 .crcA with
    crc := { s.crc with sel := src, base := s.regs.argBase, len := s.regs.argLen, idx := 0#32 } }

/-- The state a `HDEC` command leaves (R174). -/
def hdecBegun : State :=
  { s.begun .hdec .hufInit with
    huf := { s.huf with sbase := s.regs.argBase, slen := s.regs.argLen, obase := 0#32 } }

/-- The state a `DECOMP` command leaves (R175). -/
def decompBegun : State :=
  { s.begun .decomp .scan with
    dsp := { s.dsp with fbase := s.regs.argBase, flen := s.regs.argLen, probe := 0#11 } }

end

theorem operandFits_iff {s : State} :
    operandFits s = true ↔ s.regs.argBase.toNat + s.regs.argLen.toNat ≤ Config.CAP := decide_eq_true_iff

section
variable {s : State} (hidle : s.status.busy = false)
include hidle

/-- A command is begun when its operand fits, and illegal when it does not (R171, R177). -/
theorem command_idle (op : SeqOp) (p : Phase) (load : State → State) :
    command op p load s = if operandFits s then .next (load (s.begun op p)) else .next s.illegal := by
  simp [command, hidle]

theorem exec_crc32_idle (src : Buffer) :
    exec (.crc32 src) s = if operandFits s then .next (crc32Begun s src) else .next s.illegal := by
  change execCrc32 src s = _
  rw [execCrc32, command_idle hidle]
  rfl

theorem exec_hdec_idle : exec .hdec s = if operandFits s then .next (hdecBegun s) else .next s.illegal := by
  change execHdec s = _
  rw [execHdec, command_idle hidle]
  rfl

theorem exec_decomp_idle : exec .decomp s = if operandFits s then .next (decompBegun s) else .next s.illegal := by
  change execDecomp s = _
  rw [execDecomp, command_idle hidle]
  rfl

variable (hfits : s.regs.argBase.toNat + s.regs.argLen.toNat ≤ Config.CAP)
include hfits

theorem exec_crc32_starts (src : Buffer) : exec (.crc32 src) s = .next (crc32Begun s src) := by
  rw [exec_crc32_idle hidle, if_pos (operandFits_iff.mpr hfits)]

theorem exec_hdec_starts : exec .hdec s = .next (hdecBegun s) := by
  rw [exec_hdec_idle hidle, if_pos (operandFits_iff.mpr hfits)]

theorem exec_decomp_starts : exec .decomp s = .next (decompBegun s) := by
  rw [exec_decomp_idle hidle, if_pos (operandFits_iff.mpr hfits)]

end

end Sys2Proof.Commands

/-! PROOF of O57, O58 and O59, second part. Runs of the engine when no input is pending, the bytes of an
operand, and the two ways the report of an operation (`ReportsResult`) is met. -/

namespace Sys2Proof.Runs

open Sys2Proof.Machine

/-! ### Runs -/

theorem turnTaken_of_noInputs {s : State} (h : s.inputs = []) : turnTaken s = s := by
  rw [turnTaken, h, List.tail_nil, ← h]

theorem engineTurn_of_noInputs {s : State} (h : s.inputs = []) : engineTurn s = true := by
  rw [engineTurn, h]

/-- With no input pending a step is the engine's, and uses no turn up. -/
theorem step_of_noInputs {s : State} (h : s.inputs = []) : step s = runFetched (fetchEngine s) := by
  rw [step_engineTurn (engineTurn_of_noInputs h), turnTaken_of_noInputs h]

theorem runSteps_succ {s t : State} (h : step s = .next t) (n : Nat) : runSteps (n + 1) s = runSteps n t := by
  rw [runSteps, h]

theorem runSteps_add {s t : State} {m : Nat} (h : runSteps m s = .next t) (n : Nat) :
    runSteps (m + n) s = runSteps n t := by
  induction m generalizing s with
  | zero => cases h; rw [Nat.zero_add]
  | succ m ih =>
    rw [Nat.succ_add]
    cases hstep : step s with
    | next u =>
      rw [runSteps_succ hstep] at h ⊢
      exact ih h
    | fault f => simp [runSteps, hstep] at h
    | refused r => simp [runSteps, hstep] at h

/-- Some number of steps leads from `s` to `t`. -/
def Reaches (s t : State) : Prop := ∃ n, runSteps n s = .next t

theorem Reaches.refl (s : State) : Reaches s s := ⟨0, rfl⟩

theorem Reaches.of_step {s t : State} (h : step s = .next t) : Reaches s t := ⟨1, runSteps_succ h 0⟩

theorem Reaches.trans {s t u : State} (hst : Reaches s t) (htu : Reaches t u) : Reaches s u := by
  obtain ⟨m, hm⟩ := hst
  obtain ⟨n, hn⟩ := htu
  exact ⟨m + n, (runSteps_add hm n).trans hn⟩

theorem Reaches.refused {s t : State} {r : Refusal} (hst : Reaches s t) (ht : ∃ n, runSteps n t = .refused r) :
    ∃ n, runSteps n s = .refused r := by
  obtain ⟨m, hm⟩ := hst
  obtain ⟨n, hn⟩ := ht
  exact ⟨m + n, (runSteps_add hm n).trans hn⟩

theorem refused_of_step {s : State} {r : Refusal} (h : step s = .refused r) : ∃ n, runSteps n s = .refused r :=
  ⟨1, by rw [runSteps, h]⟩

/-! ### The bytes of an operand -/

section
variable (buf : Buffer) (s : State) (base len : Nat)

@[simp] theorem slice_length : (slice buf s base len).length = len := by simp [slice]

theorem slice_succ : slice buf s base (len + 1) = byteAt buf (s.memory buf) base :: slice buf s (base + 1) len := by
  simp only [slice, List.range_succ_eq_map, List.map_cons, List.map_map, Nat.add_zero]
  congr 2
  funext i
  simp only [Function.comp, Nat.succ_eq_add_one]
  congr 1
  omega

theorem slice_add (n : Nat) : slice buf s base (len + n) = slice buf s base len ++ slice buf s (base + len) n := by
  simp [slice, List.range_add, Nat.add_assoc]

theorem slice_take (n : Nat) (h : n ≤ len) : (slice buf s base len).take n = slice buf s base n := by
  obtain ⟨m, rfl⟩ := Nat.exists_eq_add_of_le h
  rw [slice_add, List.take_left' (slice_length ..)]

theorem slice_drop (n : Nat) (h : n ≤ len) : (slice buf s base len).drop n = slice buf s (base + n) (len - n) := by
  obtain ⟨m, rfl⟩ := Nat.exists_eq_add_of_le h
  rw [slice_add, List.drop_left' (slice_length ..), Nat.add_sub_cancel_left]

/-- A byte of an operand is the byte of the memory. -/
theorem byteIn_slice {i : Nat} (h : i < len) :
    byteIn (slice buf s base len) i = byteAt buf (s.memory buf) (base + i) := by
  simp [byteIn, slice, h]

end

/-- An operand is a function of the bytes of its memory. -/
theorem slice_congr {buf : Buffer} {s t : State} {base len : Nat}
    (h : ∀ i, i < len → byteAt buf (s.memory buf) (base + i) = byteAt buf (t.memory buf) (base + i)) :
    slice buf s base len = slice buf t base len :=
  List.map_congr_left fun i hi => h i (List.mem_range.mp hi)

/-! ### Reporting a result -/

/-- A run that ends in `raise E(k)` reports the failure, if what the operation wrote before it and what the failure
leaves unspecified lie inside the range of the operation. -/
theorem reportsResult_failed {t0 u : State} {also : State → Prop} {e : Failure} {k : Nat}
    (hrun : Reaches t0 (u.failed e k)) (hk : k < 2 ^ 32) (hibuf : u.ibuf = t0.ibuf)
    (hspoiled : spoiledBytes u ≤ u.huf.obase.toNat + u.huf.outLen.toNat)
    (hkept : ∀ a, u.huf.obase.toNat + u.huf.outLen.toNat ≤ a → byteAt .obuf u.obuf a = byteAt .obuf t0.obuf a)
    (halso : also (u.failed e k)) : ReportsResult t0 also (.err e k) := by
  obtain ⟨n, hn⟩ := hrun
  refine ⟨n, _, hn, rfl, rfl, rfl, rfl, rfl, Nat.mod_eq_of_lt hk, rfl, hibuf, fun a ha => ?_, halso⟩
  exact (byteAt_spoil .obuf u.obuf (Nat.le_trans hspoiled ha)).trans (hkept a ha)

/-- A run that ends in the finishing step of a success reports the bytes at the bottom of `OBUF`. -/
theorem reportsResult_finished {t0 u : State} {also : State → Prop} {bytes : List Byte}
    (hrun : Reaches t0 u.finish) (hcode : u.regs.errCode = none) (hparam : u.regs.errParam = 0#32)
    (hlen : u.regs.resultLen.toNat = bytes.length) (hbytes : slice .obuf u 0 bytes.length = bytes)
    (hibuf : u.ibuf = t0.ibuf)
    (hkept : ∀ a, bytes.length ≤ a → byteAt .obuf u.obuf a = byteAt .obuf t0.obuf a)
    (halso : also u.finish) : ReportsResult t0 also (.ok bytes) := by
  obtain ⟨n, hn⟩ := hrun
  exact ⟨n, _, hn, rfl, rfl, rfl, rfl, hcode, hparam, hlen, hbytes, hibuf, hkept, halso⟩

end Sys2Proof.Runs

/-! PROOF of O57. The `CRC32` operation: the byte steps of a fold in closed form, then the step that sees its end. -/

namespace Sys2Proof.FoldRun

open Sys2Proof.Machine Sys2Proof.Runs Sys2Proof.Commands

/-- A fold between two bytes, with no input pending and its data inside the memory (40_crc.md R108). -/
structure FoldReady (s : State) : Prop where
  inputs : s.inputs = []
  phase : s.seq.phase = .crcA ∨ s.seq.phase = .crcB
  iter : s.crc.iter = 0
  room : s.crc.base.toNat + s.crc.len.toNat ≤ Config.CAP

theorem step_fold {s : State} (hready : FoldReady s) : step s = runFetched (fetchFold s) := by
  rw [step_of_noInputs hready.inputs, fetchEngine]
  rcases hready.phase with hphase | hphase <;> rw [hphase]

/-- The state after the byte `b` has been folded and counted. -/
def foldedByte (b : Byte) (s : State) : State :=
  { s with crc := { s.crc with
      w := crcBitSteps 8 (crcSeedWord s.crc.reg b), reg := crcByteFn s.crc.reg b, idx := s.crc.idx + 1#32 } }

theorem step_foldByte {s : State} (hready : FoldReady s) (hmore : s.crc.idx.toNat < s.crc.len.toNat) :
    step s = .next (foldedByte (byteAt s.crc.sel (s.memory s.crc.sel) (dataAddr s)) s) := by
  have haddr : dataAddr s < Config.CAP := Nat.lt_of_lt_of_le (Nat.add_lt_add_left hmore _) hready.room
  rw [step_fold hready, fetchFold, if_neg (not_not_intro hready.iter), if_pos hmore, readByte_inside haddr,
    accessFetch_ok, runFetched_selected rfl]
  rfl

theorem step_foldEnd {s : State} (hready : FoldReady s) (hend : s.crc.idx = s.crc.len) :
    step s = .next (foldEnded s) := by
  rw [step_fold hready, fetchFold, if_neg (not_not_intro hready.iter), hend, if_neg (Nat.lt_irrefl _),
    runFetched_ended]

/-- The byte steps of a fold: what is left of the data goes into the register, in ascending order (R103, R108). -/
theorem runSteps_fold {n : Nat} :
    ∀ {s : State}, FoldReady s → s.crc.idx.toNat + n = s.crc.len.toNat →
      ∃ w, runSteps n s = .next { s with
        crc := { s.crc with
          w := w, idx := s.crc.len
          reg := crc32Fn s.crc.reg (slice s.crc.sel s (dataAddr s) n) } } := by
  induction n with
  | zero =>
    intro s _ hidx
    exact ⟨s.crc.w, by rw [← BitVec.eq_of_toNat_eq hidx]; rfl⟩
  | succ n ih =>
    intro s hready hidx
    have hlen : s.crc.len.toNat < 2 ^ 32 := s.crc.len.isLt
    have hnext : (s.crc.idx + 1#32).toNat = s.crc.idx.toNat + 1 := by
      simp only [BitVec.toNat_add, BitVec.toNat_ofNat]
      omega
    obtain ⟨w, hw⟩ := ih (s := foldedByte (byteAt s.crc.sel (s.memory s.crc.sel) (dataAddr s)) s)
      ⟨hready.inputs, hready.phase, hready.iter, hready.room⟩ (by simp only [foldedByte, hnext]; omega)
    have haddr : dataAddr (foldedByte (byteAt s.crc.sel (s.memory s.crc.sel) (dataAddr s)) s) = dataAddr s + 1 := by
      simp only [dataAddr, foldedByte, hnext, Nat.add_assoc]
    refine ⟨w, ?_⟩
    rw [runSteps_succ (step_foldByte hready (by omega)), hw, haddr, slice_succ]
    rfl

/-- The state after a whole fold, with `w` left in `CRC.W`. -/
def wholeFolded (w : Word) (s : State) : State :=
  { s with crc := { s.crc with
      w := w, idx := s.crc.len
      reg := crc32Fn s.crc.reg (slice s.crc.sel s s.crc.base.toNat s.crc.len.toNat) } }

theorem FoldReady.wholeFolded {s : State} (hready : FoldReady s) (w : Word) : FoldReady (wholeFolded w s) :=
  ⟨hready.inputs, hready.phase, hready.iter, hready.room⟩

/-- A fold from index 0 takes one step for each byte. -/
theorem runSteps_wholeFold {s : State} (hready : FoldReady s) (hidx : s.crc.idx = 0#32) :
    ∃ w, runSteps s.crc.len.toNat s = .next (wholeFolded w s) := by
  have hbase : dataAddr s = s.crc.base.toNat := by simp [dataAddr, hidx]
  simp only [FoldRun.wholeFolded, ← hbase]
  exact runSteps_fold hready (by simp [hidx])

/-- A fold from index 0, and the step that sees its end. -/
theorem runSteps_foldEnded {s : State} (hready : FoldReady s) (hidx : s.crc.idx = 0#32) :
    ∃ w, runSteps (s.crc.len.toNat + 1) s = .next (foldEnded (wholeFolded w s)) := by
  obtain ⟨w, hw⟩ := runSteps_wholeFold hready hidx
  exact ⟨w, (runSteps_add hw 1).trans (runSteps_succ (step_foldEnd (hready.wholeFolded w) rfl) 0)⟩

/-! ### The operation -/

theorem phase_of_notBusy {s : State} (hinv : Inv s) (hidle : s.status.busy = false) : s.seq.phase = .idle :=
  hinv.flags.idle_iff.mpr hidle

/-- The idle machine is not in the middle of a byte (log 3). -/
theorem iter_of_notBusy {s : State} (hinv : Inv s) (hidle : s.status.busy = false) : s.crc.iter = 0 := by
  rcases hinv.iter with hzero | ⟨hphase, -, -⟩
  · exact hzero
  · rw [phase_of_notBusy hinv hidle] at hphase
    rcases hphase with h | h <;> cases h

/-- Settles O57: the command, the byte steps in closed form, and the step that sees the end of the fold and finishes. -/
theorem crc32OperationIsTheFunction : Obligations.Crc32OperationIsTheFunction := by
  intro src s hinv hinputs hidle hfits
  have hready : FoldReady (crc32Begun s src) := ⟨hinputs, .inl rfl, iter_of_notBusy (s := s) hinv hidle, hfits⟩
  obtain ⟨w, hw⟩ := runSteps_foldEnded hready rfl
  refine ⟨crc32Begun s src, w, exec_crc32_starts hidle hfits src, rfl, rfl, hw.trans ?_⟩
  cases src <;> rfl

end Sys2Proof.FoldRun

/-! PROOF of O16, O17 and O20. The host's writes (43_system.md R171, R177, R178), and the sticky flag `ILLCMD`, which
nothing but the reset input clears. -/

namespace Sys2Proof.HostWrites

open Sys2Proof.Machine Sys2Proof.CommandWords Sys2Proof.Commands

/-! ### A write to `CMD` -/

section
variable {s : State} {v : Word} {rest : List Input}

/-- While idle a command word is the selecting value of the host's step. -/
theorem step_commandWrite (hinputs : s.inputs = .host (.writeReg 0 v.toNat) :: rest) (hidle : s.status.busy = false) :
    step s = runFetched (.selected (.cmd v) { s with inputs := rest }) := by
  rw [step_host hinputs]
  simp [fetchHost, hostMay, hidle]

theorem settleOut_cmd (o : Out) : settleOut (.cmd v) o = o := by
  cases o <;> rfl

theorem step_commandWrite_legal {i : Instr} (hinputs : s.inputs = .host (.writeReg 0 v.toNat) :: rest)
    (hidle : s.status.busy = false) (hlegal : decodeCmd v = .ok i) : step s = exec i { s with inputs := rest } := by
  rw [step_commandWrite hinputs hidle, runFetched_selected (sel := .cmd v) hlegal, settleOut_cmd]

theorem step_commandWrite_illegal (hinputs : s.inputs = .host (.writeReg 0 v.toNat) :: rest)
    (hidle : s.status.busy = false) (hillegal : ¬ (v = 0x1#32 ∨ v = 0x5#32 ∨ v = 0x2#32 ∨ v = 0x3#32)) :
    step s = .next (State.illegal { s with inputs := rest }) := by
  simp only [not_or] at hillegal
  obtain ⟨h1, h5, h2, h3⟩ := hillegal
  rw [step_commandWrite hinputs hidle, runFetched_unselected ((onlyFourCommandWordsAreLegal v).2 h1 h5 h2 h3)]
  rfl

end

/-- Settles O16: each of the four words decodes to its command, whose frame asks whether the operand fits; any other
word selects no row. -/
theorem commandWriteStartsOrIsIllegal : Obligations.CommandWriteStartsOrIsIllegal := by
  intro s v rest hinputs hidle u fits begun cleared
  have hidleU : u.status.busy = false := hidle
  have hfits : operandFits u = fits := rfl
  by_cases hlegal : v = 0x1#32 ∨ v = 0x5#32 ∨ v = 0x2#32 ∨ v = 0x3#32
  case neg =>
    simp only [step_commandWrite_illegal hinputs hidle hlegal]
    simp only [not_or] at hlegal
    obtain ⟨h1, h5, h2, h3⟩ := hlegal
    simp only [h1, h5, h2, h3, or_self, false_and, if_false]
    rfl
  have hrun {i : Instr} (hdecode : decodeCmd v = .ok i) : step s = exec i u :=
    step_commandWrite_legal hinputs hidle hdecode
  rcases hlegal with rfl | rfl | rfl | rfl
  · rw [hrun (i := .crc32 .ibuf) rfl, exec_crc32_idle hidleU, hfits]
    cases fits <;> rfl
  · rw [hrun (i := .crc32 .obuf) rfl, exec_crc32_idle hidleU, hfits]
    cases fits <;> rfl
  · rw [hrun (i := .hdec) rfl, exec_hdec_idle hidleU, hfits]
    cases fits <;> rfl
  · rw [hrun (i := .decomp) rfl, exec_decomp_idle hidleU, hfits]
    cases fits <;> rfl

/-! ### A write to another register -/

/-- The register numbers follow the order of R40's table. -/
theorem number_of_hostReg {n : Nat} {r : HostReg} (h : hostReg n = some r) : n = r.ctorIdx := by
  unfold hostReg at h
  split at h <;> cases h <;> rfl

theorem writeHostReg_ignored {n : Nat} (hbase : n ≠ 4) (hlen : n ≠ 5) (hcrc : n ≠ 6) (v : Nat) (s : State) :
    writeHostReg n v s = s := by
  unfold writeHostReg
  cases hreg : hostReg n with
  | none => rfl
  | some r =>
    cases r with
    | argBase => exact absurd (number_of_hostReg hreg) hbase
    | argLen => exact absurd (number_of_hostReg hreg) hlen
    | crcReg => exact absurd (number_of_hostReg hreg) hcrc
    | _ => rfl

/-- Settles O20: three numbers name a register that stores, every other one a register that ignores the write, or
none. -/
theorem hostWritesStoreModuloWidth : Obligations.HostWritesStoreModuloWidth := by
  intro s n v rest hinputs hidle hcmd u
  have hstep : step s = .next (writeHostReg n v u) := by
    rw [step_host hinputs]
    simp [fetchHost, hostMay, hidle, hcmd, u]
  rw [hstep]
  split_ifs with hbase hlen hcrc
  · subst hbase; rfl
  · subst hlen; rfl
  · subst hcrc; rfl
  · rw [writeHostReg_ignored hbase hlen hcrc]

/-! ### `ILLCMD` stays -/

theorem command_keeps_illCmd {op : SeqOp} {p : Phase} {load : State → State} {s t : State}
    (h : command op p load s = .next t) (hload : ∀ u, (load u).status = u.status) (hset : s.status.illCmd = true) :
    t.status.illCmd = true := by
  obtain ⟨-, ⟨-, rfl⟩ | ⟨-, rfl⟩⟩ := command_next h
  · rw [hload, State.begun_status, flagsStarted_illCmd, hset]
  · rfl

theorem decodeEnded_illCmd (s : State) : (decodeEnded s).status.illCmd = s.status.illCmd := by
  unfold decodeEnded
  split <;> rfl

theorem emit_keeps_illCmd {lit : Byte} {s t : State} (h : emit lit s = .next t) :
    t.status.illCmd = s.status.illCmd := by
  obtain ⟨-, ⟨-, hcomplete⟩ | ⟨-, hrestart⟩⟩ := emit_next h
  · rcases complete_next hcomplete with ⟨-, rfl⟩ | ⟨-, rfl⟩
    · rfl
    · exact decodeEnded_illCmd _
  · obtain ⟨root, -, rfl⟩ := restartAtRoot_next hrestart
    rfl

/-- Overflow, descent and emission: whatever a walker row does, it leaves the flag. -/
theorem withAdvance_keeps_illCmd {off : Nat} {k : Nat → Out} {s t : State}
    (hk : ∀ p, k p = .next t → t.status.illCmd = s.status.illCmd) (h : withAdvance off s k = .next t) :
    t.status.illCmd = s.status.illCmd := by
  rcases withAdvance_next h with ⟨-, rfl⟩ | ⟨-, hrow⟩
  · rfl
  · exact hk _ hrow

theorem descend_keeps_illCmd {j p : Nat} {s t : State} (h : descend j p s = .next t) :
    t.status.illCmd = s.status.illCmd := by
  obtain ⟨e, -, rfl⟩ := descend_next h
  rfl

theorem descendToLeaf_keeps_illCmd {j : Nat} {s t : State} (h : descendToLeaf j s = .next t) :
    t.status.illCmd = s.status.illCmd := by
  obtain ⟨lit, -, hemit⟩ := descendToLeaf_next h
  exact emit_keeps_illCmd hemit

theorem execDescHuff8_keeps_illCmd {s t : State} (h : execDescHuff8 s = .next t) :
    t.status.illCmd = s.status.illCmd := by
  unfold execDescHuff8 at h
  split at h
  · cases h; rfl
  · obtain ⟨outLen, extra, -, -, ⟨-, rfl⟩ | ⟨-, -, root, -, rfl⟩⟩ := parseDescriptor_next h <;> rfl

/-- No row clears the flag. -/
theorem exec_keeps_illCmd {i : Instr} {s t : State} (hset : s.status.illCmd = true) (h : exec i s = .next t) :
    t.status.illCmd = true := by
  cases i with
  | crc32 src => exact command_keeps_illCmd (show execCrc32 src s = .next t from h) (fun _ => rfl) hset
  | hdec => exact command_keeps_illCmd (show execHdec s = .next t from h) (fun _ => rfl) hset
  | decomp => exact command_keeps_illCmd (show execDecomp s = .next t from h) (fun _ => rfl) hset
  | crcShift => cases h; exact hset
  | crcShiftXor => cases h; exact hset
  | crcByte b => cases h; exact hset
  | walkLNode other off => exact (withAdvance_keeps_illCmd (fun _ => descend_keeps_illCmd) h).trans hset
  | walkLLeaf other off => exact (withAdvance_keeps_illCmd (fun _ => descendToLeaf_keeps_illCmd) h).trans hset
  | walkRNode other off => exact (withAdvance_keeps_illCmd (fun _ => descend_keeps_illCmd) h).trans hset
  | walkRLeaf other off => exact (withAdvance_keeps_illCmd (fun _ => descendToLeaf_keeps_illCmd) h).trans hset
  | sectMark => cases h; exact hset
  | descHuff8 => exact (execDescHuff8_keeps_illCmd h).trans hset

theorem settle_illCmd (sel : Selector) (s : State) : (settle sel s).status.illCmd = s.status.illCmd := by
  cases sel with
  | walk v => unfold settle; dsimp only; split <;> rfl
  | crcw w0 => unfold settle bitStepped; dsimp only; split <;> rfl
  | _ => rfl

theorem unselected_keeps_illCmd {sel : Selector} {s t : State} (hset : s.status.illCmd = true)
    (h : unselected sel s = .next t) : t.status.illCmd = true := by
  cases sel with
  | cmd v => cases h; rfl
  | _ => cases h; exact hset

theorem runSelected_keeps_illCmd {sel : Selector} {s t : State} (hset : s.status.illCmd = true)
    (h : runFetched (.selected sel s) = .next t) : t.status.illCmd = true := by
  cases hdecode : decode sel with
  | ok i =>
    rw [runFetched_selected hdecode] at h
    obtain ⟨u, hu, rfl⟩ := settleOut_next h
    rw [settle_illCmd]
    exact exec_keeps_illCmd hset hu
  | error r =>
    rw [runFetched_unselected hdecode] at h
    exact unselected_keeps_illCmd hset h

theorem foldEnded_illCmd (s : State) : (foldEnded s).status.illCmd = s.status.illCmd := by
  unfold foldEnded
  split
  · rfl
  · split <;> rfl

theorem fetchFold_keeps_illCmd {s t : State} (hset : s.status.illCmd = true)
    (h : runFetched (fetchFold s) = .next t) : t.status.illCmd = true := by
  unfold fetchFold at h
  split at h
  · exact runSelected_keeps_illCmd hset h
  · split at h
    · obtain ⟨b, -, h⟩ := accessFetch_next h
      exact runSelected_keeps_illCmd hset h
    · cases h
      exact (foldEnded_illCmd s).trans hset

theorem fetchHufBit_keeps_illCmd {s t : State} (hset : s.status.illCmd = true)
    (h : runFetched (fetchHufBit s) = .next t) : t.status.illCmd = true := by
  unfold fetchHufBit at h
  split at h
  · cases h; exact hset
  · obtain ⟨v, -, h⟩ := accessFetch_next h
    exact runSelected_keeps_illCmd hset h

/-- Each phase's step starts with an access, a failure or a selected row. -/
theorem fetchEngine_keeps_illCmd {s t : State} (hset : s.status.illCmd = true)
    (h : runFetched (fetchEngine s) = .next t) : t.status.illCmd = true := by
  unfold fetchEngine at h
  cases hphase : s.seq.phase <;> rw [hphase] at h
  case idle => cases h; exact hset
  case scan =>
    rcases fetchScan_next h with ⟨-, rfl⟩ | ⟨-, w, -, ⟨-, hmark⟩ | ⟨-, rfl⟩⟩
    · exact hset
    · exact exec_keeps_illCmd hset hmark
    · exact hset
  case hdr =>
    rcases fetchHdr_next h with ⟨-, rfl⟩ | ⟨-, len, crc, d, -, -, -, ⟨-, hdesc⟩ | ⟨-, rfl⟩⟩
    · exact hset
    · exact exec_keeps_illCmd (s := s.headerRead len crc) hset hdesc
    · exact hset
  case copy =>
    rcases copyStep_next h with ⟨-, -, b, -, rfl⟩ | ⟨-, rfl⟩ <;> exact hset
  case hufInit =>
    rcases fetchHufInit_next h with ⟨-, rfl⟩ | ⟨-, d, -, ⟨-, hdesc⟩ | ⟨-, rfl⟩⟩
    · exact hset
    · exact exec_keeps_illCmd hset hdesc
    · exact hset
  case hufBit => exact fetchHufBit_keeps_illCmd hset h
  case lenChk =>
    rcases lenChkStep_next h with ⟨-, rfl⟩ | ⟨-, rfl⟩ <;> exact hset
  case crcA => exact fetchFold_keeps_illCmd hset h
  case crcB => exact fetchFold_keeps_illCmd hset h
  case crcChk =>
    rcases crcChkStep_next h with ⟨-, rfl⟩ | ⟨-, rfl⟩ <;> exact hset

theorem writeHostReg_status (n v : Nat) (s : State) : (writeHostReg n v s).status = s.status := by
  unfold writeHostReg
  split
  · next r _ => cases r <;> rfl
  · rfl

theorem fetchHost_keeps_illCmd {a : HostAction} {s t : State} (hset : s.status.illCmd = true)
    (h : runFetched (fetchHost a s) = .next t) : t.status.illCmd = true := by
  obtain ⟨-, hcases⟩ := fetchHost_next h
  rcases hcases with ⟨n, -, rfl⟩ | ⟨v, -, hcmd⟩ | ⟨n, v, -, -, rfl⟩ | ⟨buf, b, n, bs, -, -, rfl⟩ |
    ⟨buf, b, bs, -, hwrite⟩
  · exact hset
  · exact runSelected_keeps_illCmd hset hcmd
  · rw [writeHostReg_status, hset]
  · exact hset
  · obtain ⟨-, rfl⟩ := writeBytes_ok_iff.mp hwrite
    cases buf <;> exact hset

/-- Settles O17: O16 at an illegal write, and then every mover but the reset input leaves the flag. -/
theorem illegalCommandSetsOnlyStickyFlag : Obligations.IllegalCommandSetsOnlyStickyFlag := by
  refine ⟨fun s v rest hinputs hidle hillegal => ?_, fun s t hstep hset => ?_⟩
  · rw [commandWriteStartsOrIsIllegal s v rest hinputs hidle]
    rcases hillegal with ⟨h1, h5, h2, h3⟩ | hover
    · simp only [h1, h5, h2, h3, or_self, false_and, if_false]
    · simp only [Nat.not_le.mpr hover, decide_false, Bool.false_eq_true, and_false, if_false]
  · rcases step_cases s with ⟨rest, hinputs, -⟩ | ⟨a, rest, -, hhost⟩ | ⟨-, hengine⟩
    · exact .inr (by rw [hinputs]; rfl)
    · exact .inl (fetchHost_keeps_illCmd (s := { s with inputs := rest }) hset (hhost.symm.trans hstep))
    · exact .inl (fetchEngine_keeps_illCmd (s := turnTaken s) hset (hengine.symm.trans hstep))

end Sys2Proof.HostWrites

/-! PROOF of O58 and O59, first part. Bytes stored in a row, and little-endian numbers of an operand. -/

namespace Sys2Proof.StoredBytes

open Sys2Proof.Machine Sys2Proof.Runs Sys2Proof.HuffmanUnit

/-- Bytes stored behind bytes are all of them in one row. -/
theorem putAll_append (bs cs : List Byte) :
    ∀ (a : Nat) (m : Memory), (m.putAll a bs).putAll (a + bs.length) cs = m.putAll a (bs ++ cs) := by
  induction bs with
  | nil => intro a m; rfl
  | cons b rest ih =>
    intro a m
    have haddr : a + (b :: rest).length = a + 1 + rest.length := by rw [List.length_cons]; omega
    rw [haddr, Memory.putAll, ih]
    rfl

theorem putAll_concat (bs : List Byte) (b : Byte) (a : Nat) (m : Memory) :
    (m.putAll a bs).put (a + bs.length) b = m.putAll a (bs ++ [b]) := putAll_append bs [b] a m

theorem byteAt_putAll_outside (buf : Buffer) (bs : List Byte) :
    ∀ {a a' : Nat} (m : Memory), a' < a ∨ a + bs.length ≤ a' →
      byteAt buf (m.putAll a bs) a' = byteAt buf m a' := by
  induction bs with
  | nil => intro a a' m _; rfl
  | cons b rest ih =>
    intro a a' m h
    rw [List.length_cons] at h
    rw [Memory.putAll, ih (m.put a b) (by omega), byteAt_put_ne buf m (by omega)]

theorem byteAt_putAll_inside (buf : Buffer) (bs : List Byte) :
    ∀ {a k : Nat} (m : Memory) (hk : k < bs.length), byteAt buf (m.putAll a bs) (a + k) = bs[k] := by
  induction bs with
  | nil => intro a k m hk; simp at hk
  | cons b rest ih =>
    intro a k m hk
    cases k with
    | zero =>
      rw [Memory.putAll, byteAt_putAll_outside buf rest (m.put a b) (by omega), Nat.add_zero, byteAt_put_same,
        List.getElem_cons_zero]
    | succ k =>
      have haddr : a + (k + 1) = a + 1 + k := by omega
      rw [Memory.putAll, haddr, ih (m.put a b) (Nat.lt_of_succ_lt_succ hk)]
      rfl

/-- Bytes stored in a row read back as they are. -/
theorem slice_putAll {buf : Buffer} {s : State} {m : Memory} {a : Nat} {bs : List Byte}
    (h : s.memory buf = m.putAll a bs) : slice buf s a bs.length = bs := by
  refine List.ext_getElem (slice_length ..) fun k _ hk => ?_
  simp only [slice, List.getElem_map, List.getElem_range, h, byteAt_putAll_inside buf bs m hk]

section
variable {buf : Buffer} {s : State} {base len a : Nat}

/-- `LE24` of an operand is the three bytes of the memory (00_scope.md R7, 20_memory.md R50). -/
theorem leAt_slice_three (h : a + 3 ≤ len) :
    leAt (slice buf s base len) a 3 = (triadAt buf s (base + a)).toNat := by
  have hlist : (List.range 3).map (fun i => byteIn (slice buf s base len) (a + i)) =
      [byteAt buf (s.memory buf) (base + a), byteAt buf (s.memory buf) (base + a + 1),
        byteAt buf (s.memory buf) (base + a + 2)] := by
    simp only [List.range, List.range.loop, List.map_cons, List.map_nil, Nat.add_zero, Nat.add_assoc,
      byteIn_slice buf s base len (show a < len by omega), byteIn_slice buf s base len (show a + 1 < len by omega),
      byteIn_slice buf s base len (show a + 2 < len by omega)]
  simp only [leAt, hlist, leNat, triadAt, toNat_append_byte, Nat.mul_zero, Nat.add_zero]

/-- `LE32` of an operand is the word of the memory. -/
theorem leAt_slice_four (h : a + 4 ≤ len) :
    leAt (slice buf s base len) a 4 = (wordAt buf s (base + a)).toNat := by
  have hlist : (List.range 4).map (fun i => byteIn (slice buf s base len) (a + i)) =
      [byteAt buf (s.memory buf) (base + a), byteAt buf (s.memory buf) (base + a + 1),
        byteAt buf (s.memory buf) (base + a + 2), byteAt buf (s.memory buf) (base + a + 3)] := by
    simp only [List.range, List.range.loop, List.map_cons, List.map_nil, Nat.add_zero, Nat.add_assoc,
      byteIn_slice buf s base len (show a < len by omega), byteIn_slice buf s base len (show a + 1 < len by omega),
      byteIn_slice buf s base len (show a + 2 < len by omega), byteIn_slice buf s base len (show a + 3 < len by omega)]
  simp only [leAt, hlist, leNat, wordAt, toNat_append_byte, Nat.mul_zero, Nat.add_zero]

end

end Sys2Proof.StoredBytes

/-! PROOF of O58, second part. The bit cursor after `j` bits, and the bits of the source in the order it takes them
(10_state.md R32, 41_huffman.md R128). -/

namespace Sys2Proof.BitCursor

open Sys2Proof.Machine

/-- The bit cursor after `j` bits of the bitstream, which begins at `mag_idx`. -/
def cursorAt (j : Nat) (h : HufUnit) : HufUnit :=
  { h with
    chunk := BitVec.ofNat 32 (h.magIdx.toNat + 4 * (j / 32))
    byte := BitVec.ofNat 2 (3 - j % 32 / 8)
    mask := 128#8 >>> (j % 8) }

theorem mask_eq_one_iff : ∀ k < 8, 128#8 >>> k = 1#8 ↔ k = 7 := by decide

theorem byte_eq_zero_iff : ∀ k < 4, BitVec.ofNat 2 (3 - k) = 0#2 ↔ k = 3 := by decide

theorem byte_sub_one : ∀ k < 3, BitVec.ofNat 2 (3 - k) - 1#2 = BitVec.ofNat 2 (3 - (k + 1)) := by decide

theorem advanceCursor_cursorAt (j : Nat) (h : HufUnit) : advanceCursor (cursorAt j h) = cursorAt (j + 1) h := by
  have hmask : (cursorAt j h).mask = 1#8 ↔ j % 8 = 7 := mask_eq_one_iff (j % 8) (by omega)
  have hbyte : (cursorAt j h).byte = 0#2 ↔ j % 32 / 8 = 3 := byte_eq_zero_iff (j % 32 / 8) (by omega)
  by_cases hlastBit : j % 8 = 7
  case neg =>
    have hchunkIdx : (j + 1) / 32 = j / 32 := by omega
    have hbyteIdx : (j + 1) % 32 / 8 = j % 32 / 8 := by omega
    have hbitIdx : (j + 1) % 8 = j % 8 + 1 := by omega
    rw [advanceCursor, if_neg (mt hmask.mp hlastBit)]
    simp only [cursorAt, hchunkIdx, hbyteIdx, hbitIdx, BitVec.shiftRight_add]
  have hbitIdx : (j + 1) % 8 = 0 := by omega
  rw [advanceCursor, if_pos (hmask.mpr hlastBit)]
  by_cases hlastByte : j % 32 / 8 = 3
  · have hchunkIdx : h.magIdx.toNat + 4 * ((j + 1) / 32) = h.magIdx.toNat + 4 * (j / 32) + 4 := by omega
    have hbyteIdx : (j + 1) % 32 / 8 = 0 := by omega
    rw [if_pos (hbyte.mpr hlastByte)]
    simp only [cursorAt, hchunkIdx, hbyteIdx, hbitIdx, BitVec.ofNat_add]
    rfl
  · have hchunkIdx : (j + 1) / 32 = j / 32 := by omega
    have hbyteIdx : (j + 1) % 32 / 8 = j % 32 / 8 + 1 := by omega
    rw [if_neg (mt hbyte.mp hlastByte)]
    simp only [cursorAt, hchunkIdx, hbyteIdx, hbitIdx, byte_sub_one _ (show j % 32 / 8 < 3 by omega)]
    rfl

/-- Bit `j` of the bitstream of a source that begins at `mag`. -/
def bitAt (source : List Byte) (mag j : Nat) : Bool :=
  (byteIn source (mag + 4 * (j / 32) + (3 - j % 32 / 8))).getLsbD (7 - j % 8)

theorem streamBit_shifted (b : Byte) {k : Nat} (hk : k < 8) : streamBit b (128#8 >>> k) = b.getLsbD (7 - k) := by
  have hmask : 128#8 >>> k = BitVec.twoPow 8 (7 - k) := by
    revert k
    decide
  have hne : BitVec.twoPow 8 (7 - k) ≠ 0#8 := by
    revert k
    decide
  rw [streamBit, hmask, BitVec.and_twoPow]
  cases b.getLsbD (7 - k) <;> simp [hne]

/-- The bits of chunk `q` in the order of consumption are the bits `32 * q` to `32 * q + 31` of the bitstream (R128). -/
theorem chunkBits_eq (source : List Byte) (mag q : Nat) :
    chunkBits (byteIn source (mag + 4 * q)) (byteIn source (mag + 4 * q + 1)) (byteIn source (mag + 4 * q + 2))
      (byteIn source (mag + 4 * q + 3)) = (List.range' (32 * q) 32).map (bitAt source mag) := by
  refine List.ext_getElem rfl fun i hi _ => ?_
  have hi : i < 32 := hi
  have hchunk : (32 * q + i) / 32 = q := by omega
  have hbyte : (32 * q + i) % 32 = i := by omega
  have hbit : (32 * q + i) % 8 = i % 8 := by omega
  simp only [List.getElem_map, List.getElem_range', Nat.one_mul, bitAt, hchunk, hbyte, hbit]
  clear hchunk hbyte hbit
  interval_cases i <;> rfl

end Sys2Proof.BitCursor

/-! PROOF of O58, third part. The walk of the machine beside the walk of the function (41_huffman.md R128 to R139): the
state of a decode is a function of the state that `HUF_INIT` left, of the function's `Walk` and of the number of bits
taken, and one bit step of the machine is one `walkBit`. -/

namespace Sys2Proof.WalkRun

open Sys2Proof.Machine Sys2Proof.Runs Sys2Proof.HuffmanUnit Sys2Proof.StoredBytes Sys2Proof.BitCursor

/-- The source of a decode. -/
def sourceOf (s : State) : List Byte := slice .ibuf s s.huf.sbase.toNat s.huf.slen.toNat

@[simp] theorem sourceOf_length (s : State) : (sourceOf s).length = s.huf.slen.toNat := slice_length ..

theorem byteIn_sourceOf {s : State} {i : Nat} (h : i < s.huf.slen.toNat) :
    byteIn (sourceOf s) i = byteAt .ibuf s.ibuf (sourceAddr s i) := byteIn_slice .ibuf s _ _ h

/-- The machine after `j` bits of a decode that began in `s0`, where the function's walk is at `w`. -/
def walkState (s0 : State) (w : Walk) (j : Nat) : State :=
  { s0 with
    huf := cursorAt j { s0.huf with
      pos := BitVec.ofNat 9 w.pos, entry := w.entry, outPos := BitVec.ofNat 24 w.out.length }
    obuf := s0.obuf.putAll s0.huf.obase.toNat w.out }

/-- What a decode that begins in `s0` needs of it. -/
structure WalkReady (s0 : State) : Prop where
  inputs : s0.inputs = []
  phase : s0.seq.phase = .hufBit
  source : SourceOk s0.huf
  extra : s0.huf.extra = byteIn (sourceOf s0) 4
  magIdx : s0.huf.magIdx.toNat = 6 + 2 * s0.huf.extra.toNat
  tree : s0.huf.magIdx.toNat < s0.huf.slen.toNat
  obase : s0.huf.obase.toNat ≤ 1024

/-- The walk is inside the tree and the payload is not full. -/
structure Walking (s0 : State) (w : Walk) : Prop where
  pos : w.pos ≤ s0.huf.extra.toNat
  room : w.out.length < s0.huf.outLen.toNat

/-! ### What the machine comes to -/

/-- From `s` the machine comes to the end that the result names, with the walk's output so far stored. -/
def Reports (s0 s : State) : Result → Prop
  | .ok bytes => ∃ w j, w.out = bytes ∧ bytes.length = s0.huf.outLen.toNat ∧
      Reaches s (decodeEnded (walkState s0 w j))
  | .err e k => e ≠ .checksumMismatch ∧ k < 2 ^ 32 ∧
      ∃ w j, w.out.length ≤ s0.huf.outLen.toNat ∧ Reaches s ((walkState s0 w j).failed e k)
  | .refused => False

/-- From `s` the machine comes to bit `j` with the walk that goes on, or to the end of the function. -/
def Leads (s0 s : State) (j : Nat) : WalkEnd → Prop
  | .more w => Walking s0 w ∧ Reaches s (walkState s0 w j)
  | .ended r => Reports s0 s r

theorem Reports.of_reaches {s0 s t : State} {r : Result} (hst : Reaches s t) (h : Reports s0 t r) : Reports s0 s r := by
  cases r with
  | ok bytes =>
    obtain ⟨w, j, hout, hlen, hrun⟩ := h
    exact ⟨w, j, hout, hlen, hst.trans hrun⟩
  | err e k =>
    obtain ⟨he, hk, w, j, hlen, hrun⟩ := h
    exact ⟨he, hk, w, j, hlen, hst.trans hrun⟩
  | refused => exact h

/-! ### One bit -/

section
variable {s0 : State} {w : Walk} {j : Nat}

theorem walkState_outPos_succ (hw : w.out.length < s0.huf.outLen.toNat) :
    BitVec.ofNat 24 w.out.length + 1#24 = s0.huf.outLen ↔ w.out.length + 1 = s0.huf.outLen.toNat := by
  have hlen : s0.huf.outLen.toNat < 2 ^ 24 := s0.huf.outLen.isLt
  rw [← BitVec.toNat_inj]
  simp only [BitVec.toNat_add, BitVec.toNat_ofNat]
  omega

/-- A byte emitted is a byte more in the walk's output. -/
theorem emittedState_walkState (hw : Walking s0 w) (lit : Byte) :
    emittedState lit (walkState s0 w j) = walkState s0 { w with out := w.out ++ [lit] } j := by
  have hlen : s0.huf.outLen.toNat < 2 ^ 24 := s0.huf.outLen.isLt
  have hroom := hw.room
  have haddr : payloadAddr (walkState s0 w j) = s0.huf.obase.toNat + w.out.length := by
    simp only [payloadAddr, walkState, cursorAt, BitVec.toNat_ofNat]
    omega
  have hpos : BitVec.ofNat 24 w.out.length + 1#24 = BitVec.ofNat 24 (w.out ++ [lit]).length := by
    rw [List.length_append, List.length_singleton, BitVec.ofNat_add]
  rw [emittedState_eq, haddr]
  simp only [walkState, cursorAt, putAll_concat, hpos]

theorem advancedPos_walkState (hw : Walking s0 w) :
    advancedPos (entryOffset w.entry) (walkState s0 w j) = w.pos + entryOffset w.entry + 1 := by
  have hpos := hw.pos
  have hextra : s0.huf.extra.toNat < 256 := s0.huf.extra.isLt
  simp only [advancedPos, walkState, cursorAt, BitVec.toNat_ofNat]
  omega

variable (hready : WalkReady s0)
include hready

/-- A tree byte at or below `tree[0]`'s last pair is a byte of the source, and lies inside `IBUF` (R125). -/
theorem treeByte {i : Nat} (hi : i < 2 * s0.huf.extra.toNat + 2) :
    treeAddr s0 i < Config.CAP ∧ byteAt .ibuf s0.ibuf (treeAddr s0 i) = byteIn (sourceOf s0) (4 + i) := by
  have hmag := hready.magIdx
  have htree := hready.tree
  exact ⟨sourceAddr_inside hready.source (by omega), (byteIn_sourceOf (by omega)).symm⟩

omit hready in
/-- The bit under the cursor is bit `j` of the bitstream, while the chunk it is in is whole. -/
theorem streamBit_walkState (hwhole : s0.huf.magIdx.toNat + 4 * (j / 32) + 4 ≤ s0.huf.slen.toNat) :
    streamBit (byteAt .ibuf (walkState s0 w j).ibuf (streamAddr (walkState s0 w j))) (walkState s0 w j).huf.mask =
      bitAt (sourceOf s0) s0.huf.magIdx.toNat j := by
  have hslen : s0.huf.slen.toNat < 2 ^ 32 := s0.huf.slen.isLt
  have haddr : streamAddr (walkState s0 w j) =
      sourceAddr s0 (s0.huf.magIdx.toNat + 4 * (j / 32) + (3 - j % 32 / 8)) := by
    simp only [streamAddr, sourceAddr, walkState, cursorAt, BitVec.toNat_ofNat]
    omega
  rw [haddr, bitAt, byteIn_sourceOf (by omega)]
  exact streamBit_shifted _ (Nat.mod_lt _ (by decide))

/-- A bit step is the walker row of the bit and of the walk's entry, and the step's bookkeeping (R83, R128). -/
theorem step_walkState (hwhole : s0.huf.magIdx.toNat + 4 * (j / 32) + 4 ≤ s0.huf.slen.toNat) :
    let b := bitAt (sourceOf s0) s0.huf.magIdx.toNat j
    step (walkState s0 w j) =
      settleOut (.walk (walkSelector b w.entry))
        (exec (walkRow b (entryTagL w.entry) (entryTagR w.entry) (entryOffset w.entry)) (walkState s0 w j)) := by
  intro b
  have hslen : s0.huf.slen.toNat < 2 ^ 32 := s0.huf.slen.isLt
  have hphase : (walkState s0 w j).seq.phase = .hufBit := hready.phase
  have hchunk : ¬ (walkState s0 w j).huf.slen.toNat < (walkState s0 w j).huf.chunk.toNat + 4 := by
    simp only [walkState, cursorAt, BitVec.toNat_ofNat]
    omega
  rw [step_of_noInputs (s := walkState s0 w j) hready.inputs, fetchEngine, hphase]
  dsimp only
  rw [fetchHufBit_wholeChunk (s := walkState s0 w j) hready.source hchunk, streamBit_walkState hwhole]
  exact runFetched_selected (congrArg Except.ok (decodeWalk_ofBool_append b w.entry))

/-- A step whose row goes on takes the cursor one bit on. -/
theorem settleOut_walkState (v : BitVec 9) (w' : Walk) :
    settleOut (.walk v) (.next (walkState s0 w' j)) = .next (walkState s0 w' (j + 1)) := by
  have hphase : (walkState s0 w' j).seq.phase = .hufBit := hready.phase
  rw [settleOut, settle, if_pos hphase]
  exact congrArg (fun h => Host.Outcome.next { walkState s0 w' j with huf := h }) (advanceCursor_cursorAt j _)

omit hready in
theorem settleOut_decodeEnded (v : BitVec 9) (w' : Walk) :
    settleOut (.walk v) (.next (decodeEnded (walkState s0 w' j))) = .next (decodeEnded (walkState s0 w' j)) := by
  have hphase : (decodeEnded (walkState s0 w' j)).seq.phase ≠ .hufBit := by
    unfold decodeEnded
    split <;> exact Phase.noConfusion
  rw [settleOut, settle, if_neg hphase]

omit hready in
/-- Completion asks for the bytes from the start of the current chunk to the end of the source (R136). -/
theorem complete_walkState {rem : Nat} (hrem : rem = s0.huf.slen.toNat - (s0.huf.magIdx.toNat + 4 * (j / 32)))
    (hwhole : s0.huf.magIdx.toNat + 4 * (j / 32) + 4 ≤ s0.huf.slen.toNat) :
    complete (walkState s0 w j) =
      if rem ≠ 4 then raise .trailingBytes (rem - 4) (walkState s0 w j)
      else .next (decodeEnded (walkState s0 w j)) := by
  have hslen : s0.huf.slen.toNat < 2 ^ 32 := s0.huf.slen.isLt
  have hremaining : remainingBytes (walkState s0 w j) = rem := by
    simp only [remainingBytes, walkState, cursorAt, BitVec.toNat_ofNat]
    omega
  rw [complete, hremaining]

variable (hw : Walking s0 w)
include hw

/-- A leaf: the byte joins the walk's output; then completion, or the walk restarts at the root (R135, R137). -/
theorem descendToLeaf_walkState {i : Nat} (hi : i < 2 * s0.huf.extra.toNat + 2) :
    let out := w.out ++ [byteIn (sourceOf s0) (4 + i)]
    descendToLeaf i (walkState s0 w j) =
      if out.length = s0.huf.outLen.toNat then complete (walkState s0 { w with out := out } j)
      else .next (walkState s0 { pos := 0, entry := byteIn (sourceOf s0) 5, out := out } j) := by
  intro out
  have hobase := hready.obase
  have hroom := hw.room
  have hlen : s0.huf.outLen.toNat < 2 ^ 24 := s0.huf.outLen.isLt
  obtain ⟨haddr, hchild⟩ := treeByte hready hi
  obtain ⟨hrootAddr, hroot⟩ := treeByte hready (i := 1) (by omega)
  have hpayload : payloadAddr (walkState s0 w j) < Config.CAP := by
    simp only [payloadAddr, walkState, cursorAt, BitVec.toNat_ofNat, Config.CAP]
    omega
  have hemitted :
      emittedState (byteAt .ibuf (walkState s0 w j).ibuf (treeAddr (walkState s0 w j) i)) (walkState s0 w j) =
        walkState s0 { w with out := out } j := by
    rw [emittedState_walkState hw]
    exact congrArg (fun c => walkState s0 { w with out := w.out ++ [c] } j) hchild
  have hfull : (walkState s0 w j).huf.outPos + 1#24 = (walkState s0 w j).huf.outLen ↔
      out.length = s0.huf.outLen.toNat := by
    rw [List.length_append, List.length_singleton]
    exact walkState_outPos_succ hroom
  rw [descendToLeaf_inside (s := walkState s0 w j) haddr hpayload, hemitted,
    restartAtRoot_inside (s := walkState s0 _ j) hrootAddr]
  simp only [hfull, ← hroot]
  rfl

/-- A leaf, as the function has it (R135 to R137). -/
theorem leads_leaf {b : Bool} {i rem : Nat} (hi : i < 2 * s0.huf.extra.toNat + 2)
    (hrem : rem = s0.huf.slen.toNat - (s0.huf.magIdx.toNat + 4 * (j / 32)))
    (hwhole : s0.huf.magIdx.toNat + 4 * (j / 32) + 4 ≤ s0.huf.slen.toNat)
    (hstep : step (walkState s0 w j) =
      settleOut (.walk (walkSelector b w.entry)) (descendToLeaf i (walkState s0 w j))) :
    let out := w.out ++ [byteIn (sourceOf s0) (4 + i)]
    Leads s0 (walkState s0 w j) (j + 1)
      (if out.length = s0.huf.outLen.toNat then
        if rem ≠ 4 then .ended (.err .trailingBytes (rem - 4)) else .ended (.ok out)
      else .more { pos := 0, entry := byteIn (sourceOf s0) 5, out := out }) := by
  intro out
  have hslen : s0.huf.slen.toNat < 2 ^ 32 := s0.huf.slen.isLt
  have hroom : out.length = w.out.length + 1 := by rw [List.length_append, List.length_singleton]
  have hnotFull := hw.room
  rw [descendToLeaf_walkState hready hw hi] at hstep
  by_cases hlast : out.length = s0.huf.outLen.toNat
  case neg =>
    rw [if_neg hlast] at hstep ⊢
    refine ⟨⟨Nat.zero_le _, show out.length < _ by omega⟩, Reaches.of_step (hstep.trans ?_)⟩
    exact settleOut_walkState hready _ _
  rw [if_pos hlast, complete_walkState hrem hwhole] at hstep
  rw [if_pos hlast]
  by_cases hlastChunk : rem = 4
  · rw [if_neg (not_not_intro hlastChunk)] at hstep ⊢
    exact ⟨{ w with out := out }, j, rfl, hlast, Reaches.of_step (hstep.trans (settleOut_decodeEnded _ _))⟩
  · rw [if_pos hlastChunk] at hstep ⊢
    exact ⟨Failure.noConfusion, by omega, { w with out := out }, j, hlast.le, Reaches.of_step hstep⟩

/-- One bit step of the machine is one bit of the function (R129 to R137, R141). -/
theorem leads_walkBit {rem : Nat} (hrem : rem = s0.huf.slen.toNat - (s0.huf.magIdx.toNat + 4 * (j / 32)))
    (hwhole : s0.huf.magIdx.toNat + 4 * (j / 32) + 4 ≤ s0.huf.slen.toNat) :
    Leads s0 (walkState s0 w j) (j + 1)
      (walkBit (sourceOf s0) s0.huf.outLen.toNat rem (bitAt (sourceOf s0) s0.huf.magIdx.toNat j) w) := by
  have hstep := step_walkState (w := w) hready hwhole
  generalize bitAt (sourceOf s0) s0.huf.magIdx.toNat j = b at hstep ⊢
  have hp := advancedPos_walkState (j := j) hw
  rw [walkBit, ← hready.extra]
  dsimp only at hstep ⊢
  generalize hpDef : w.pos + entryOffset w.entry + 1 = p at hp ⊢
  by_cases hover : s0.huf.extra.toNat < p
  · rw [if_pos hover]
    rw [exec_walkRow_overflow (s := walkState s0 w j) (hover.trans_eq hp.symm)] at hstep
    exact ⟨Failure.noConfusion, by decide, w, j, hw.room.le, Reaches.of_step hstep⟩
  have hinside : advancedPos (entryOffset w.entry) (walkState s0 w j) ≤ (walkState s0 w j).huf.extra.toNat :=
    hp.trans_le (Nat.not_lt.mp hover)
  have hchildIdx : childIndex b p < 2 * s0.huf.extra.toNat + 2 :=
    Nat.lt_of_le_of_lt (childIndex_le b p) (by omega)
  have htagDef : (bif b then entryTagR w.entry else entryTagL w.entry) =
      if b then entryTagR w.entry else entryTagL w.entry := by cases b <;> rfl
  rw [if_neg hover, ← htagDef]
  cases htag : bif b then entryTagR w.entry else entryTagL w.entry with
  | true =>
    rw [exec_walkRow_leaf htag hinside, hp] at hstep
    exact leads_leaf hready hw hchildIdx hrem hwhole hstep
  | false =>
    obtain ⟨haddr, hchild⟩ := treeByte hready hchildIdx
    rw [exec_walkRow_node htag hinside, hp, descend_inside (s := walkState s0 w j) haddr] at hstep
    refine ⟨⟨Nat.not_lt.mp hover, hw.room⟩, Reaches.of_step (hstep.trans ?_)⟩
    change _ = Host.Outcome.next
      (walkState s0 { pos := p, entry := byteIn (sourceOf s0) (4 + childIndex b p), out := w.out } (j + 1))
    rw [← hchild]
    exact settleOut_walkState hready (j := j) _
      { pos := p, entry := byteAt .ibuf s0.ibuf (treeAddr s0 (childIndex b p)), out := w.out }

end

/-! ### The bits of a chunk, and the chunks -/

section
variable {s0 : State} (hready : WalkReady s0)
include hready

/-- The bits from `j` to the end of chunk `q`. -/
theorem leads_walkBits {q rem n : Nat} (hrem : rem = s0.huf.slen.toNat - (s0.huf.magIdx.toNat + 4 * q))
    (hwhole : s0.huf.magIdx.toNat + 4 * q + 4 ≤ s0.huf.slen.toNat) :
    ∀ {j : Nat} {w : Walk}, Walking s0 w → 32 * q ≤ j → j + n = 32 * (q + 1) →
      Leads s0 (walkState s0 w j) (32 * (q + 1))
        (walkBits (sourceOf s0) s0.huf.outLen.toNat rem
          ((List.range' j n).map (bitAt (sourceOf s0) s0.huf.magIdx.toNat)) w) := by
  induction n with
  | zero =>
    intro j w hw _ hj
    rw [Nat.add_zero] at hj
    exact ⟨hw, hj ▸ Reaches.refl _⟩
  | succ n ih =>
    intro j w hw hlow hj
    have hchunk : j / 32 = q := by omega
    have hbit := leads_walkBit hready hw (j := j) (rem := rem) (by rw [hchunk, hrem]) (by rw [hchunk]; exact hwhole)
    rw [List.range'_succ, List.map_cons, walkBits]
    cases hend : walkBit (sourceOf s0) s0.huf.outLen.toNat rem (bitAt (sourceOf s0) s0.huf.magIdx.toNat j) w with
    | ended r => rwa [hend] at hbit
    | more w' =>
      rw [hend] at hbit
      obtain ⟨hw', hrun⟩ := hbit
      have hrest := ih (j := j + 1) hw' (by omega) (by omega)
      dsimp only
      cases hlater : walkBits (sourceOf s0) s0.huf.outLen.toNat rem
          ((List.range' (j + 1) n).map (bitAt (sourceOf s0) s0.huf.magIdx.toNat)) w' with
      | ended r =>
        rw [hlater] at hrest
        exact Reports.of_reaches hrun hrest
      | more w'' =>
        rw [hlater] at hrest
        obtain ⟨hw'', hrun'⟩ := hrest
        exact ⟨hw'', hrun.trans hrun'⟩

/-- Without a whole chunk the bitstream is exhausted (R138, R139). -/
theorem reports_exhausted {q : Nat} {w : Walk} (hw : Walking s0 w)
    (hend : s0.huf.magIdx.toNat + 4 * q ≤ s0.huf.slen.toNat)
    (hshort : s0.huf.slen.toNat < s0.huf.magIdx.toNat + 4 * q + 4) :
    Reports s0 (walkState s0 w (32 * q)) (.err .truncatedInput (s0.huf.outLen.toNat - w.out.length)) := by
  have hslen : s0.huf.slen.toNat < 2 ^ 32 := s0.huf.slen.isLt
  have hlen : s0.huf.outLen.toNat < 2 ^ 24 := s0.huf.outLen.isLt
  have hroom := hw.room
  have hphase : (walkState s0 w (32 * q)).seq.phase = .hufBit := hready.phase
  have hchunk : (walkState s0 w (32 * q)).huf.slen.toNat < (walkState s0 w (32 * q)).huf.chunk.toNat + 4 := by
    simp only [walkState, cursorAt, BitVec.toNat_ofNat]
    omega
  have hcount : (walkState s0 w (32 * q)).huf.outLen.toNat - (walkState s0 w (32 * q)).huf.outPos.toNat =
      s0.huf.outLen.toNat - w.out.length := by
    simp only [walkState, cursorAt, BitVec.toNat_ofNat]
    omega
  refine ⟨Failure.noConfusion, by omega, w, 32 * q, hroom.le, Reaches.of_step ?_⟩
  rw [step_of_noInputs (s := walkState s0 w (32 * q)) hready.inputs, fetchEngine, hphase]
  dsimp only
  rw [fetchHufBit_exhausted hchunk, hcount]
  rfl

omit hready in
/-- Four bytes at the head of what is left of a sequence. -/
theorem chunk_of_drop {source rest : List Byte} {c : Nat} {b0 b1 b2 b3 : Byte}
    (h : b0 :: b1 :: b2 :: b3 :: rest = source.drop c) :
    chunkBits b0 b1 b2 b3 = chunkBits (byteIn source c) (byteIn source (c + 1)) (byteIn source (c + 2))
        (byteIn source (c + 3)) ∧
      rest = source.drop (c + 4) ∧ source.length = c + 4 + rest.length := by
  have hbyte (k : Nat) : byteIn source (c + k) = (b0 :: b1 :: b2 :: b3 :: rest).getD k 0#8 := by
    simp only [byteIn, List.getD_eq_getElem?_getD, h, List.getElem?_drop]
  have hlen := congrArg List.length h
  simp only [List.length_cons, List.length_drop] at hlen
  refine ⟨?_, ?_, by omega⟩
  · rw [← Nat.add_zero c, hbyte 0, Nat.add_zero, hbyte 1, hbyte 2, hbyte 3]
    rfl
  · rw [← List.drop_drop, ← h]
    rfl

/-- The bits of chunk `q`, with as many bytes from its start to the end of the source as the function counts. -/
theorem leads_chunk {rest : List Byte} {w : Walk} {q : Nat} {b0 b1 b2 b3 : Byte} (hw : Walking s0 w)
    (hbytes : b0 :: b1 :: b2 :: b3 :: rest = (sourceOf s0).drop (s0.huf.magIdx.toNat + 4 * q)) :
    Leads s0 (walkState s0 w (32 * q)) (32 * (q + 1))
      (walkBits (sourceOf s0) s0.huf.outLen.toNat (rest.length + 4) (chunkBits b0 b1 b2 b3) w) := by
  obtain ⟨hchunk, -, hlen⟩ := chunk_of_drop hbytes
  rw [sourceOf_length] at hlen
  rw [hchunk, chunkBits_eq]
  exact leads_walkBits hready (by omega) (by omega) hw (Nat.le_refl _) rfl

/-- The whole chunks from chunk `q` on, and the end of the bitstream. -/
theorem reports_walkChunks {bytes : List Byte} {w : Walk} :
    ∀ {q : Nat}, Walking s0 w → s0.huf.magIdx.toNat + 4 * q ≤ s0.huf.slen.toNat →
      bytes = (sourceOf s0).drop (s0.huf.magIdx.toNat + 4 * q) →
      Reports s0 (walkState s0 w (32 * q)) (walkChunks (sourceOf s0) s0.huf.outLen.toNat bytes w) := by
  induction bytes, w using walkChunks.induct (sourceOf s0) s0.huf.outLen.toNat with
  | case1 b0 b1 b2 b3 rest w r hbits =>
    intro q hw _ hbytes
    have hchunk := leads_chunk hready hw hbytes
    rw [hbits] at hchunk
    rwa [walkChunks, hbits]
  | case2 b0 b1 b2 b3 rest w w' hbits ih =>
    intro q hw hend hbytes
    have hchunk := leads_chunk hready hw hbytes
    rw [hbits] at hchunk
    obtain ⟨hw', hrun⟩ := hchunk
    obtain ⟨-, hrest, hlen⟩ := chunk_of_drop hbytes
    rw [sourceOf_length] at hlen
    rw [walkChunks, hbits]
    exact Reports.of_reaches hrun (ih (q := q + 1) hw' (by omega) hrest)
  | case3 t w hshort =>
    intro q hw hend hbytes
    have hlen := congrArg List.length hbytes
    rw [List.length_drop, sourceOf_length] at hlen
    have hfew : t.length < 4 := by
      match t, hshort with
      | [], _ => simp
      | [_], _ => simp
      | [_, _], _ => simp
      | [_, _, _], _ => simp
      | b0 :: b1 :: b2 :: b3 :: rest, hshort => exact absurd rfl (hshort b0 b1 b2 b3 rest)
    rw [walkChunks]
    · exact reports_exhausted hready hw hend (by omega)
    · exact hshort

end

end Sys2Proof.WalkRun

/-! PROOF of O58. A decode from its `HUF_INIT` step on (41_huffman.md R140, R141), for whichever operation runs it, and
the `HDEC` operation. -/

namespace Sys2Proof.DecodeRun

open Sys2Proof.Machine Sys2Proof.Runs Sys2Proof.HuffmanUnit Sys2Proof.StoredBytes Sys2Proof.BitCursor
  Sys2Proof.WalkRun Sys2Proof.Commands

/-- A decode that is about to begin. -/
structure InitReady (s : State) : Prop where
  inputs : s.inputs = []
  phase : s.seq.phase = .hufInit
  source : SourceOk s.huf
  obase : s.huf.obase.toNat ≤ 1024

/-- Check 1 or check 2 fails: no header is parsed (R121, R122). -/
def RejectedUnparsed (source : List Byte) : Prop := source.length ≤ 6 ∨ byteIn source 0 ≠ 0x28#8

/-- `u` differs from `s`, in which the decode began, in the Huffman unit, the phase and the payload alone. -/
structure DecodeFrame (s u : State) : Prop where
  rest : u = { s with huf := u.huf, obuf := u.obuf, seq := { s.seq with phase := u.seq.phase } }
  obase : u.huf.obase = s.huf.obase
  kept : ∀ a, a < s.huf.obase.toNat ∨ s.huf.obase.toNat + u.huf.outLen.toNat ≤ a →
    byteAt .obuf u.obuf a = byteAt .obuf s.obuf a
  spoiled : spoiledBytes u ≤ u.huf.obase.toNat + u.huf.outLen.toNat
  unparsed : RejectedUnparsed (sourceOf s) → u = s
  parsed : ¬ RejectedUnparsed (sourceOf s) → u.huf.outLen.toNat = leAt (sourceOf s) 1 3

section
variable {s u : State} (h : DecodeFrame s u)
include h

theorem DecodeFrame.crc : u.crc = s.crc := by rw [h.rest]
theorem DecodeFrame.dsp : u.dsp = s.dsp := by rw [h.rest]
theorem DecodeFrame.op : u.seq.op = s.seq.op := by rw [h.rest]
theorem DecodeFrame.regs : u.regs = s.regs := by rw [h.rest]
theorem DecodeFrame.ibuf : u.ibuf = s.ibuf := by rw [h.rest]
theorem DecodeFrame.inputs : u.inputs = s.inputs := by rw [h.rest]

end

/-- From its `HUF_INIT` step the decode comes to the end that the result names. -/
def DecodeReports (s : State) : Result → Prop
  | .ok bytes => ∃ u, DecodeFrame s u ∧ u.huf.outLen.toNat = bytes.length ∧
      u.obuf = s.obuf.putAll s.huf.obase.toNat bytes ∧ Reaches s (decodeEnded u)
  | .err e k => e ≠ .checksumMismatch ∧ k < 2 ^ 32 ∧ ∃ u, DecodeFrame s u ∧ Reaches s (u.failed e k)
  | .refused => ∃ n, runSteps n s = .refused .zeroOutLength

/-! ### The `HUF_INIT` step -/

/-- The header registers of a source (R123, R124). -/
def parsedHeader (s : State) : HufUnit :=
  let extra := byteAt .ibuf s.ibuf (s.huf.sbase.toNat + 4)
  { s.huf with
    outLen := triadAt .ibuf s (s.huf.sbase.toNat + 1), extra := extra
    magIdx := BitVec.ofNat 10 (6 + 2 * extra.toNat) }

/-- The state that a `HUF_INIT` step leaves when the walk starts (R127). -/
def walkBegun (s : State) : State :=
  { s with
    huf := { parsedHeader s with
      pos := 0#9, entry := byteAt .ibuf s.ibuf (s.huf.sbase.toNat + 5), outPos := 0#24
      chunk := BitVec.ofNat 32 (6 + 2 * (byteAt .ibuf s.ibuf (s.huf.sbase.toNat + 4)).toNat), byte := 3#2
      mask := 128#8 }
    seq := { s.seq with phase := .hufBit } }

section
variable {s : State}

/-- O31 in the words of the function: the checks are made of the source's bytes. -/
theorem step_initReady (hready : InitReady s) :
    step s =
      if (sourceOf s).length ≤ 6 then raise .bufferTooSmall 0 s
      else if byteAt .ibuf s.ibuf s.huf.sbase.toNat ≠ 0x28#8 then raise .unsupportedFormat 0 s
      else if (sourceOf s).length ≤ 6 + 2 * (byteAt .ibuf s.ibuf (s.huf.sbase.toNat + 4)).toNat then
        raise .unsupportedFormat 0 { s with huf := parsedHeader s }
      else if triadAt .ibuf s (s.huf.sbase.toNat + 1) = 0#24 then .refused .zeroOutLength
      else .next (walkBegun s) := by
  have hstep := hufInitStepChecksInOrder s (engineTurn_of_noInputs hready.inputs) hready.phase hready.source
  rw [turnTaken_of_noInputs hready.inputs] at hstep
  rw [sourceOf_length]
  exact hstep

theorem parsedHeader_magIdx (s : State) :
    (parsedHeader s).magIdx.toNat = 6 + 2 * (byteAt .ibuf s.ibuf (s.huf.sbase.toNat + 4)).toNat := by
  have hextra := (byteAt .ibuf s.ibuf (s.huf.sbase.toNat + 4)).isLt
  simp only [parsedHeader, BitVec.toNat_ofNat]
  omega

/-- The parse of a source longer than 6 bytes gives the `out_length` of the function. -/
theorem parsedHeader_outLen (hsize : 6 < s.huf.slen.toNat) :
    (parsedHeader s).outLen.toNat = leAt (sourceOf s) 1 3 :=
  (leAt_slice_three (by omega)).symm

theorem walkBegun_eq_walkState (s : State) :
    walkBegun s = walkState (walkBegun s)
      { pos := 0, entry := byteAt .ibuf s.ibuf (s.huf.sbase.toNat + 5), out := [] } 0 := by
  have hchunk : (walkBegun s).huf.magIdx.toNat + 4 * (0 / 32) =
      6 + 2 * (byteAt .ibuf s.ibuf (s.huf.sbase.toNat + 4)).toNat := parsedHeader_magIdx s
  simp only [walkState, cursorAt, hchunk]
  rfl

theorem walkBegun_ready (hready : InitReady s)
    (hroom : 6 + 2 * (byteAt .ibuf s.ibuf (s.huf.sbase.toNat + 4)).toNat < s.huf.slen.toNat) :
    WalkReady (walkBegun s) where
  inputs := hready.inputs
  phase := rfl
  source := hready.source
  extra := (byteIn_sourceOf (s := s) (i := 4) (by omega)).symm
  magIdx := parsedHeader_magIdx s
  tree := (parsedHeader_magIdx s).trans_lt hroom
  obase := hready.obase

/-! ### The frames of the four kinds of end -/

theorem decodeFrame_unparsed (hready : InitReady s) (hrejected : RejectedUnparsed (sourceOf s)) : DecodeFrame s s where
  rest := rfl
  obase := rfl
  kept := fun _ _ => rfl
  spoiled := by rw [spoiledBytes, hready.phase]; exact Nat.le_add_right _ _
  unparsed := fun _ => rfl
  parsed := fun h => absurd hrejected h

theorem decodeFrame_parsed (hready : InitReady s) (hsize : 6 < s.huf.slen.toNat)
    (haccepted : ¬ RejectedUnparsed (sourceOf s)) : DecodeFrame s { s with huf := parsedHeader s } where
  rest := rfl
  obase := rfl
  kept := fun _ _ => rfl
  spoiled := by simp only [spoiledBytes, hready.phase]; exact Nat.le_add_right _ _
  unparsed := fun h => absurd h haccepted
  parsed := fun _ => parsedHeader_outLen hsize

theorem decodeFrame_walkState {w : Walk} (j : Nat) (hsize : 6 < s.huf.slen.toNat)
    (haccepted : ¬ RejectedUnparsed (sourceOf s)) (hlen : w.out.length ≤ (parsedHeader s).outLen.toNat) :
    DecodeFrame s (walkState (walkBegun s) w j) where
  rest := rfl
  obase := rfl
  kept := fun _ ha => byteAt_putAll_outside .obuf w.out s.obuf
    (ha.imp_right fun h => Nat.le_trans (Nat.add_le_add_left hlen _) h)
  spoiled := Nat.le_refl _
  unparsed := fun h => absurd h haccepted
  parsed := fun _ => parsedHeader_outLen hsize

/-- What the walk comes to, seen from the `HUF_INIT` step before it. -/
theorem decodeReports_of_reports {r : Result} (hsize : 6 < s.huf.slen.toNat)
    (haccepted : ¬ RejectedUnparsed (sourceOf s)) (hbegun : step s = .next (walkBegun s))
    (h : Reports (walkBegun s) (walkBegun s) r) : DecodeReports s r := by
  cases r with
  | ok bytes =>
    obtain ⟨w, j, hout, hlen, hrun⟩ := h
    subst hout
    exact ⟨walkState (walkBegun s) w j, decodeFrame_walkState j hsize haccepted hlen.le, hlen.symm, rfl,
      (Reaches.of_step hbegun).trans hrun⟩
  | err e k =>
    obtain ⟨he, hk, w, j, hlen, hrun⟩ := h
    exact ⟨he, hk, walkState (walkBegun s) w j, decodeFrame_walkState j hsize haccepted hlen,
      (Reaches.of_step hbegun).trans hrun⟩
  | refused => exact h.elim

end

/-- The walk from its first bit (R127, R128). -/
theorem reports_walkBegun {s : State} (hready : InitReady s)
    (hextra : byteIn (sourceOf s) 4 = byteAt .ibuf s.ibuf (s.huf.sbase.toNat + 4)) (hsize : 6 < s.huf.slen.toNat)
    (hroom : 6 + 2 * (byteIn (sourceOf s) 4).toNat < s.huf.slen.toNat) (hnonempty : leAt (sourceOf s) 1 3 ≠ 0) :
    Reports (walkBegun s) (walkBegun s)
      (walkChunks (sourceOf s) (leAt (sourceOf s) 1 3) ((sourceOf s).drop (6 + 2 * (byteIn (sourceOf s) 4).toNat))
        { pos := 0, entry := byteAt .ibuf s.ibuf (s.huf.sbase.toNat + 5), out := [] }) := by
  have hlen : (walkBegun s).huf.outLen.toNat = leAt (sourceOf s) 1 3 := parsedHeader_outLen hsize
  have hmag : (walkBegun s).huf.magIdx.toNat = 6 + 2 * (byteIn (sourceOf s) 4).toNat := by
    rw [hextra]
    exact parsedHeader_magIdx s
  have hwalking : Walking (walkBegun s)
      { pos := 0, entry := byteAt .ibuf s.ibuf (s.huf.sbase.toNat + 5), out := [] } :=
    ⟨Nat.zero_le _, (Nat.pos_of_ne_zero hnonempty).trans_eq hlen.symm⟩
  have hwalk := reports_walkChunks (walkBegun_ready hready (hextra ▸ hroom)) (q := 0) hwalking
    (hmag.trans_le hroom.le) rfl
  rw [Nat.mul_zero, Nat.add_zero, ← walkBegun_eq_walkState, hmag, hlen] at hwalk
  exact hwalk

/-- A decode is the function `hdec` of its source (R140). -/
theorem decodeReports_hdecFn {s : State} (hready : InitReady s) : DecodeReports s (hdecFn (sourceOf s)) := by
  have hstep := step_initReady hready
  rw [hdecFn]
  by_cases hshort : (sourceOf s).length ≤ 6
  · rw [if_pos hshort] at hstep ⊢
    exact ⟨Failure.noConfusion, by decide, s, decodeFrame_unparsed hready (.inl hshort), Reaches.of_step hstep⟩
  have hsize : 6 < s.huf.slen.toNat := by rw [← sourceOf_length]; omega
  have hdiscr : byteIn (sourceOf s) 0 = byteAt .ibuf s.ibuf s.huf.sbase.toNat :=
    byteIn_sourceOf (s := s) (by omega)
  have hextra : byteIn (sourceOf s) 4 = byteAt .ibuf s.ibuf (s.huf.sbase.toNat + 4) := byteIn_sourceOf (by omega)
  have hroot : byteIn (sourceOf s) 5 = byteAt .ibuf s.ibuf (s.huf.sbase.toNat + 5) := byteIn_sourceOf (by omega)
  rw [if_neg hshort, ← hdiscr] at hstep
  rw [if_neg hshort, Config.DISCR]
  by_cases hformat : byteIn (sourceOf s) 0 ≠ 0x28#8
  · rw [if_pos hformat] at hstep ⊢
    exact ⟨Failure.noConfusion, by decide, s, decodeFrame_unparsed hready (.inr hformat), Reaches.of_step hstep⟩
  have haccepted : ¬ RejectedUnparsed (sourceOf s) := fun h => h.elim hshort hformat
  rw [if_neg hformat, ← hextra] at hstep
  rw [if_neg hformat, hroot]
  dsimp only
  by_cases hnoRoom : (sourceOf s).length ≤ 6 + 2 * (byteIn (sourceOf s) 4).toNat
  · rw [if_pos hnoRoom] at hstep ⊢
    exact ⟨Failure.noConfusion, by decide, _, decodeFrame_parsed hready hsize haccepted, Reaches.of_step hstep⟩
  have houtLen : (triadAt .ibuf s (s.huf.sbase.toNat + 1)).toNat = leAt (sourceOf s) 1 3 := parsedHeader_outLen hsize
  have hzero : triadAt .ibuf s (s.huf.sbase.toNat + 1) = 0#24 ↔ leAt (sourceOf s) 1 3 = 0 := by
    rw [← houtLen, ← BitVec.toNat_inj]
    rfl
  rw [if_neg hnoRoom] at hstep ⊢
  by_cases hempty : leAt (sourceOf s) 1 3 = 0
  · rw [if_pos (hzero.mpr hempty)] at hstep
    rw [if_pos hempty]
    exact refused_of_step hstep
  rw [if_neg (mt hzero.mp hempty)] at hstep
  rw [if_neg hempty]
  rw [sourceOf_length, Nat.not_le] at hnoRoom
  exact decodeReports_of_reports hsize haccepted hstep (reports_walkBegun hready hextra hsize hnoRoom hempty)

/-! ### The operation -/

theorem hdecBegun_ready {s : State} (hinputs : s.inputs = [])
    (hfits : s.regs.argBase.toNat + s.regs.argLen.toNat ≤ Config.CAP) : InitReady (hdecBegun s) :=
  ⟨hinputs, rfl, hfits, Nat.zero_le _⟩

theorem decodeEnded_hdec {u : State} (hop : u.seq.op = .hdec) :
    decodeEnded u = State.finish { u with regs := { u.regs with resultLen := u.huf.outLen.setWidth 32 } } := if_pos hop

theorem decodeEnded_decomp {u : State} (hop : u.seq.op = .decomp) :
    decodeEnded u = { u with seq := { u.seq with phase := .lenChk } } :=
  if_neg (by rw [hop]; exact SeqOp.noConfusion)

/-- Settles O58: the command, and the decode from its `HUF_INIT` step on. -/
theorem hdecOperationIsTheFunction : Obligations.HdecOperationIsTheFunction := by
  intro s hinv hinputs hidle hfits source
  refine ⟨hdecBegun s, exec_hdec_starts hidle hfits, rfl, rfl, rfl, rfl, ?_⟩
  have hreports : DecodeReports (hdecBegun s) (hdecFn source) := decodeReports_hdecFn (hdecBegun_ready hinputs hfits)
  cases hresult : hdecFn source with
  | ok bytes =>
    rw [hresult] at hreports
    obtain ⟨u, hframe, hlen, hobuf, hrun⟩ := hreports
    rw [decodeEnded_hdec hframe.op] at hrun
    have hcount : (u.huf.outLen.setWidth 32).toNat = bytes.length := by
      rw [BitVec.toNat_setWidth_of_le (by decide), hlen]
    refine reportsResult_finished hrun (congrArg HostRegs.errCode hframe.regs) (congrArg HostRegs.errParam hframe.regs)
      hcount (slice_putAll hobuf) hframe.ibuf (fun a ha => hframe.kept a (.inr ?_))
      ⟨congrArg CrcUnit.reg hframe.crc, hframe.obase, ?_⟩
    · rw [hlen]
      exact (Nat.zero_add _).trans_le ha
    · split
      · next hrejected =>
        rw [hframe.unparsed hrejected]
        exact fun _ => rfl
      · next haccepted => exact hframe.parsed haccepted
  | err e k =>
    rw [hresult] at hreports
    obtain ⟨-, hk, u, hframe, hrun⟩ := hreports
    refine reportsResult_failed hrun hk hframe.ibuf hframe.spoiled (fun a ha => hframe.kept a (.inr ?_))
      ⟨congrArg CrcUnit.reg hframe.crc, hframe.obase, ?_⟩
    · rwa [← hframe.obase]
    · split
      · next hrejected =>
        rw [hframe.unparsed hrejected]
        exact fun _ => rfl
      · next haccepted => exact hframe.parsed haccepted
  | refused =>
    rw [hresult] at hreports
    exact hreports

end Sys2Proof.DecodeRun

/-! PROOF of O59, first part. The `DECOMP` operation up to the hand-over to the Huffman unit (42_container.md R150 to
R156, R162): the scan, the header and the preamble copy. -/

namespace Sys2Proof.ContainerRun

open Sys2Proof.Machine Sys2Proof.Runs Sys2Proof.StoredBytes Sys2Proof.ContainerUnit Sys2Proof.WalkRun
  Sys2Proof.DecodeRun

/-- The file of a `DECOMP`. -/
def fileOf (s : State) : List Byte := slice .ibuf s s.dsp.fbase.toNat s.dsp.flen.toNat

@[simp] theorem fileOf_length (s : State) : (fileOf s).length = s.dsp.flen.toNat := slice_length ..

/-- A `DECOMP` in phase `p`, with no input pending and its file inside `IBUF`. -/
structure ContainerReady (p : Phase) (s : State) : Prop where
  inputs : s.inputs = []
  phase : s.seq.phase = p
  file : s.dsp.fbase.toNat + s.dsp.flen.toNat ≤ Config.CAP

/-! ### The scan -/

/-- The scan at offset `o`. -/
def probing (s : State) (o : Nat) : State := { s with dsp := { s.dsp with probe := BitVec.ofNat 11 o } }

/-- The scan has found the marker at offset `o`. -/
def marked (s : State) (o : Nat) : State :=
  { s with
    dsp := { s.dsp with probe := BitVec.ofNat 11 o, offset := BitVec.ofNat 11 o }, seq := { s.seq with phase := .hdr } }

/-- What the scan comes to: the failure, or the `HDR` phase with a probed offset that has a word in the file. -/
def ScanReports (s t : State) : Option Nat → Prop
  | none => ∃ o, Reaches t ((probing s o).failed .sectorNotFound 0)
  | some o => o % 64 = 0 ∧ o ≤ 1024 ∧ o + 4 ≤ s.dsp.flen.toNat ∧ Reaches t (marked s o)

theorem ScanReports.of_step {s t u : State} {r : Option Nat} (hstep : step t = .next u) (h : ScanReports s u r) :
    ScanReports s t r := by
  cases r with
  | none =>
    obtain ⟨o, hrun⟩ := h
    exact ⟨o, (Reaches.of_step hstep).trans hrun⟩
  | some o =>
    obtain ⟨hstride, hlast, hword, hrun⟩ := h
    exact ⟨hstride, hlast, hword, (Reaches.of_step hstep).trans hrun⟩

section
variable {s : State} {o : Nat}

theorem step_probing (hready : ContainerReady .scan s) : step (probing s o) = runFetched (fetchScan (probing s o)) := by
  have hphase : (probing s o).seq.phase = .scan := hready.phase
  rw [step_of_noInputs (s := probing s o) hready.inputs, fetchEngine, hphase]

/-- An offset of the scan does not wrap: the last one is 1088, which is not probed. -/
theorem probing_toNat (ho : o ≤ 1088) : (probing s o).dsp.probe.toNat = o := by
  simp only [probing, BitVec.toNat_ofNat]
  omega

theorem scanExhausted_probing (ho : o ≤ 1088) :
    scanExhausted (probing s o) = true ↔ Config.SCAN_LAST < o ∨ (fileOf s).length < o + 4 := by
  rw [scanExhausted, probing_toNat ho, fileOf_length, Bool.or_eq_true, decide_eq_true_iff, decide_eq_true_iff]
  rfl

theorem step_probing_exhausted (hready : ContainerReady .scan s) (ho : o ≤ 1088)
    (hend : Config.SCAN_LAST < o ∨ (fileOf s).length < o + 4) :
    step (probing s o) = .next ((probing s o).failed .sectorNotFound 0) := by
  rw [step_probing hready, fetchScan, if_pos ((scanExhausted_probing ho).mpr hend)]
  rfl

/-- A probe takes the word of the file at its offset (R151). -/
theorem fetchScan_probing (hready : ContainerReady .scan s) (ho : o ≤ 1088)
    (hmore : ¬ (Config.SCAN_LAST < o ∨ (fileOf s).length < o + 4)) :
    fetchScan (probing s o) = .selected (.sect (wordAt .ibuf s (s.dsp.fbase.toNat + o))) (probing s o) := by
  have hfile := hready.file
  simp only [not_or, Nat.not_lt, fileOf_length] at hmore
  have hword : readLE .ibuf (fileAddr (probing s o) (probing s o).dsp.probe.toNat) 4 (probing s o) =
      .ok (wordAt .ibuf s (s.dsp.fbase.toNat + o)).toNat := by
    rw [probing_toNat ho]
    exact readLE_four (s := probing s o) (fileAddr_inside (s := probing s o) hfile hmore.2)
  have hnotExhausted : ¬ scanExhausted (probing s o) = true := by
    rw [scanExhausted_probing ho]
    simp only [not_or, Nat.not_lt, fileOf_length]
    exact hmore
  rw [fetchScan, if_neg hnotExhausted, hword, accessFetch_ok, BitVec.ofNat_toNat, BitVec.setWidth_eq]

theorem step_probing_marker (hready : ContainerReady .scan s) (ho : o ≤ 1088)
    (hmore : ¬ (Config.SCAN_LAST < o ∨ (fileOf s).length < o + 4))
    (hmarker : wordAt .ibuf s (s.dsp.fbase.toNat + o) = Config.MARKER) :
    step (probing s o) = .next (marked s o) := by
  have hdecode : decode (.sect Config.MARKER) = .ok .sectMark := by rw [decode, if_pos rfl]
  rw [step_probing hready, fetchScan_probing hready ho hmore, hmarker, runFetched_selected hdecode]
  rfl

theorem step_probing_other (hready : ContainerReady .scan s) (ho : o ≤ 1088)
    (hmore : ¬ (Config.SCAN_LAST < o ∨ (fileOf s).length < o + 4))
    (hother : wordAt .ibuf s (s.dsp.fbase.toNat + o) ≠ Config.MARKER) :
    step (probing s o) = .next (probing s (o + Config.SCAN_STRIDE)) := by
  have hnext : nextProbe (probing s o) = probing s (o + Config.SCAN_STRIDE) := by
    simp only [nextProbe, probing, BitVec.ofNat_add]
  have hdecode : decode (.sect (wordAt .ibuf s (s.dsp.fbase.toNat + o))) = .error (.notMarker _) := if_neg hother
  rw [step_probing hready, fetchScan_probing hready ho hmore, runFetched_unselected hdecode, unselected, hnext]

/-- From offset `o` on the scan is the function's (R151): the offsets left to probe are its fuel. -/
theorem scanReports_scanFn (hready : ContainerReady .scan s) {fuel : Nat} :
    ∀ {o : Nat}, o + 64 * fuel = 1088 → ScanReports s (probing s o) (scanFn (fileOf s) fuel o) := by
  induction fuel with
  | zero =>
    intro o ho
    exact ⟨o, Reaches.of_step (step_probing_exhausted hready (by omega) (.inl (by unfold Config.SCAN_LAST; omega)))⟩
  | succ fuel ih =>
    intro o ho
    have hlow : o ≤ 1088 := by omega
    rw [scanFn]
    by_cases hend : Config.SCAN_LAST < o ∨ (fileOf s).length < o + 4
    · rw [if_pos hend]
      exact ⟨o, Reaches.of_step (step_probing_exhausted hready hlow hend)⟩
    rw [if_neg hend]
    have hmore := hend
    simp only [not_or, Nat.not_lt, fileOf_length, Config.SCAN_LAST] at hmore
    obtain ⟨hlast, hword⟩ := hmore
    have hmarker : leAt (fileOf s) o 4 = Config.MARKER.toNat ↔
        wordAt .ibuf s (s.dsp.fbase.toNat + o) = Config.MARKER := by
      rw [fileOf, leAt_slice_four hword, BitVec.toNat_inj]
    by_cases hfound : wordAt .ibuf s (s.dsp.fbase.toNat + o) = Config.MARKER
    · rw [if_pos (hmarker.mpr hfound)]
      exact ⟨by omega, hlast, hword, Reaches.of_step (step_probing_marker hready hlow hend hfound)⟩
    · rw [if_neg (mt hmarker.mp hfound)]
      exact (ih (by unfold Config.SCAN_STRIDE; omega)).of_step (step_probing_other hready hlow hend hfound)

end

/-! ### The preamble copy -/

/-- The copy after `n` bytes of the preamble. -/
def copying (s : State) (n : Nat) : State :=
  { s with
    dsp := { s.dsp with cpIdx := BitVec.ofNat 11 n }, seq := { s.seq with phase := .copy }
    obuf := s.obuf.putAll 0 ((fileOf s).take n) }

section
variable {s : State}

theorem step_copying {n : Nat} (hinputs : s.inputs = []) : step (copying s n) = copyStep (copying s n) := by
  rw [step_of_noInputs (s := copying s n) hinputs]
  rfl

/-- A byte of the preamble is the file's, and goes to the same index of `OBUF` (R162). -/
theorem step_copying_byte {n : Nat} (hinputs : s.inputs = [])
    (hfile : s.dsp.fbase.toNat + s.dsp.flen.toNat ≤ Config.CAP) (hoffset : s.dsp.offset.toNat ≤ s.dsp.flen.toNat)
    (hn : n < s.dsp.offset.toNat) : step (copying s n) = .next (copying s (n + 1)) := by
  have hoffsetBits : s.dsp.offset.toNat < 2 ^ 11 := s.dsp.offset.isLt
  have hcpIdx : (copying s n).dsp.cpIdx.toNat = n := by
    simp only [copying, BitVec.toNat_ofNat]
    omega
  have hread : readByte .ibuf (fileAddr (copying s n) (copying s n).dsp.cpIdx.toNat) (copying s n) =
      .ok (byteAt .ibuf s.ibuf (s.dsp.fbase.toNat + n)) := by
    rw [hcpIdx]
    exact readByte_inside (fileAddr_inside (s := copying s n) hfile (n := 1) (Nat.lt_of_lt_of_le hn hoffset))
  have hwrite (b : Byte) : writeByte .obuf (preambleAddr (copying s n)) b (copying s n) =
      .ok ((copying s n).withMemory .obuf ((copying s n).obuf.put n b)) := by
    rw [preambleAddr, hcpIdx]
    exact writeByte_inside (by unfold Config.CAP; omega)
  have hbyte : byteAt .ibuf s.ibuf (s.dsp.fbase.toNat + n) = (fileOf s)[n]'(by rw [fileOf_length]; omega) := by
    simp [fileOf, slice]
  have htake : (fileOf s).take (n + 1) = (fileOf s).take n ++ [byteAt .ibuf s.ibuf (s.dsp.fbase.toNat + n)] := by
    rw [hbyte, List.take_concat_get']
  have hstored : (copying s n).obuf.put n (byteAt .ibuf s.ibuf (s.dsp.fbase.toNat + n)) =
      s.obuf.putAll 0 ((fileOf s).take (n + 1)) := by
    have hcount : 0 + ((fileOf s).take n).length = n := by
      rw [List.length_take, fileOf_length]
      omega
    rw [htake, ← putAll_concat, hcount]
    rfl
  have hmore : (copying s n).dsp.cpIdx.toNat < (copying s n).dsp.offset.toNat := hcpIdx.trans_lt hn
  rw [step_copying hinputs, copyStep, if_pos hmore, hread, access_ok, hwrite, access_ok, hstored]
  simp only [State.copyAdvanced, State.withMemory, copying, BitVec.ofNat_add]

theorem reaches_copying (hinputs : s.inputs = []) (hfile : s.dsp.fbase.toNat + s.dsp.flen.toNat ≤ Config.CAP)
    (hoffset : s.dsp.offset.toNat ≤ s.dsp.flen.toNat) {n : Nat} (hn : n ≤ s.dsp.offset.toNat) :
    Reaches (copying s 0) (copying s n) := by
  induction n with
  | zero => exact Reaches.refl _
  | succ n ih =>
    exact (ih (by omega)).trans (Reaches.of_step (step_copying_byte hinputs hfile hoffset hn))

/-- The whole copy, and the hand-over that ends it. -/
theorem reaches_handOver (hinputs : s.inputs = []) (hfile : s.dsp.fbase.toNat + s.dsp.flen.toNat ≤ Config.CAP)
    {o : Nat} (ho : s.dsp.offset.toNat = o) (hroom : o ≤ s.dsp.flen.toNat) :
    Reaches (copying s 0) (handOver (copying s o)) := by
  subst ho
  refine (reaches_copying hinputs hfile hroom (Nat.le_refl _)).trans (Reaches.of_step ?_)
  have hdone : ¬ (copying s s.dsp.offset.toNat).dsp.cpIdx.toNat < (copying s s.dsp.offset.toNat).dsp.offset.toNat := by
    simp [copying]
  rw [step_copying hinputs, copyStep, if_neg hdone]

end

/-! ### From the marker to the hand-over -/

/-- The state `v` in which the Huffman unit takes over from the Container unit, for a `DECOMP` that began its scan in
`s` and found the marker at offset `o`. -/
structure HandedOver (s : State) (o : Nat) (v : State) : Prop where
  ready : InitReady v
  op : v.seq.op = s.seq.op
  crc : v.crc = s.crc
  regs : v.regs = s.regs
  ibuf : v.ibuf = s.ibuf
  obuf : v.obuf = s.obuf.putAll 0 ((fileOf s).take o)
  obase : v.huf.obase.toNat = o
  source : sourceOf v = (fileOf s).drop (o + 16)
  fbase : v.dsp.fbase = s.dsp.fbase
  offset : v.dsp.offset.toNat = o
  expLen : v.dsp.expLen.toNat = leAt (fileOf s) (o + 8) 4
  expCrc : v.dsp.expCrc.toNat = leAt (fileOf s) (o + 12) 4

section
variable {s : State} {o : Nat}

theorem marked_offset (hlast : o ≤ 1024) : (marked s o).dsp.offset.toNat = o := by
  simp only [marked, BitVec.toNat_ofNat]
  omega

/-- O27 at the marker that the scan has found, in the words of the function. -/
theorem step_marked (hready : ContainerReady .scan s) (hstride : o % 64 = 0) (hlast : o ≤ 1024) :
    step (marked s o) =
      if (fileOf s).length < o + 17 then raise .bufferTooSmall 0 (marked s o)
      else if byteIn (fileOf s) (o + 16) ≠ 0x28#8 then raise .unsupportedFormat 0 (headerFromFile (marked s o))
      else .next (copying (headerFromFile (marked s o)) 0) := by
  have hoffset := marked_offset (s := s) hlast
  have hstep := hdrStepReadsHeader (marked s o) (engineTurn_of_noInputs hready.inputs) rfl
    ⟨by rw [hoffset, hstride], by rw [hoffset]; exact hlast⟩ hready.file
  rw [turnTaken_of_noInputs (s := marked s o) hready.inputs] at hstep
  dsimp only at hstep
  rw [hoffset] at hstep
  rw [fileOf_length]
  by_cases hshort : s.dsp.flen.toNat < o + 17
  · rw [if_pos hshort]
    exact hstep.trans (if_pos hshort)
  have hdiscr : byteIn (fileOf s) (o + 16) = byteAt .ibuf s.ibuf (s.dsp.fbase.toNat + (o + 16)) :=
    byteIn_slice .ibuf s _ _ (by omega)
  rw [if_neg hshort, hdiscr]
  refine (hstep.trans (if_neg hshort)).trans ?_
  rw [headerFromFile_eq, fileAddr, fileAddr, hoffset]
  rfl

/-- The registers and the copied preamble at the hand-over (R154 to R156, R162). -/
theorem handedOver_handOver (hready : ContainerReady .scan s) (hlast : o ≤ 1024)
    (hroom : o + 17 ≤ s.dsp.flen.toNat) :
    HandedOver s o (handOver (copying (headerFromFile (marked s o)) o)) := by
  have hfile := hready.file
  have hcap : Config.CAP = 33554432 := rfl
  have hoffset := marked_offset (s := s) hlast
  have hstart : (headerFromFile (marked s o)).dsp.hStart.toNat = o + 16 := by
    simp only [headerFromFile, State.headerRead_dsp, BitVec.toNat_add, hoffset, Config.OFF_HUFF, BitVec.toNat_ofNat]
    omega
  have hsbase : (handOver (copying (headerFromFile (marked s o)) o)).huf.sbase.toNat =
      s.dsp.fbase.toNat + (o + 16) := by
    change (s.dsp.fbase.toNat + (headerFromFile (marked s o)).dsp.hStart.toNat) % 2 ^ 32 = _
    rw [hstart]
    omega
  have hslen : (handOver (copying (headerFromFile (marked s o)) o)).huf.slen.toNat =
      s.dsp.flen.toNat - (o + 16) := by
    change (s.dsp.flen.toNat - (headerFromFile (marked s o)).dsp.hStart.toNat) % 2 ^ 32 = _
    rw [hstart]
    omega
  have hobase : (handOver (copying (headerFromFile (marked s o)) o)).huf.obase.toNat = o :=
    (BitVec.toNat_setWidth_of_le (by decide)).trans hoffset
  refine
    { ready := ⟨hready.inputs, rfl, ?_, hobase.trans_le hlast⟩
      op := rfl, crc := rfl, regs := rfl, ibuf := rfl, obuf := rfl, obase := hobase, source := ?_
      fbase := rfl, offset := hoffset, expLen := ?_, expCrc := ?_ }
  · rw [SourceOk, hsbase, hslen]
    omega
  · rw [sourceOf, hsbase, hslen, fileOf, slice_drop _ _ _ _ _ (by omega)]
    rfl
  · rw [fileOf, leAt_slice_four (by omega), headerFromFile_eq, fileAddr, hoffset]
    rfl
  · rw [fileOf, leAt_slice_four (by omega), headerFromFile_eq, fileAddr, fileAddr, hoffset]
    rfl

end

end Sys2Proof.ContainerRun

/-! PROOF of O59. The checks of a `DECOMP` after its decode (42_container.md R157 to R160), and the whole operation. -/

namespace Sys2Proof.DecompRun

open Sys2Proof.Machine Sys2Proof.Runs Sys2Proof.StoredBytes Sys2Proof.Commands Sys2Proof.FoldRun Sys2Proof.WalkRun
  Sys2Proof.DecodeRun Sys2Proof.ContainerRun

/-! ### The length check and the two folds -/

/-- A `DECOMP` whose decode has ended: the preamble stands in the file, the payload behind it in `OBUF`. -/
structure VerifyReady (preamble decoded : List Byte) (x : State) : Prop where
  inputs : x.inputs = []
  op : x.seq.op = .decomp
  phase : x.seq.phase = .lenChk
  iter : x.crc.iter = 0
  last : x.dsp.offset.toNat ≤ 1024
  file : x.dsp.fbase.toNat + x.dsp.offset.toNat ≤ Config.CAP
  preamble : slice .ibuf x x.dsp.fbase.toNat x.dsp.offset.toNat = preamble
  decoded : slice .obuf x x.dsp.offset.toNat x.huf.outLen.toNat = decoded

/-- The preamble fold, about to begin (R157). -/
def preambleFold (x : State) : State :=
  { x with
    crc := { x.crc with
      reg := Config.SEED, sel := .ibuf, base := x.dsp.fbase, len := x.dsp.offset.setWidth 32, idx := 0#32 }
    seq := { x.seq with phase := .crcA } }

/-- The payload fold, about to begin (R158). -/
def payloadFold (x : State) : State :=
  { x with
    crc := { x.crc with
      sel := .obuf, base := x.dsp.offset.setWidth 32, len := x.huf.outLen.setWidth 32, idx := 0#32 }
    seq := { x.seq with phase := .crcB } }

/-- The end of the preamble fold is the start of the payload fold (R108). -/
theorem foldEnded_crcA {x : State} (hop : x.seq.op = .decomp) (hphase : x.seq.phase = .crcA) :
    foldEnded x = payloadFold x := by
  rw [foldEnded, hop, if_neg SeqOp.noConfusion, if_pos hphase]
  rfl

theorem foldEnded_crcB {x : State} (hop : x.seq.op = .decomp) (hphase : x.seq.phase = .crcB) :
    foldEnded x = { x with seq := { x.seq with phase := .crcChk } } := by
  rw [foldEnded, hop, hphase, if_neg SeqOp.noConfusion, if_neg Phase.noConfusion]

section
variable {preamble decoded : List Byte} {x : State}

theorem VerifyReady.decoded_length (hready : VerifyReady preamble decoded x) :
    decoded.length = x.huf.outLen.toNat := by
  rw [← hready.decoded, slice_length]

theorem step_lenChk (hready : VerifyReady preamble decoded x) : step x = lenChkStep x := by
  rw [step_of_noInputs hready.inputs, fetchEngine, hready.phase]
  rfl

/-- The length check compares the length of the decode (R157). -/
theorem lengths_agree_iff (hready : VerifyReady preamble decoded x) :
    x.huf.outLen.setWidth 32 = x.dsp.expLen ↔ decoded.length = x.dsp.expLen.toNat := by
  rw [hready.decoded_length, ← BitVec.toNat_inj, BitVec.toNat_setWidth_of_le (by decide)]

theorem step_lenChk_fails (hready : VerifyReady preamble decoded x) (hlen : decoded.length ≠ x.dsp.expLen.toNat) :
    step x = .next (x.failed .lengthMismatch 0) := by
  rw [step_lenChk hready, lenChkStep, if_pos (mt (lengths_agree_iff hready).mp hlen)]
  rfl

theorem step_lenChk_passes (hready : VerifyReady preamble decoded x) (hlen : decoded.length = x.dsp.expLen.toNat) :
    step x = .next (preambleFold x) := by
  rw [step_lenChk hready, lenChkStep, if_neg (not_not_intro ((lengths_agree_iff hready).mpr hlen))]
  rfl

/-- The two folds chain the register over the preamble and the payload, and nothing but the Checksum unit and the phase
changes (R157, R158). -/
theorem reaches_crcChk (hready : VerifyReady preamble decoded x) (hlen : decoded.length = x.dsp.expLen.toNat) :
    ∃ c : CrcUnit, c.reg = crc32Fn (crc32Fn Config.SEED preamble) decoded ∧
      Reaches x { x with crc := c, seq := { x.seq with phase := .crcChk } } := by
  have hoffset : (x.dsp.offset.setWidth 32).toNat = x.dsp.offset.toNat := BitVec.toNat_setWidth_of_le (by decide)
  have houtLen : (x.huf.outLen.setWidth 32).toNat = x.huf.outLen.toNat := BitVec.toNat_setWidth_of_le (by decide)
  have hfoldA : FoldReady (preambleFold x) :=
    ⟨hready.inputs, .inl rfl, hready.iter, by
      change x.dsp.fbase.toNat + (x.dsp.offset.setWidth 32).toNat ≤ Config.CAP
      rw [hoffset]
      exact hready.file⟩
  obtain ⟨wA, hwA⟩ := runSteps_foldEnded hfoldA rfl
  rw [foldEnded_crcA (x := wholeFolded wA (preambleFold x)) hready.op rfl] at hwA
  have hfoldB : FoldReady (payloadFold (wholeFolded wA (preambleFold x))) :=
    ⟨hready.inputs, .inr rfl, hready.iter, by
      have hlast := hready.last
      have hbits : x.huf.outLen.toNat < 16777216 := x.huf.outLen.isLt
      change (x.dsp.offset.setWidth 32).toNat + (x.huf.outLen.setWidth 32).toNat ≤ Config.CAP
      rw [hoffset, houtLen, Config.CAP]
      omega⟩
  obtain ⟨wB, hwB⟩ := runSteps_foldEnded hfoldB rfl
  rw [foldEnded_crcB (x := wholeFolded wB (payloadFold (wholeFolded wA (preambleFold x)))) hready.op rfl] at hwB
  refine ⟨_, ?_, (Reaches.of_step (step_lenChk_passes hready hlen)).trans (Reaches.trans ⟨_, hwA⟩ ⟨_, hwB⟩)⟩
  change crc32Fn (crc32Fn Config.SEED (slice .ibuf x x.dsp.fbase.toNat (x.dsp.offset.setWidth 32).toNat))
    (slice .obuf x (x.dsp.offset.setWidth 32).toNat (x.huf.outLen.setWidth 32).toNat) = _
  rw [hoffset, houtLen, hready.preamble, hready.decoded]

theorem step_crcChk (hinputs : x.inputs = []) (hphase : x.seq.phase = .crcChk) : step x = crcChkStep x := by
  rw [step_of_noInputs hinputs, fetchEngine, hphase]
  rfl

end

/-! ### What else is asked of the last state -/

/-- What O59 says of `CRC.REG` in the last state of a `DECOMP` that began with `reg` in it. -/
def RegisterReported (file : List Byte) (reg : Word) (t : State) : Prop :=
  if t.regs.errCode = none ∨ t.regs.errCode = some .checksumMismatch then
    (t.regs.errCode = none → t.crc.reg = ~~~t.dsp.expCrc) ∧
    ∃ decoded, hdecFn (file.drop (t.dsp.offset.toNat + 16)) = .ok decoded ∧
      t.crc.reg = crc32Fn (crc32Fn 0xFFFFFFFF#32 (file.take t.dsp.offset.toNat)) decoded
  else t.crc.reg = reg

/-- Any failure but `ChecksumMismatch` leaves the register as it was. -/
theorem registerReported_failed {file : List Byte} {reg : Word} {u : State} {e : Failure} (k : Nat)
    (he : e ≠ .checksumMismatch) (hreg : u.crc.reg = reg) : RegisterReported file reg (u.failed e k) := by
  have hcode : ¬ ((u.failed e k).regs.errCode = none ∨ (u.failed e k).regs.errCode = some .checksumMismatch) := by
    simp [he]
  rw [RegisterReported, if_neg hcode]
  exact hreg

/-- The chained register stays, whether or not its complement is the expected checksum. -/
theorem registerReported_chained {file decoded : List Byte} {reg : Word} {t : State}
    (hcode : t.regs.errCode = none ∨ t.regs.errCode = some .checksumMismatch)
    (hagrees : t.regs.errCode = none → ~~~t.crc.reg = t.dsp.expCrc)
    (hdecoded : hdecFn (file.drop (t.dsp.offset.toNat + 16)) = .ok decoded)
    (hchained : t.crc.reg = crc32Fn (crc32Fn Config.SEED (file.take t.dsp.offset.toNat)) decoded) :
    RegisterReported file reg t := by
  rw [RegisterReported, if_pos hcode]
  exact ⟨fun h => by rw [← hagrees h, BitVec.not_not], decoded, hdecoded, hchained⟩

/-! ### The parts of the operation -/

/-- A `DECOMP` whose command has just been taken. -/
structure DecompReady (s : State) : Prop where
  container : ContainerReady .scan s
  op : s.seq.op = .decomp
  iter : s.crc.iter = 0
  errCode : s.regs.errCode = none
  errParam : s.regs.errParam = 0#32

section
variable {s : State}

/-- A failure before the copy: no byte of `OBUF` has been written, and none becomes unspecified (R233). -/
theorem reportsResult_failedEarly {u : State} {e : Failure} (hrun : Reaches s (u.failed e 0))
    (hphase : u.seq.phase = .scan ∨ u.seq.phase = .hdr) (hibuf : u.ibuf = s.ibuf) (hobuf : u.obuf = s.obuf)
    (he : e ≠ .checksumMismatch) (hcrc : u.crc = s.crc) :
    ReportsResult s (RegisterReported (fileOf s) s.crc.reg) (.err e 0) := by
  have hspoiled : spoiledBytes u = 0 := by
    rcases hphase with h | h <;> rw [spoiledBytes, h]
  refine reportsResult_failed hrun (by decide) hibuf ?_ (fun a _ => by rw [hobuf])
    (registerReported_failed 0 he (by rw [hcrc]))
  rw [hspoiled]
  exact Nat.zero_le _

theorem preamble_length {o : Nat} (hroom : o ≤ s.dsp.flen.toNat) : ((fileOf s).take o).length = o := by
  rw [List.length_take, fileOf_length, Nat.min_eq_left hroom]

variable {v u : State} {o : Nat} (hv : HandedOver s o v) (hroom : o ≤ s.dsp.flen.toNat) (hu : DecodeFrame v u)
include hv hroom hu

/-- Above the payload `OBUF` is as it was when the command was taken: the copy wrote below the payload. -/
theorem obuf_kept {a : Nat} (ha : u.huf.obase.toNat + u.huf.outLen.toNat ≤ a) :
    byteAt .obuf u.obuf a = byteAt .obuf s.obuf a := by
  have hobase : u.huf.obase.toNat = o := by rw [hu.obase, hv.obase]
  have hpreamble := preamble_length hroom
  rw [hu.kept a (.inr (by rwa [← hu.obase])), hv.obuf, byteAt_putAll_outside .obuf _ _ (.inr (by omega))]

/-- A failure of the decode. -/
theorem reportsResult_decodeFailed {e : Failure} {k : Nat} (hrun : Reaches s (u.failed e k)) (hk : k < 2 ^ 32)
    (he : e ≠ .checksumMismatch) : ReportsResult s (RegisterReported (fileOf s) s.crc.reg) (.err e k) :=
  reportsResult_failed hrun hk (hu.ibuf.trans hv.ibuf) hu.spoiled (fun _ ha => obuf_kept hv hroom hu ha)
    (registerReported_failed k he (by rw [hu.crc, hv.crc]))

end

/-! ### After a clean decode -/

/-- The `LENCHK` phase `x` of a `DECOMP` that began in `s` and found its marker at offset `o`, after a clean decode. -/
structure CleanlyDecoded (s : State) (o : Nat) (decoded : List Byte) (x : State) : Prop where
  run : Reaches s x
  verify : VerifyReady ((fileOf s).take o) decoded x
  isDecode : hdecFn ((fileOf s).drop (o + 16)) = .ok decoded
  offset : x.dsp.offset.toNat = o
  expLen : x.dsp.expLen.toNat = leAt (fileOf s) (o + 8) 4
  expCrc : x.dsp.expCrc.toNat = leAt (fileOf s) (o + 12) 4
  crc : x.crc = s.crc
  regs : x.regs = s.regs
  ibuf : x.ibuf = s.ibuf
  obuf : x.obuf = s.obuf.putAll 0 ((fileOf s).take o ++ decoded)
  length : ((fileOf s).take o ++ decoded).length = o + x.huf.outLen.toNat
  obase : x.huf.obase.toNat = o

theorem cleanlyDecoded_decodeEnded {s v u : State} {o : Nat} {decoded : List Byte} (hready : DecompReady s)
    (hv : HandedOver s o v) (hlast : o ≤ 1024) (hroom : o ≤ s.dsp.flen.toNat) (hu : DecodeFrame v u)
    (hlen : u.huf.outLen.toNat = decoded.length) (hobuf : u.obuf = v.obuf.putAll v.huf.obase.toNat decoded)
    (hdecode : hdecFn ((fileOf s).drop (o + 16)) = .ok decoded) (hrun : Reaches s (decodeEnded u)) :
    CleanlyDecoded s o decoded (decodeEnded u) := by
  have hop : u.seq.op = .decomp := by rw [hu.op, hv.op, hready.op]
  have hoffset : u.dsp.offset.toNat = o := by rw [hu.dsp, hv.offset]
  have hfbase : u.dsp.fbase = s.dsp.fbase := by rw [hu.dsp, hv.fbase]
  have hibuf : u.ibuf = s.ibuf := hu.ibuf.trans hv.ibuf
  have hcrc : u.crc = s.crc := hu.crc.trans hv.crc
  have hfile := hready.container.file
  have hbase : v.huf.obase.toNat = 0 + ((fileOf s).take o).length := by
    rw [hv.obase, preamble_length hroom, Nat.zero_add]
  rw [decodeEnded_decomp hop] at hrun ⊢
  refine
    { run := hrun, isDecode := hdecode, offset := hoffset, expLen := by rw [hu.dsp, hv.expLen]
      expCrc := by rw [hu.dsp, hv.expCrc], crc := hcrc, regs := hu.regs.trans hv.regs, ibuf := hibuf
      obuf := by rw [hobuf, hv.obuf, hbase, putAll_append]
      length := by rw [List.length_append, preamble_length hroom, hlen]
      obase := by rw [hu.obase, hv.obase]
      verify :=
        { inputs := hu.inputs.trans hv.ready.inputs, op := hop, phase := rfl, iter := by rw [hcrc, hready.iter]
          last := hoffset.trans_le hlast, file := ?_, preamble := ?_, decoded := ?_ } }
  · rw [hfbase, hoffset]
    omega
  · rw [hfbase, hoffset, fileOf, slice_take _ _ _ _ _ hroom]
    exact slice_congr fun i _ => by rw [State.memory_ibuf, State.memory_ibuf, hibuf]
  · rw [hoffset, hlen, ← hv.obase]
    exact slice_putAll hobuf

section
variable {s x : State} {o : Nat} {decoded : List Byte} (h : CleanlyDecoded s o decoded x)
include h

theorem CleanlyDecoded.kept {a : Nat} (ha : x.huf.obase.toNat + x.huf.outLen.toNat ≤ a) :
    byteAt .obuf x.obuf a = byteAt .obuf s.obuf a := by
  have hlength := h.length
  have hobase := h.obase
  rw [h.obuf, byteAt_putAll_outside .obuf _ _ (.inr (by omega))]

/-- The length check fails (R157). -/
theorem reportsResult_lengthMismatch (hlen : decoded.length ≠ x.dsp.expLen.toNat) :
    ReportsResult s (RegisterReported (fileOf s) s.crc.reg) (.err .lengthMismatch 0) := by
  have hspoiled : spoiledBytes x ≤ x.huf.obase.toNat + x.huf.outLen.toNat := by
    rw [spoiledBytes, h.verify.phase]
  exact reportsResult_failed (h.run.trans (Reaches.of_step (step_lenChk_fails h.verify hlen))) (by decide) h.ibuf
    hspoiled (fun _ ha => h.kept ha) (registerReported_failed 0 Failure.noConfusion (by rw [h.crc]))

/-- The checksum check after the two folds (R158 to R160): the failure, or the result. -/
theorem reportsResult_checksum (hready : DecompReady s) (hlen : decoded.length = x.dsp.expLen.toNat) :
    ReportsResult s (RegisterReported (fileOf s) s.crc.reg)
      (if (~~~(crc32Fn (crc32Fn Config.SEED ((fileOf s).take o)) decoded)).toNat ≠ x.dsp.expCrc.toNat then
        .err .checksumMismatch 0
      else .ok ((fileOf s).take o ++ decoded)) := by
  obtain ⟨c, hchained, hfolds⟩ := reaches_crcChk h.verify hlen
  let y : State := { x with crc := c, seq := { x.seq with phase := .crcChk } }
  have hcheck : step y = crcChkStep y := step_crcChk h.verify.inputs rfl
  have hdecode : hdecFn ((fileOf s).drop (x.dsp.offset.toNat + 16)) = .ok decoded := by rw [h.offset, h.isDecode]
  have hreg : c.reg = crc32Fn (crc32Fn Config.SEED ((fileOf s).take x.dsp.offset.toNat)) decoded := by
    rw [h.offset, hchained]
  have hcode : x.regs.errCode = none := by rw [h.regs, hready.errCode]
  rw [← hchained]
  by_cases hagrees : ~~~c.reg = x.dsp.expCrc
  case neg =>
    rw [if_pos (mt BitVec.toNat_inj.mp hagrees)]
    rw [crcChkStep, if_pos hagrees] at hcheck
    exact reportsResult_failed ((h.run.trans hfolds).trans (Reaches.of_step hcheck)) (by decide) h.ibuf (Nat.le_refl _)
      (fun _ ha => h.kept ha)
      (registerReported_chained (.inr rfl) (fun hnone => absurd hnone (Option.some_ne_none _)) hdecode hreg)
  rw [if_neg (not_not_intro (BitVec.toNat_inj.mpr hagrees))]
  rw [crcChkStep, if_neg (not_not_intro hagrees)] at hcheck
  have hlength := h.length
  refine reportsResult_finished ((h.run.trans hfolds).trans (Reaches.of_step hcheck)) hcode
    (by rw [h.regs, hready.errParam]) ?_ (slice_putAll h.obuf) h.ibuf (fun a ha => ?_)
    (registerReported_chained (.inl hcode) (fun _ => hagrees) hdecode hreg)
  · have hlast := h.verify.last
    have hoffset := h.offset
    have hbits : x.huf.outLen.toNat < 2 ^ 24 := x.huf.outLen.isLt
    change (x.dsp.offset.setWidth 32 + x.huf.outLen.setWidth 32).toNat = _
    rw [hlength, BitVec.toNat_add, BitVec.toNat_setWidth_of_le (by decide), BitVec.toNat_setWidth_of_le (by decide)]
    omega
  · exact h.kept (by rw [h.obase]; omega)

/-- The two checks, and the result behind the preamble (R157 to R160). -/
theorem reportsResult_verifyFn (hready : DecompReady s) :
    ReportsResult s (RegisterReported (fileOf s) s.crc.reg)
      (verifyFn ((fileOf s).take o) decoded (leAt (fileOf s) (o + 8) 4) (leAt (fileOf s) (o + 12) 4)) := by
  rw [verifyFn, ← h.expLen, ← h.expCrc]
  by_cases hlen : decoded.length = x.dsp.expLen.toNat
  · rw [if_neg (not_not_intro hlen)]
    exact reportsResult_checksum h hready hlen
  · rw [if_pos hlen]
    exact reportsResult_lengthMismatch h hlen

end

/-! ### The operation -/

/-- What `decompress` makes of the result of its decode (R156 to R160). -/
def resultAfterDecode (file : List Byte) (o : Nat) : Result → Result
  | .err e k => .err e k
  | .refused => .refused
  | .ok decoded => verifyFn (file.take o) decoded (leAt file (o + 8) 4) (leAt file (o + 12) 4)

theorem decompressFn_of_notFound {file : List Byte} (h : scanFn file 17 0 = none) :
    decompressFn file = .err .sectorNotFound 0 := by
  rw [decompressFn, h]

theorem decompressFn_of_found {file : List Byte} {o : Nat} (h : scanFn file 17 0 = some o) :
    decompressFn file =
      if file.length < o + 17 then .err .bufferTooSmall 0
      else if byteIn file (o + 16) ≠ 0x28#8 then .err .unsupportedFormat 0
      else resultAfterDecode file o (hdecFn (file.drop (o + 16))) := by
  rw [decompressFn, h]
  rfl

section
variable {s : State} (hready : DecompReady s)
include hready

theorem reportsResult_handedOver {v : State} {o : Nat} (hv : HandedOver s o v) (hlast : o ≤ 1024)
    (hroom : o ≤ s.dsp.flen.toNat) (hhanded : Reaches s v) :
    ReportsResult s (RegisterReported (fileOf s) s.crc.reg)
      (resultAfterDecode (fileOf s) o (hdecFn ((fileOf s).drop (o + 16)))) := by
  have hdecode := decodeReports_hdecFn hv.ready
  rw [hv.source] at hdecode
  cases hresult : hdecFn ((fileOf s).drop (o + 16)) with
  | ok decoded =>
    rw [hresult] at hdecode
    obtain ⟨u, hu, hlen, hobuf, hrun⟩ := hdecode
    exact reportsResult_verifyFn
      (cleanlyDecoded_decodeEnded hready hv hlast hroom hu hlen hobuf hresult (hhanded.trans hrun)) hready
  | err e k =>
    rw [hresult] at hdecode
    obtain ⟨he, hk, u, hu, hrun⟩ := hdecode
    exact reportsResult_decodeFailed hv hroom hu (hhanded.trans hrun) hk he
  | refused =>
    rw [hresult] at hdecode
    exact hhanded.refused hdecode

/-- From the marker on: the header's two checks, or the hand-over (R153, R155). -/
theorem reportsResult_marked {o : Nat} (hstride : o % 64 = 0) (hlast : o ≤ 1024) (hmarked : Reaches s (marked s o)) :
    ReportsResult s (RegisterReported (fileOf s) s.crc.reg)
      (if (fileOf s).length < o + 17 then .err .bufferTooSmall 0
      else if byteIn (fileOf s) (o + 16) ≠ 0x28#8 then .err .unsupportedFormat 0
      else resultAfterDecode (fileOf s) o (hdecFn ((fileOf s).drop (o + 16)))) := by
  have hcontainer := hready.container
  have hstep := step_marked hcontainer hstride hlast
  by_cases hshort : (fileOf s).length < o + 17
  · rw [if_pos hshort] at hstep ⊢
    exact reportsResult_failedEarly (hmarked.trans (Reaches.of_step hstep)) (.inr rfl) rfl rfl Failure.noConfusion rfl
  rw [if_neg hshort] at hstep ⊢
  by_cases hformat : byteIn (fileOf s) (o + 16) ≠ 0x28#8
  · rw [if_pos hformat] at hstep ⊢
    exact reportsResult_failedEarly (hmarked.trans (Reaches.of_step hstep)) (.inr rfl) rfl rfl Failure.noConfusion rfl
  rw [if_neg hformat] at hstep ⊢
  rw [fileOf_length, Nat.not_lt] at hshort
  have hroom : o ≤ s.dsp.flen.toNat := by omega
  have hcopy := reaches_handOver (s := ContainerUnit.headerFromFile (marked s o)) hcontainer.inputs hcontainer.file
    (marked_offset (s := s) hlast) hroom
  exact reportsResult_handedOver hready (handedOver_handOver hcontainer hlast hshort) hlast hroom
    ((hmarked.trans (Reaches.of_step hstep)).trans hcopy)

/-- A `DECOMP` is the function `decompress` of its file (R161). -/
theorem reportsResult_decompressFn (hprobe : s.dsp.probe = 0#11) :
    ReportsResult s (RegisterReported (fileOf s) s.crc.reg) (decompressFn (fileOf s)) := by
  have hstart : probing s 0 = s := by
    change { s with dsp := { s.dsp with probe := 0#11 } } = s
    rw [← hprobe]
  have hscan := scanReports_scanFn hready.container (fuel := 17) (o := 0) rfl
  rw [hstart] at hscan
  cases hfound : scanFn (fileOf s) 17 0 with
  | none =>
    rw [hfound] at hscan
    obtain ⟨o, hrun⟩ := hscan
    rw [decompressFn_of_notFound hfound]
    exact reportsResult_failedEarly hrun (.inl hready.container.phase) rfl rfl Failure.noConfusion rfl
  | some o =>
    rw [hfound] at hscan
    obtain ⟨hstride, hlast, -, hmarked⟩ := hscan
    rw [decompressFn_of_found hfound]
    exact reportsResult_marked hready hstride hlast hmarked

end

theorem decompBegun_ready {s : State} (hinv : Inv s) (hinputs : s.inputs = []) (hidle : s.status.busy = false)
    (hfits : s.regs.argBase.toNat + s.regs.argLen.toNat ≤ Config.CAP) : DecompReady (decompBegun s) :=
  ⟨⟨hinputs, rfl, hfits⟩, rfl, iter_of_notBusy (s := s) hinv hidle, rfl, rfl⟩

/-- Settles O59: the command, and the operation from its first probe on. -/
theorem decompOperationIsTheFunction : Obligations.DecompOperationIsTheFunction := by
  intro s hinv hinputs hidle hfits file
  exact ⟨decompBegun s, exec_decomp_starts hidle hfits, rfl, rfl, rfl, rfl,
    reportsResult_decompressFn (decompBegun_ready hinv hinputs hidle hfits) rfl⟩

end Sys2Proof.DecompRun

/-! PROOF of O42. The failure result (60_exceptions.md R200): the state that `raise E(n)` leaves, as the host reads it. -/

namespace Sys2Proof.FailureResult

open Sys2Proof.Machine

/-- Register number 2 is `ERRCODE` (10_state.md R40, R43). -/
theorem readHostReg_errCode (s : State) : readHostReg 2 s = (errCodeWord s.regs.errCode).setWidth 32 := rfl

theorem readHostReg_errCode_failed (e : Failure) (n : Nat) (s : State) :
    readHostReg 2 (s.failed e n) = (failureCode e).setWidth 32 := by
  rw [readHostReg_errCode, State.failed_regs, errCodeWord]

/-- A parameter that fits `ERRPARAM` is recorded whole. -/
theorem failed_errParam_toNat (e : Failure) {n : Nat} (s : State) (hn : n < 2 ^ 32) :
    (s.failed e n).regs.errParam.toNat = n := by
  rw [State.failed_regs, BitVec.toNat_ofNat, Nat.mod_eq_of_lt hn]

/-- Settles O42: the answer is `State.failed`. The code and the parameter are read back from their registers; what is left
is the flags of a failed finishing step and the fields that `State.failed` does not write. -/
theorem raiseRecordsTheFailure : Obligations.RaiseRecordsTheFailure := by
  intro e n s hn
  refine ⟨s.failed e n, rfl, readHostReg_errCode_failed e n s, failed_errParam_toNat e s hn, ?_⟩
  simp only [State.failed_regs, State.failed_status, flagsEnded_err, flagsEnded_done, flagsEnded_busy, flagsEnded_illCmd,
    State.failed_seq, State.failed_crc, State.failed_huf, State.failed_dsp, State.failed_ibuf, State.failed_inputs,
    State.failed_reply, and_self]

end Sys2Proof.FailureResult

/-! PROOF of O44 and O45. Reset (70_reset_and_hazards.md R220, R221): what the reset input leaves in every register, and
what the host reads of the state it leaves. -/

namespace Sys2Proof.Reset

open Sys2Proof.Machine Sys2Proof.HostWrites

/-- Settles O44: the step of the reset input answers `State.afterReset`, whose registers are those of `State.reset`. -/
theorem resetInputRestoresRegisters : Obligations.ResetInputRestoresRegisters := by
  intro s rest hinputs
  refine ⟨_, step_reset hinputs, ?_⟩
  simp only [State.afterReset_crc, State.afterReset_huf, State.afterReset_dsp, State.afterReset_seq,
    State.afterReset_status, State.afterReset_regs, State.afterReset_inputs, and_self]

/-- The table of R221 as the host sees it: the checksum register holds its seed, the polynomial is hardwired, and every
other register reads 0; `CRC_FIN` does so as the complement of the seed. -/
theorem hostRegValue_reset (r : HostReg) :
    hostRegValue State.reset r =
      match r with
      | .crcReg => 0xFFFFFFFF#32
      | .crcPoly => 0xEDB88320#32
      | _ => 0#32 := by
  cases r <;> rfl

/-- After reset every register number but those of `CRC_REG` and `CRC_POLY` reads 0, also the numbers that name none. -/
theorem readHostReg_reset_zero {n : Nat} (hcrc : n ≠ 6) (hpoly : n ≠ 7) : readHostReg n State.reset = 0#32 := by
  unfold readHostReg
  cases hreg : hostReg n with
  | none => rfl
  | some r =>
    have hnumber := number_of_hostReg hreg
    cases r with
    | crcReg => exact absurd hnumber hcrc
    | crcPoly => exact absurd hnumber hpoly
    | _ => exact hostRegValue_reset _

theorem readHostReg_reset_crcReg : readHostReg 6 State.reset = 0xFFFFFFFF#32 := hostRegValue_reset .crcReg

theorem readHostReg_reset_crcPoly : readHostReg 7 State.reset = 0xEDB88320#32 := hostRegValue_reset .crcPoly

/-- Settles O45: the registers the host reads, by their numbers, and those it does not, which are fields of
`State.reset`. -/
theorem resetStateIsTheSpecsReset : Obligations.ResetStateIsTheSpecsReset := by
  refine ⟨rfl, rfl, rfl, ?_, ?_, ?_, ?_, ?_, readHostReg_reset_crcReg, readHostReg_reset_crcPoly, ?_, ?_,
    rfl, rfl, rfl, rfl, rfl, rfl⟩
  all_goals exact readHostReg_reset_zero (by decide) (by decide)

end Sys2Proof.Reset

/-! PROOF of O1 to O5 and O7. The decoder and the encoder (30_encoding.md section 3): each is the other's inverse, and
the decoder is the opcode table. -/

namespace Sys2Proof.Codec

open Sys2Proof.Machine Sys2Proof.CommandWords Sys2Proof.HuffmanUnit

/-! ### Decoding an encoding -/

theorem decode_sect (v : Word) :
    decode (.sect v) = if v = Config.MARKER then .ok .sectMark else .error (.notMarker v) := rfl

theorem decode_desc (d : Byte) :
    decode (.desc d) = if d = Config.DISCR then .ok .descHuff8 else .error (.notHuff8 d) := rfl

/-- A walk value made from the fields of a row is that row again, the offset field being wide enough. -/
theorem decode_walkValue {off : Nat} (b tagL tagR : Bool) (h : offsetFits off = true) :
    decode (.walk (walkValue b tagL tagR off)) = .ok (walkRow b tagL tagR off) :=
  congrArg Except.ok (decodeWalk_walkValue b tagL tagR (of_decide_eq_true h))

/-- Settles O3: the command words and the patterns are constants, a data byte is its own encoding, and a walk value
keeps its fields. -/
theorem decodeInvertsEncode : Obligations.DecodeInvertsEncode := by
  intro i hwf
  cases i with
  | crc32 src => cases src <;> rfl
  | hdec => rfl
  | decomp => rfl
  | crcShift => rfl
  | crcShiftXor => rfl
  | crcByte b => rfl
  | walkLNode other off => exact decode_walkValue false false other hwf
  | walkLLeaf other off => exact decode_walkValue false true other hwf
  | walkRNode other off => exact decode_walkValue true other false hwf
  | walkRLeaf other off => exact decode_walkValue true other true hwf
  | sectMark => exact (decode_sect Config.MARKER).trans (if_pos rfl)
  | descHuff8 => exact (decode_desc Config.DISCR).trans (if_pos rfl)

/-! ### Encoding what was decoded -/

theorem encode_walkRow (b tagL tagR : Bool) (off : Nat) :
    encode (walkRow b tagL tagR off) = .walk (walkValue b tagL tagR off) := by
  cases b with
  | false => cases tagL <;> rfl
  | true => cases tagR <;> rfl

theorem wellFormed_walkRow (b tagL tagR : Bool) (off : Nat) :
    WellFormed (walkRow b tagL tagR off) = offsetFits off := by
  cases b with
  | false => cases tagL <;> rfl
  | true => cases tagR <;> rfl

/-- One bit of a value, as a field of its own. -/
theorem ofBool_getLsbD {n : Nat} (v : BitVec n) (k : Nat) : BitVec.ofBool (v.getLsbD k) = v.extractLsb' k 1 := by
  ext i hi
  obtain rfl : i = 0 := by omega
  simp

/-- A walk value is made of its four fields (R83). -/
theorem walkValue_fields (v : BitVec 9) :
    walkValue (v.getLsbD 8) (v.getLsbD 7) (v.getLsbD 6) (v.extractLsb' 0 6).toNat = v := by
  have htags : v.extractLsb' 8 1 ++ v.extractLsb' 7 1 = v.extractLsb' 7 2 :=
    BitVec.extractLsb'_append_extractLsb'_eq_extractLsb' rfl
  have hhigh : v.extractLsb' 7 2 ++ v.extractLsb' 6 1 = v.extractLsb' 6 3 :=
    BitVec.extractLsb'_append_extractLsb'_eq_extractLsb' rfl
  have hall : v.extractLsb' 6 3 ++ v.extractLsb' 0 6 = v.extractLsb' 0 9 :=
    BitVec.extractLsb'_append_extractLsb'_eq_extractLsb' rfl
  simp only [walkValue, ofBool_getLsbD, BitVec.ofNat_toNat, BitVec.setWidth_eq]
  rw [htags, hhigh, hall, BitVec.extractLsb'_eq_self]

theorem wellFormed_of_encode_eq_cmd {i : Instr} {v : Word} (h : encode i = .cmd v) : WellFormed i = true := by
  cases i with
  | crc32 src => rfl
  | hdec => rfl
  | decomp => rfl
  | _ => cases h

/-- Settles O4: format by format; a command word that decodes is an encoding (O6), and a walk value is made of its
fields. -/
theorem encodeInvertsDecode : Obligations.EncodeInvertsDecode := by
  intro sel i hdecode
  cases sel with
  | cmd v =>
    rcases decodeCmd_cases v with ⟨j, hok, hencode⟩ | herr
    · cases hok.symm.trans hdecode
      exact ⟨wellFormed_of_encode_eq_cmd hencode, hencode⟩
    · cases herr.symm.trans hdecode
  | crcw w0 =>
    cases hdecode
    have hbit : w0 = 0#1 ∨ w0 = 1#1 := by revert w0; decide
    rcases hbit with rfl | rfl
    · exact ⟨rfl, rfl⟩
    · exact ⟨rfl, rfl⟩
  | data b => cases hdecode; exact ⟨rfl, rfl⟩
  | walk v =>
    cases hdecode
    rw [decodeWalk_eq_walkRow, wellFormed_walkRow, encode_walkRow, walkValue_fields]
    exact ⟨decide_eq_true (v.extractLsb' 0 6).isLt, rfl⟩
  | sect v =>
    rw [decode_sect] at hdecode
    split at hdecode
    · next hmarker => cases hdecode; exact ⟨rfl, congrArg Selector.sect hmarker.symm⟩
    · cases hdecode
  | desc d =>
    rw [decode_desc] at hdecode
    split at hdecode
    · next hdiscr => cases hdecode; exact ⟨rfl, congrArg Selector.desc hdiscr.symm⟩
    · cases hdecode

/-! ### The opcode table -/

/-- Every instruction is selected by its encoding (R85). -/
theorem tableRow_selects_encode (i : Instr) : Laws.MatchesTableRow.Statement i := by
  cases i with
  | crc32 src => exact Laws.MatchesTableRow.crc32 src
  | hdec => exact Laws.MatchesTableRow.hdec
  | decomp => exact Laws.MatchesTableRow.decomp
  | crcShift => exact Laws.MatchesTableRow.crcShift
  | crcShiftXor => exact Laws.MatchesTableRow.crcShiftXor
  | crcByte b => exact Laws.MatchesTableRow.crcByte b
  | walkLNode other off => exact Laws.MatchesTableRow.walkLNode other off
  | walkLLeaf other off => exact Laws.MatchesTableRow.walkLLeaf other off
  | walkRNode other off => exact Laws.MatchesTableRow.walkRNode other off
  | walkRLeaf other off => exact Laws.MatchesTableRow.walkRLeaf other off
  | sectMark => exact Laws.MatchesTableRow.sectMark
  | descHuff8 => exact Laws.MatchesTableRow.descHuff8

theorem selects_iff {r : TableRow} {sel : Selector} :
    r.selects sel = true ↔ selectorFormat sel = r.format ∧ selectorValue sel &&& r.mask = r.pattern := by
  rw [TableRow.selects, Bool.and_eq_true, decide_eq_true_iff, decide_eq_true_iff]

/-- A row whose mask has all `n` bits selects its pattern alone. -/
theorem eq_of_and_allOnes {n : Nat} {v p : BitVec n} (h : v.toNat &&& (2 ^ n - 1) = p.toNat) : v = p := by
  rw [Nat.and_two_pow_sub_one_eq_mod, Nat.mod_eq_of_lt v.isLt] at h
  exact BitVec.eq_of_toNat_eq h

/-- The `CRC32` row leaves bit 2 open: it selects the two words of R77. -/
theorem eq_of_and_crc32Mask {v : Word} (h : v.toNat &&& 0xFFFFFFFB = 1) : v = 0x1#32 ∨ v = 0x5#32 := by
  have hmasked : v &&& 0xFFFFFFFB#32 = 0x1#32 := BitVec.eq_of_toNat_eq h
  have hsplit : v = (v &&& 0xFFFFFFFB#32) ||| (v &&& BitVec.twoPow 32 2) := by
    rw [← BitVec.and_or_distrib_left]
    exact (BitVec.and_allOnes).symm
  rw [hmasked, BitVec.and_twoPow] at hsplit
  cases hbit : v.getLsbD 2 with
  | false => rw [hbit] at hsplit; exact .inl hsplit
  | true => rw [hbit] at hsplit; exact .inr hsplit

/-- A masked value fixes the bits its mask has. -/
theorem getLsbD_of_and_eq {n mask pattern k : Nat} {v : BitVec n} {b : Bool} (h : v.toNat &&& mask = pattern)
    (hmask : mask.testBit k = true) (hpattern : pattern.testBit k = b) : v.getLsbD k = b := by
  rw [← hpattern, ← h, Nat.testBit_and, hmask, Bool.and_true, BitVec.testBit_toNat]

/-- The rows that select a command word are rows of words that decode. -/
theorem decodes_of_selects_cmd {i : Instr} {v : Word} (h : (tableRow i).selects (.cmd v) = true) :
    ∃ j, decode (.cmd v) = .ok j ∧ tableRow j = tableRow i := by
  obtain ⟨hformat, hvalue⟩ := selects_iff.mp h
  cases i with
  | crc32 src =>
    rcases eq_of_and_crc32Mask hvalue with rfl | rfl
    · exact ⟨.crc32 .ibuf, rfl, rfl⟩
    · exact ⟨.crc32 .obuf, rfl, rfl⟩
  | hdec =>
    obtain rfl : v = 0x2#32 := eq_of_and_allOnes hvalue
    exact ⟨.hdec, rfl, rfl⟩
  | decomp =>
    obtain rfl : v = 0x3#32 := eq_of_and_allOnes hvalue
    exact ⟨.decomp, rfl, rfl⟩
  | _ => cases hformat

/-- The row of a walk value is fixed by its stream bit and the tag of that side (R83). -/
theorem tableRow_of_selects_walk {i : Instr} {v : BitVec 9} (h : (tableRow i).selects (.walk v) = true) :
    tableRow (decodeWalk v) = tableRow i := by
  obtain ⟨hformat, hvalue⟩ := selects_iff.mp h
  rw [decodeWalk_eq_walkRow]
  cases i with
  | walkLNode other off =>
    have hvalue : v.toNat &&& 0x180 = 0x000 := hvalue
    have hbit : v.getLsbD 8 = false := getLsbD_of_and_eq hvalue (by decide) (by decide)
    have htag : v.getLsbD 7 = false := getLsbD_of_and_eq hvalue (by decide) (by decide)
    rw [hbit, htag]; rfl
  | walkLLeaf other off =>
    have hvalue : v.toNat &&& 0x180 = 0x080 := hvalue
    have hbit : v.getLsbD 8 = false := getLsbD_of_and_eq hvalue (by decide) (by decide)
    have htag : v.getLsbD 7 = true := getLsbD_of_and_eq hvalue (by decide) (by decide)
    rw [hbit, htag]; rfl
  | walkRNode other off =>
    have hvalue : v.toNat &&& 0x140 = 0x100 := hvalue
    have hbit : v.getLsbD 8 = true := getLsbD_of_and_eq hvalue (by decide) (by decide)
    have htag : v.getLsbD 6 = false := getLsbD_of_and_eq hvalue (by decide) (by decide)
    rw [hbit, htag]; rfl
  | walkRLeaf other off =>
    have hvalue : v.toNat &&& 0x140 = 0x140 := hvalue
    have hbit : v.getLsbD 8 = true := getLsbD_of_and_eq hvalue (by decide) (by decide)
    have htag : v.getLsbD 6 = true := getLsbD_of_and_eq hvalue (by decide) (by decide)
    rw [hbit, htag]; rfl
  | _ => cases hformat

/-- A value that some row selects decodes, to an instruction of that row. -/
theorem decodes_of_selects {i : Instr} {sel : Selector} (h : (tableRow i).selects sel = true) :
    ∃ j, decode sel = .ok j ∧ tableRow j = tableRow i := by
  obtain ⟨hformat, hvalue⟩ := selects_iff.mp h
  cases sel with
  | cmd v => exact decodes_of_selects_cmd h
  | walk v => exact ⟨_, rfl, tableRow_of_selects_walk h⟩
  | crcw w0 =>
    cases i with
    | crcShift =>
      obtain rfl : w0 = 0#1 := eq_of_and_allOnes hvalue
      exact ⟨.crcShift, rfl, rfl⟩
    | crcShiftXor =>
      obtain rfl : w0 = 1#1 := eq_of_and_allOnes hvalue
      exact ⟨.crcShiftXor, rfl, rfl⟩
    | _ => cases hformat
  | data b =>
    cases i with
    | crcByte b' => exact ⟨.crcByte b, rfl, rfl⟩
    | _ => cases hformat
  | sect v =>
    cases i with
    | sectMark => exact ⟨.sectMark, if_pos (eq_of_and_allOnes (p := Config.MARKER) hvalue), rfl⟩
    | _ => cases hformat
  | desc d =>
    cases i with
    | descHuff8 => exact ⟨.descHuff8, if_pos (eq_of_and_allOnes (p := Config.DISCR) hvalue), rfl⟩
    | _ => cases hformat

/-- Settles O5: a value that decodes is the encoding of its instruction (O4), which its row selects. -/
theorem decodeIsTheOpcodeTable : Obligations.DecodeIsTheOpcodeTable := by
  intro sel
  refine ⟨fun i hdecode => ?_, fun i => decodes_of_selects⟩
  obtain ⟨hwf, hencode⟩ := encodeInvertsDecode sel i hdecode
  rw [← hencode]
  exact tableRow_selects_encode i hwf

/-- Settles O7: the row of the bit and the entry, with its four cases written out. -/
theorem walkSelectionReadsPreviousEntryTags : Obligations.WalkSelectionReadsPreviousEntryTags :=
  fun b e => congrArg Except.ok (decodeWalk_ofBool_append b e)

/-- Settles O2: each of the words is the encoding of a well-formed instruction, field by field, and decodes by O3. -/
theorem decodeReadsWrittenOutWords : Obligations.DecodeReadsWrittenOutWords :=
  ⟨decodeInvertsEncode (.crc32 .ibuf) rfl, decodeInvertsEncode (.crc32 .obuf) rfl, decodeInvertsEncode .hdec rfl,
    decodeInvertsEncode .decomp rfl, decodeInvertsEncode .crcShift rfl, decodeInvertsEncode .crcShiftXor rfl,
    decodeInvertsEncode (.crcByte 0x61#8) rfl, decodeInvertsEncode (.walkLNode true 2) rfl,
    decodeInvertsEncode (.walkLLeaf false 63) rfl, decodeInvertsEncode (.walkRNode true 1) rfl,
    decodeInvertsEncode (.walkRLeaf false 0) rfl, decodeInvertsEncode .sectMark rfl,
    decodeInvertsEncode .descHuff8 rfl⟩

/-- Settles O1: a step runs what it fetches, and what decodes is well formed (O4). -/
theorem stepRunsDecodedInstruction : Obligations.StepRunsDecodedInstruction := by
  intro s
  refine ⟨fun sel u hfetch => ⟨fun i hdecode => ?_, fun r hreject => ?_⟩, fun o hfetch => ?_⟩
  · exact ⟨(encodeInvertsDecode sel i hdecode).1, by rw [step, hfetch, runFetched_selected hdecode]⟩
  · rw [step, hfetch, runFetched_unselected hreject]
  · rw [step, hfetch, runFetched_ended]

end Sys2Proof.Codec

/-! PROOF of O40, O41, O49, O51 and O52. Everything an engine step can do, said once (10_state.md R31, 43_system.md
R180): the failures it can raise, and for each phase the states it can lead to. What a step leaves unchanged is then
read off case by case. -/

namespace Sys2Proof.EngineMoves

open Sys2Proof.Machine Sys2Proof.HuffmanUnit Sys2Proof.FoldRun Sys2Proof.DecompRun

/-! ### The end of a leaf row -/

/-- What follows the emission that has left the state `e` (R136, R137). -/
inductive AfterEmission (e : State) : State → Prop
  | trailing (hfull : payloadFull e.huf = true) (hrem : remainingBytes e ≠ 4) :
      AfterEmission e (e.failed .trailingBytes (remainingBytes e - 4))
  | ended (hfull : payloadFull e.huf = true) (hrem : remainingBytes e = 4) : AfterEmission e (decodeEnded e)
  | restarted (hmore : payloadFull e.huf = false) (root : Byte) :
      AfterEmission e { e with huf := { e.huf with entry := root, pos := 0#9 } }

/-- A leaf that answers a next state: its byte has been read, stored inside `OBUF` and counted. -/
theorem descendToLeaf_cases {j : Nat} {s t : State} (h : descendToLeaf j s = .next t) :
    payloadAddr s < Config.CAP ∧ AfterEmission (emittedState (byteAt .ibuf s.ibuf (treeAddr s j)) s) t := by
  obtain ⟨lit, hread, hemit⟩ := descendToLeaf_next h
  obtain ⟨-, rfl⟩ := readByte_ok_iff.mp hread
  obtain ⟨hpayload, ⟨hfull, hcomplete⟩ | ⟨hmore, hrestart⟩⟩ := emit_next hemit
  · rcases complete_next hcomplete with ⟨hrem, rfl⟩ | ⟨hrem, rfl⟩
    · exact ⟨hpayload, .trailing hfull hrem⟩
    · exact ⟨hpayload, .ended hfull hrem⟩
  · obtain ⟨root, -, rfl⟩ := restartAtRoot_next hrestart
    exact ⟨hpayload, .restarted hmore root⟩

/-! ### The frames of the rows -/

/-- A leaf row overflows, or descends to the leaf of its side. -/
theorem leafRow_next {s t : State} {right other : Bool} {off : Nat}
    (h : exec (if right then .walkRLeaf other off else .walkLLeaf other off) s = .next t) :
    t = s.failed .treeOverflow 0 ∨ descendToLeaf (childIndex right (advancedPos off s)) s = .next t := by
  rcases Nat.lt_or_ge s.huf.extra.toNat (advancedPos off s) with hover | hp
  · left
    cases right with
    | false => exact raise_next ((exec_walkRow_overflow hover false true other).symm.trans h)
    | true => exact raise_next ((exec_walkRow_overflow hover true other true).symm.trans h)
  · exact .inr ((exec_leafRow hp).symm.trans h)

/-- The registers that a leaf row keeps: all but those of the walk, and of the result at the end. -/
structure LeafFrame (s t : State) : Prop where
  ibuf : t.ibuf = s.ibuf
  crc : t.crc = s.crc
  dsp : t.dsp = s.dsp
  op : t.seq.op = s.seq.op
  inputs : t.inputs = s.inputs
  reply : t.reply = s.reply
  illCmd : t.status.illCmd = s.status.illCmd
  argBase : t.regs.argBase = s.regs.argBase
  argLen : t.regs.argLen = s.regs.argLen
  huf : t.huf = { s.huf with pos := t.huf.pos, entry := t.huf.entry, outPos := t.huf.outPos }

theorem leafFrame_failed (e : Failure) (n : Nat) (s : State) : LeafFrame s (s.failed e n) :=
  ⟨rfl, rfl, rfl, rfl, rfl, rfl, rfl, rfl, rfl, rfl⟩

theorem AfterEmission.leafFrame {lit : Byte} {s t : State} (h : AfterEmission (emittedState lit s) t) :
    LeafFrame s t := by
  cases h with
  | trailing => exact ⟨rfl, rfl, rfl, rfl, rfl, rfl, rfl, rfl, rfl, rfl⟩
  | restarted => exact ⟨rfl, rfl, rfl, rfl, rfl, rfl, rfl, rfl, rfl, rfl⟩
  | ended =>
    unfold decodeEnded
    split
    · exact ⟨rfl, rfl, rfl, rfl, rfl, rfl, rfl, rfl, rfl, rfl⟩
    · exact ⟨rfl, rfl, rfl, rfl, rfl, rfl, rfl, rfl, rfl, rfl⟩

theorem decodeEnded_obuf (s : State) : (decodeEnded s).obuf = s.obuf := by
  unfold decodeEnded
  split <;> rfl

/-- After an emission `OBUF` is as the emission left it, or the failure has opened its lower part. -/
theorem AfterEmission.obuf {e t : State} (h : AfterEmission e t) :
    t.obuf = e.obuf ∨ (t.obuf = e.obuf.spoil (spoiledBytes e) ∧ t.status.err = true) := by
  cases h with
  | trailing => exact .inr ⟨rfl, rfl⟩
  | ended => exact .inl (decodeEnded_obuf e)
  | restarted => exact .inl rfl

/-- Above what a failure opens, or without a failure, a byte reads as the emission left it. -/
theorem AfterEmission.byteAt_obuf {e t : State} (h : AfterEmission e t) {a : Nat}
    (ha : t.status.err = false ∨ spoiledBytes e ≤ a) : byteAt .obuf t.obuf a = byteAt .obuf e.obuf a := by
  rcases h.obuf with hsame | ⟨hspoiled, herr⟩
  · rw [hsame]
  · rw [hspoiled, byteAt_spoil .obuf e.obuf]
    exact ha.resolve_left (by simp [herr])

theorem byteAt_emittedState_same (lit : Byte) (s : State) :
    byteAt .obuf (emittedState lit s).obuf (payloadAddr s) = lit := byteAt_put_same ..

theorem byteAt_emittedState_ne (lit : Byte) {s : State} {a : Nat} (h : a ≠ payloadAddr s) :
    byteAt .obuf (emittedState lit s).obuf a = byteAt .obuf s.obuf a := byteAt_put_ne _ _ h _

/-- Settles O40: the overflow stores nothing, and an emission stores the child; what follows it opens bytes at most
below `spoiledBytes`. -/
theorem walkLeavesStoreOneByte : Obligations.WalkLeavesStoreOneByte := by
  intro s t right other off h
  have hframe : LeafFrame s t ∧
      (∀ a, a ≠ payloadAddr s → t.status.err = false ∨ spoiledBytes s ≤ a →
        byteAt .obuf t.obuf a = byteAt .obuf s.obuf a) ∧
      (t.status.err = false → byteAt .obuf t.obuf (payloadAddr s) =
        byteAt .ibuf s.ibuf (treeAddr s (childIndex right (advancedPos off s)))) := by
    rcases leafRow_next h with rfl | hleaf
    · refine ⟨leafFrame_failed .., fun a _ ha => ?_, fun herr => absurd herr Bool.noConfusion⟩
      exact byteAt_spoil .obuf s.obuf (ha.resolve_left Bool.noConfusion)
    · obtain ⟨-, hafter⟩ := descendToLeaf_cases hleaf
      refine ⟨hafter.leafFrame, fun a hne ha => ?_, fun herr => ?_⟩
      · rw [hafter.byteAt_obuf ha, byteAt_emittedState_ne _ hne]
      · rw [hafter.byteAt_obuf (.inl herr), byteAt_emittedState_same]
  obtain ⟨hregs, hothers, hchild⟩ := hframe
  exact ⟨fun a => by rw [hregs.ibuf], hothers, hchild, hregs.crc, hregs.dsp, hregs.op, hregs.inputs, hregs.reply,
    hregs.illCmd, hregs.argBase, hregs.argLen, hregs.huf⟩

/-- A node row overflows, or changes the current entry and the pair index alone. -/
theorem nodeRow_next {s t : State} {j : Nat → Nat} {off : Nat}
    (h : withAdvance off s (fun p => descend (j p) p s) = .next t) :
    t = s.failed .treeOverflow 0 ∨
      ∃ e p, t = { s with huf := { s.huf with entry := e, pos := BitVec.ofNat 9 p } } := by
  rcases withAdvance_next h with ⟨-, ht⟩ | ⟨-, hdescend⟩
  · exact .inl ht
  · obtain ⟨e, -, ht⟩ := descend_next hdescend
    exact .inr ⟨e, _, ht⟩

/-- Both memories read as before, but for bytes of `OBUF` below `spoiledBytes s` after a failure. -/
def StoresNothing (s t : State) : Prop :=
  t.ibuf = s.ibuf ∧ ∀ a, t.status.err = false ∨ spoiledBytes s ≤ a → byteAt .obuf t.obuf a = byteAt .obuf s.obuf a

theorem storesNothing_of_same {s t : State} (hibuf : t.ibuf = s.ibuf) (hobuf : t.obuf = s.obuf) : StoresNothing s t :=
  ⟨hibuf, fun a _ => by rw [hobuf]⟩

theorem storesNothing_failed {s u : State} {e : Failure} {n : Nat} (hibuf : u.ibuf = s.ibuf) (hobuf : u.obuf = s.obuf)
    (hspoiled : spoiledBytes u = spoiledBytes s) : StoresNothing s (u.failed e n) := by
  refine ⟨hibuf, fun a ha => ?_⟩
  rw [State.failed_obuf, hobuf, hspoiled, byteAt_spoil .obuf s.obuf (ha.resolve_left Bool.noConfusion)]

theorem nodeRow_storesNothing {s t : State} {j : Nat → Nat} {off : Nat}
    (h : withAdvance off s (fun p => descend (j p) p s) = .next t) : StoresNothing s t := by
  rcases nodeRow_next h with rfl | ⟨e, p, rfl⟩
  · exact storesNothing_failed rfl rfl rfl
  · exact storesNothing_of_same rfl rfl

theorem command_keeps_memories {op : SeqOp} {p : Phase} {load : State → State} {s t : State}
    (h : command op p load s = .next t) (hload : ∀ u, (load u).ibuf = u.ibuf ∧ (load u).obuf = u.obuf) :
    t.ibuf = s.ibuf ∧ t.obuf = s.obuf := by
  obtain ⟨-, ⟨-, rfl⟩ | ⟨-, rfl⟩⟩ := command_next h
  · exact hload _
  · exact ⟨rfl, rfl⟩

/-- `DESC.HUFF8`, when it answers a next state: the copy starts, check 3 fails, or the walk starts. -/
theorem execDescHuff8_next {s t : State} (h : exec .descHuff8 s = .next t) :
    (s.seq.phase = .hdr ∧ t = headerAccepted s) ∨
      (s.seq.phase ≠ .hdr ∧ ∃ outLen extra,
        (s.huf.slen.toNat ≤ (magIdxOf extra).toNat ∧
            t = (s.headerParsed outLen extra).failed .unsupportedFormat 0) ∨
          ((magIdxOf extra).toNat < s.huf.slen.toNat ∧ BitVec.ofNat 24 outLen ≠ 0#24 ∧
            ∃ root, t = (s.headerParsed outLen extra).walkStarted root)) := by
  by_cases hphase : s.seq.phase = .hdr
  · cases (ContainerUnit.exec_descHuff8_accepts hphase).symm.trans h
    exact .inl ⟨hphase, rfl⟩
  · rw [exec_descHuff8_parses hphase] at h
    obtain ⟨outLen, extra, -, -, hend⟩ := parseDescriptor_next h
    refine .inr ⟨hphase, outLen, extra, ?_⟩
    rcases hend with hfails | ⟨hroom, hnonempty, root, -, rfl⟩
    · exact .inl hfails
    · exact .inr ⟨hroom, hnonempty, root, rfl⟩

theorem descHuff8_ibuf {s t : State} (h : exec .descHuff8 s = .next t) : t.ibuf = s.ibuf := by
  rcases execDescHuff8_next h with ⟨-, rfl⟩ | ⟨-, outLen, extra, ⟨-, rfl⟩ | ⟨-, -, root, rfl⟩⟩ <;> rfl

/-- In its two phases a descriptor's failure opens the bytes it would open before the header was parsed. -/
theorem descHuff8_storesNothing {s t : State} (hphase : s.seq.phase = .hufInit ∨ s.seq.phase = .hdr)
    (h : exec .descHuff8 s = .next t) : StoresNothing s t := by
  rcases execDescHuff8_next h with ⟨-, rfl⟩ | ⟨hnotHdr, outLen, extra, ⟨-, rfl⟩ | ⟨-, -, root, rfl⟩⟩
  · exact storesNothing_of_same rfl rfl
  · have hinit : s.seq.phase = .hufInit := hphase.resolve_right hnotHdr
    refine storesNothing_failed rfl rfl ?_
    rw [spoiledBytes, spoiledBytes, State.headerParsed_seq, hinit, State.headerParsed_huf]
  · exact storesNothing_of_same rfl rfl

/-- What O41 asks of a row that leaves both memories as they are. -/
theorem othersStoreNothing_of_same {s t : State} (p q : Prop) (h : t.ibuf = s.ibuf ∧ t.obuf = s.obuf) :
    (∀ a, byteAt .ibuf t.ibuf a = byteAt .ibuf s.ibuf a) ∧
      (p → ∀ a, byteAt .obuf t.obuf a = byteAt .obuf s.obuf a) ∧
      (q → ∀ a, t.status.err = false ∨ spoiledBytes s ≤ a → byteAt .obuf t.obuf a = byteAt .obuf s.obuf a) := by
  obtain ⟨hibuf, hobuf⟩ := h
  rw [hibuf, hobuf]
  exact ⟨fun _ => rfl, fun _ _ => rfl, fun _ _ _ => rfl⟩

/-- Settles O41: commands, bit steps, the byte fold and the marker leave both memories, and the rows that can fail store
nothing; the two leaf rows are named by no clause but the one about `IBUF`. -/
theorem otherRowsStoreNothing : Obligations.OtherRowsStoreNothing := by
  intro i s t h
  cases i with
  | crc32 src =>
    exact othersStoreNothing_of_same _ _ (command_keeps_memories (show execCrc32 src s = .next t from h)
      fun _ => ⟨rfl, rfl⟩)
  | hdec =>
    exact othersStoreNothing_of_same _ _ (command_keeps_memories (show execHdec s = .next t from h)
      fun _ => ⟨rfl, rfl⟩)
  | decomp =>
    exact othersStoreNothing_of_same _ _ (command_keeps_memories (show execDecomp s = .next t from h)
      fun _ => ⟨rfl, rfl⟩)
  | crcShift => cases h; exact othersStoreNothing_of_same _ _ ⟨rfl, rfl⟩
  | crcShiftXor => cases h; exact othersStoreNothing_of_same _ _ ⟨rfl, rfl⟩
  | crcByte b => cases h; exact othersStoreNothing_of_same _ _ ⟨rfl, rfl⟩
  | sectMark => cases h; exact othersStoreNothing_of_same _ _ ⟨rfl, rfl⟩
  | walkLNode other off =>
    obtain ⟨hibuf, hobuf⟩ := nodeRow_storesNothing (j := fun p => 2 * p) h
    exact ⟨fun a => by rw [hibuf], by simp, fun _ => hobuf⟩
  | walkRNode other off =>
    obtain ⟨hibuf, hobuf⟩ := nodeRow_storesNothing (j := fun p => 2 * p + 1) h
    exact ⟨fun a => by rw [hibuf], by simp, fun _ => hobuf⟩
  | walkLLeaf other off =>
    exact ⟨(walkLeavesStoreOneByte s t false other off h).1, by simp, by simp⟩
  | walkRLeaf other off =>
    exact ⟨(walkLeavesStoreOneByte s t true other off h).1, by simp, by simp⟩
  | descHuff8 =>
    refine ⟨fun a => by rw [descHuff8_ibuf h], by simp, fun hrow => ?_⟩
    obtain ⟨x, off, hnode⟩ | ⟨-, hphase⟩ := hrow
    · exact absurd hnode (by simp)
    · exact (descHuff8_storesNothing hphase h).2

/-! ### What an engine step can do -/

/-- The failures of an engine step from `s`: the state one is raised in, which failure, and its parameter. -/
inductive Raises (s : State) : State → Failure → Nat → Prop
  | scanFailed (hphase : s.seq.phase = .scan) : Raises s s .sectorNotFound 0
  | headerShort (hphase : s.seq.phase = .hdr) : Raises s s .bufferTooSmall 0
  | headerRejected (hphase : s.seq.phase = .hdr) (len crc : Nat) :
      Raises s (s.headerRead len crc) .unsupportedFormat 0
  | sourceShort (hphase : s.seq.phase = .hufInit) : Raises s s .bufferTooSmall 0
  | sourceRejected (hphase : s.seq.phase = .hufInit) : Raises s s .unsupportedFormat 0
  | treeTooLong (hphase : s.seq.phase = .hufInit) (outLen : Nat) (extra : Byte) :
      Raises s (s.headerParsed outLen extra) .unsupportedFormat 0
  | truncated (hphase : s.seq.phase = .hufBit) :
      Raises s s .truncatedInput (s.huf.outLen.toNat - s.huf.outPos.toNat)
  | overflow (hphase : s.seq.phase = .hufBit) : Raises s s .treeOverflow 0
  | trailing (hphase : s.seq.phase = .hufBit) (hwhole : s.huf.chunk.toNat + 4 ≤ s.huf.slen.toNat) (lit : Byte)
      (hpayload : payloadAddr s < Config.CAP) (hrem : remainingBytes s ≠ 4) :
      Raises s (emittedState lit s) .trailingBytes (remainingBytes s - 4)
  | lengths (hphase : s.seq.phase = .lenChk) : Raises s s .lengthMismatch 0
  | checksums (hphase : s.seq.phase = .crcChk) : Raises s s .checksumMismatch 0

/-- The engine steps from `s`, with the state each leads to. -/
inductive EngineStep (s : State) : State → Prop
  | idled (hphase : s.seq.phase = .idle) : EngineStep s s
  | raised {u : State} {e : Failure} {n : Nat} (h : Raises s u e n) : EngineStep s (u.failed e n)
  | found (hphase : s.seq.phase = .scan) (hmore : scanExhausted s = false) :
      EngineStep s { s with dsp := { s.dsp with offset := s.dsp.probe }, seq := { s.seq with phase := .hdr } }
  | probed (hphase : s.seq.phase = .scan) (hmore : scanExhausted s = false) : EngineStep s (nextProbe s)
  | accepted (hphase : s.seq.phase = .hdr) (hroom : headerTooShort s = false) (len crc : Nat) :
      EngineStep s (headerAccepted (s.headerRead len crc))
  | copied (hphase : s.seq.phase = .copy) (hmore : s.dsp.cpIdx.toNat < s.dsp.offset.toNat)
      (haddr : preambleAddr s < Config.CAP) (b : Byte) :
      EngineStep s (State.copyAdvanced (s.withMemory .obuf (s.obuf.put (preambleAddr s) b)))
  | handedOver (hphase : s.seq.phase = .copy) (hdone : s.dsp.offset.toNat ≤ s.dsp.cpIdx.toNat) :
      EngineStep s (handOver s)
  | walkBegun (hphase : s.seq.phase = .hufInit) (outLen : Nat) (extra root : Byte)
      (hroom : (magIdxOf extra).toNat < s.huf.slen.toNat) (hnonempty : BitVec.ofNat 24 outLen ≠ 0#24) :
      EngineStep s ((s.headerParsed outLen extra).walkStarted root)
  | descended (hphase : s.seq.phase = .hufBit) (hwhole : s.huf.chunk.toNat + 4 ≤ s.huf.slen.toNat) (e : Byte) (p : Nat)
      (hp : p ≤ s.huf.extra.toNat) :
      EngineStep s { s with huf := advanceCursor { s.huf with entry := e, pos := BitVec.ofNat 9 p } }
  | restarted (hphase : s.seq.phase = .hufBit) (hwhole : s.huf.chunk.toNat + 4 ≤ s.huf.slen.toNat) (lit root : Byte)
      (hpayload : payloadAddr s < Config.CAP) (hmore : s.huf.outPos + 1#24 ≠ s.huf.outLen) :
      EngineStep s { emittedState lit s with
        huf := advanceCursor { s.huf with outPos := s.huf.outPos + 1#24, entry := root, pos := 0#9 } }
  | decodeFinished (hphase : s.seq.phase = .hufBit) (lit : Byte) (hpayload : payloadAddr s < Config.CAP)
      (hop : s.seq.op = .hdec) :
      EngineStep s (State.finish { emittedState lit s with
        regs := { s.regs with resultLen := s.huf.outLen.setWidth 32 } })
  | decoded (hphase : s.seq.phase = .hufBit) (lit : Byte) (hpayload : payloadAddr s < Config.CAP)
      (hop : s.seq.op ≠ .hdec) :
      EngineStep s { emittedState lit s with seq := { s.seq with phase := .lenChk } }
  | foldBegun (hphase : s.seq.phase = .lenChk) : EngineStep s (preambleFold s)
  | bitCounted (hphase : s.seq.phase = .crcA ∨ s.seq.phase = .crcB) (hiter : 1 < s.crc.iter) :
      EngineStep s { s with crc := { s.crc with w := crcBitStep s.crc.w, iter := s.crc.iter - 1 } }
  | byteFinished (hphase : s.seq.phase = .crcA ∨ s.seq.phase = .crcB) (hiter : s.crc.iter = 1) :
      EngineStep s { s with
        crc := { s.crc with
          w := crcBitStep s.crc.w, iter := 0, reg := crcFoldWord s.crc.reg (crcBitStep s.crc.w)
          idx := s.crc.idx + 1#32 } }
  | byteFolded (hphase : s.seq.phase = .crcA ∨ s.seq.phase = .crcB) (hiter : s.crc.iter = 0)
      (hmore : s.crc.idx.toNat < s.crc.len.toNat) (b : Byte) : EngineStep s (foldedByte b s)
  | foldFinished (hphase : s.seq.phase = .crcA ∨ s.seq.phase = .crcB) (hiter : s.crc.iter = 0)
      (hop : s.seq.op = .crc32) : EngineStep s s.finish
  | payloadFoldBegun (hphase : s.seq.phase = .crcA) (hiter : s.crc.iter = 0) (hop : s.seq.op ≠ .crc32) :
      EngineStep s (payloadFold s)
  | foldsDone (hphase : s.seq.phase = .crcB) (hiter : s.crc.iter = 0) (hop : s.seq.op ≠ .crc32) :
      EngineStep s { s with seq := { s.seq with phase := .crcChk } }
  | verified (hphase : s.seq.phase = .crcChk) :
      EngineStep s (State.finish { s with
        regs := { s.regs with resultLen := s.dsp.offset.setWidth 32 + s.huf.outLen.setWidth 32 } })

/-! ### Every engine step is one of these -/

theorem engineStep_scan {s t : State} (hphase : s.seq.phase = .scan) (h : runFetched (fetchScan s) = .next t) :
    EngineStep s t := by
  rcases fetchScan_next h with ⟨-, rfl⟩ | ⟨hmore, w, -, ⟨-, hmark⟩ | ⟨-, rfl⟩⟩
  · exact .raised (.scanFailed hphase)
  · cases hmark; exact .found hphase hmore
  · exact .probed hphase hmore

theorem engineStep_hdr {s t : State} (hphase : s.seq.phase = .hdr) (h : runFetched (fetchHdr s) = .next t) :
    EngineStep s t := by
  rcases fetchHdr_next h with ⟨-, rfl⟩ | ⟨hroom, len, crc, d, -, -, -, ⟨-, hdesc⟩ | ⟨-, rfl⟩⟩
  · exact .raised (.headerShort hphase)
  · rcases execDescHuff8_next hdesc with ⟨-, rfl⟩ | ⟨hnotHdr, -⟩
    · exact .accepted hphase hroom len crc
    · exact absurd hphase hnotHdr
  · exact .raised (.headerRejected hphase len crc)

theorem engineStep_copy {s t : State} (hphase : s.seq.phase = .copy) (h : copyStep s = .next t) : EngineStep s t := by
  rcases copyStep_next h with ⟨hmore, haddr, b, -, rfl⟩ | ⟨hdone, rfl⟩
  · exact .copied hphase hmore haddr b
  · exact .handedOver hphase hdone

theorem engineStep_hufInit {s t : State} (hphase : s.seq.phase = .hufInit)
    (h : runFetched (fetchHufInit s) = .next t) : EngineStep s t := by
  rcases fetchHufInit_next h with ⟨-, rfl⟩ | ⟨-, d, -, ⟨-, hdesc⟩ | ⟨-, rfl⟩⟩
  · exact .raised (.sourceShort hphase)
  · rcases execDescHuff8_next hdesc with
      ⟨hhdr, -⟩ | ⟨-, outLen, extra, ⟨-, rfl⟩ | ⟨hroom, hnonempty, root, rfl⟩⟩
    · cases hphase.symm.trans hhdr
    · exact .raised (.treeTooLong hphase outLen extra)
    · exact .walkBegun hphase outLen extra root hroom hnonempty
  · exact .raised (.sourceRejected hphase)

/-- A bit step whose row has emitted a byte. -/
theorem engineStep_emitted {s u : State} {lit : Byte} (hphase : s.seq.phase = .hufBit)
    (hwhole : s.huf.chunk.toNat + 4 ≤ s.huf.slen.toNat) (hpayload : payloadAddr s < Config.CAP)
    (h : AfterEmission (emittedState lit s) u) :
    EngineStep s (if u.seq.phase = .hufBit then { u with huf := advanceCursor u.huf } else u) := by
  cases h with
  | trailing hfull hrem =>
    rw [if_neg Phase.noConfusion]
    exact .raised (.trailing hphase hwhole lit hpayload hrem)
  | ended hfull hrem =>
    unfold decodeEnded
    split
    · next hop =>
      rw [if_neg Phase.noConfusion]
      exact .decodeFinished hphase lit hpayload hop
    · next hop =>
      rw [if_neg Phase.noConfusion]
      exact .decoded hphase lit hpayload hop
  | restarted hmore root =>
    have hnotFull : s.huf.outPos + 1#24 ≠ s.huf.outLen := fun hfull =>
      Bool.noConfusion (hmore.symm.trans (payloadFull_emittedState.mpr hfull))
    have hwalking :
        ({ emittedState lit s with
          huf := { (emittedState lit s).huf with entry := root, pos := 0#9 } } : State).seq.phase = .hufBit := hphase
    rw [if_pos hwalking]
    exact .restarted hphase hwhole lit root hpayload hnotFull

theorem engineStep_hufBit {s t : State} (hphase : s.seq.phase = .hufBit) (h : runFetched (fetchHufBit s) = .next t) :
    EngineStep s t := by
  rcases fetchHufBit_next h with ⟨-, rfl⟩ | ⟨hwhole, v, u, -, hrow, rfl⟩
  · exact .raised (.truncated hphase)
  obtain ⟨j, -, ⟨-, rfl⟩ | ⟨hp, hdescend | hleaf⟩⟩ := execWalk_next hrow
  · rw [if_neg Phase.noConfusion]
    exact .raised (.overflow hphase)
  · obtain ⟨e, -, rfl⟩ := descend_next hdescend
    rw [if_pos (show s.seq.phase = .hufBit from hphase)]
    exact .descended hphase hwhole e _ hp
  · obtain ⟨hpayload, hafter⟩ := descendToLeaf_cases hleaf
    exact engineStep_emitted hphase hwhole hpayload hafter

theorem engineStep_lenChk {s t : State} (hphase : s.seq.phase = .lenChk) (h : lenChkStep s = .next t) :
    EngineStep s t := by
  rcases lenChkStep_next h with ⟨-, rfl⟩ | ⟨-, rfl⟩
  · exact .raised (.lengths hphase)
  · exact .foldBegun hphase

theorem engineStep_fold {s t : State} (hphase : s.seq.phase = .crcA ∨ s.seq.phase = .crcB)
    (h : runFetched (fetchFold s) = .next t) : EngineStep s t := by
  rcases fetchFold_next h with ⟨hiter, rfl⟩ | ⟨hiter, hmore, b, u, -, hrow, rfl⟩ | ⟨hiter, -, rfl⟩
  · rw [bitStepped]
    split
    · next hlast => exact .byteFinished hphase (Nat.le_antisymm hlast (Nat.pos_of_ne_zero hiter))
    · next hmore => exact .bitCounted hphase (Nat.not_le.mp hmore)
  · cases hrow
    exact .byteFolded hphase hiter hmore b
  · rw [foldEnded]
    split_ifs with hop hcrcA
    · exact .foldFinished hphase hiter hop
    · exact .payloadFoldBegun hcrcA hiter hop
    · exact .foldsDone (hphase.resolve_left hcrcA) hiter hop

theorem engineStep_crcChk {s t : State} (hphase : s.seq.phase = .crcChk) (h : crcChkStep s = .next t) :
    EngineStep s t := by
  rcases crcChkStep_next h with ⟨-, rfl⟩ | ⟨-, rfl⟩
  · exact .raised (.checksums hphase)
  · exact .verified hphase

theorem engineStep_of_fetchEngine {s t : State} (h : runFetched (fetchEngine s) = .next t) : EngineStep s t := by
  unfold fetchEngine at h
  cases hphase : s.seq.phase <;> rw [hphase] at h
  case idle => cases h; exact .idled hphase
  case scan => exact engineStep_scan hphase h
  case hdr => exact engineStep_hdr hphase h
  case copy => exact engineStep_copy hphase h
  case hufInit => exact engineStep_hufInit hphase h
  case hufBit => exact engineStep_hufBit hphase h
  case lenChk => exact engineStep_lenChk hphase h
  case crcA => exact engineStep_fold (.inl hphase) h
  case crcB => exact engineStep_fold (.inr hphase) h
  case crcChk => exact engineStep_crcChk hphase h

/-- On the engine's turn a step that answers a next state is an engine step from the state with the turn taken. -/
theorem engineStep_of_step {s t : State} (hturn : engineTurn s = true) (h : step s = .next t) :
    EngineStep (turnTaken s) t :=
  engineStep_of_fetchEngine ((step_engineTurn hturn).symm.trans h)

/-! ### What engine steps leave unchanged -/

/-- The state a failure is raised in differs from the one before the step in header registers and emitted bytes. -/
structure RaiseFrame (s u : State) : Prop where
  crc : u.crc = s.crc
  seq : u.seq = s.seq
  status : u.status = s.status
  ibuf : u.ibuf = s.ibuf
  inputs : u.inputs = s.inputs
  spoiled : spoiledBytes u = spoiledBytes s

theorem Raises.frame {s u : State} {e : Failure} {n : Nat} (h : Raises s u e n) : RaiseFrame s u := by
  cases h with
  | headerRejected hphase len crc =>
    refine ⟨rfl, rfl, rfl, rfl, rfl, ?_⟩
    rw [spoiledBytes, spoiledBytes, State.headerRead_seq, hphase]
  | treeTooLong hphase outLen extra =>
    refine ⟨rfl, rfl, rfl, rfl, rfl, ?_⟩
    rw [spoiledBytes, spoiledBytes, State.headerParsed_seq, hphase, State.headerParsed_huf]
  | trailing hphase hwhole lit hpayload hrem => exact ⟨rfl, rfl, rfl, rfl, rfl, rfl⟩
  | _ => exact ⟨rfl, rfl, rfl, rfl, rfl, rfl⟩

section
variable {s t : State} (h : EngineStep s t)
include h

theorem EngineStep.ibuf : t.ibuf = s.ibuf := by
  cases h with
  | raised hraise => exact hraise.frame.ibuf
  | _ => rfl

theorem EngineStep.inputs : t.inputs = s.inputs := by
  cases h with
  | raised hraise => exact hraise.frame.inputs
  | _ => rfl

theorem EngineStep.op : t.seq.op = s.seq.op := by
  cases h with
  | raised hraise => exact (congrArg Sequencer.op hraise.frame.seq :)
  | _ => rfl

/-- The steps that write `CRC.REG` are those of `LENCHK` and of the folds. -/
theorem EngineStep.crc_reg (hlenChk : s.seq.phase ≠ .lenChk) (hcrcA : s.seq.phase ≠ .crcA)
    (hcrcB : s.seq.phase ≠ .crcB) : t.crc.reg = s.crc.reg := by
  cases h with
  | raised hraise => exact congrArg CrcUnit.reg hraise.frame.crc
  | foldBegun hphase => exact absurd hphase hlenChk
  | byteFinished hphase | byteFolded hphase => exact absurd hphase (not_or.mpr ⟨hcrcA, hcrcB⟩)
  | _ => rfl

end

/-- The phases whose step can fail: not `IDLE`, not the copy, and no fold. -/
def failingPhases : List Phase := [.scan, .hdr, .hufInit, .hufBit, .lenChk, .crcChk]

theorem Raises.phase_mem {s u : State} {e : Failure} {n : Nat} (h : Raises s u e n) :
    s.seq.phase ∈ failingPhases := by
  cases h with
  | scanFailed hphase | headerShort hphase | headerRejected hphase | sourceShort hphase | sourceRejected hphase
  | treeTooLong hphase | truncated hphase | overflow hphase | trailing hphase | lengths hphase | checksums hphase =>
    rw [hphase]
    decide

theorem idle_mem_phaseSuccessors : ∀ p ∈ failingPhases, Phase.idle ∈ phaseSuccessors p := by decide

theorem outsideFolds_of_failing : ∀ p ∈ failingPhases, p ≠ .crcA ∧ p ≠ .crcB := by decide

theorem ne_copy_of_failing : ∀ p ∈ failingPhases, p ≠ .copy := by decide

/-- The phases that a step may keep. -/
theorem self_mem_phaseSuccessors : ∀ p ∈ [Phase.idle, .scan, .copy, .hufBit, .crcA, .crcB], p ∈ phaseSuccessors p := by
  decide

/-- A step keeps a phase that may be kept, or leads to a successor of the phase it names. -/
theorem EngineStep.phase_mem {s t : State} (h : EngineStep s t) : t.seq.phase ∈ phaseSuccessors s.seq.phase := by
  cases h with
  | raised hraise => exact idle_mem_phaseSuccessors _ hraise.phase_mem
  | idled hphase | probed hphase | copied hphase | descended hphase | restarted hphase =>
    exact self_mem_phaseSuccessors s.seq.phase (by rw [hphase]; decide)
  | bitCounted hphase | byteFinished hphase | byteFolded hphase =>
    exact self_mem_phaseSuccessors s.seq.phase (by rcases hphase with hphase | hphase <;> rw [hphase] <;> decide)
  | found hphase | accepted hphase | handedOver hphase | walkBegun hphase | decodeFinished hphase | decoded hphase
  | foldBegun hphase | payloadFoldBegun hphase | foldsDone hphase | verified hphase =>
    simp [hphase, phaseSuccessors, preambleFold, payloadFold]
  | foldFinished hphase =>
    rcases hphase with hphase | hphase <;> simp [hphase, phaseSuccessors]

/-- A step that ends in `IDLE` is the finishing step of a success or of a failure. -/
theorem EngineStep.done_of_idle {s t : State} (h : EngineStep s t) (hbusy : s.seq.phase ≠ .idle)
    (hidle : t.seq.phase = .idle) : t.status.done = true ∧ t.status.busy = false := by
  cases h with
  | raised | decodeFinished | foldFinished | verified => exact ⟨rfl, rfl⟩
  | idled | probed | copied | descended | restarted | bitCounted | byteFinished | byteFolded =>
    exact absurd hidle hbusy
  | _ => cases hidle

/-- Settles O49. -/
theorem engineNeverWritesIbuf : Obligations.EngineNeverWritesIbuf :=
  fun _ _ hturn hstep => (engineStep_of_step hturn hstep).ibuf

/-- Settles O51. -/
theorem crcRegKeptOutsideTheFolds : Obligations.CrcRegKeptOutsideTheFolds :=
  fun _ _ hturn hstep hlenChk hcrcA hcrcB => (engineStep_of_step hturn hstep).crc_reg hlenChk hcrcA hcrcB

/-- Settles O52. -/
theorem phasesGoForward : Obligations.PhasesGoForward := fun _ _ hturn hstep =>
  have hmove := engineStep_of_step hturn hstep
  ⟨hmove.op, hmove.phase_mem, hmove.done_of_idle⟩

end Sys2Proof.EngineMoves

/-! PROOF of O34 and O35. The bit cursor (10_state.md R32, 20_memory.md R51, 41_huffman.md R128): a mask of one bit is
`128 >> k`, and the bits of a chunk word are taken from bit 31 down. -/

namespace Sys2Proof.CursorMoves

open Sys2Proof.Machine Sys2Proof.BitCursor

/-- A mask of one bit, counted from the mask 128 on. -/
theorem maskOneBit_iff {h : HufUnit} : MaskOneBit h ↔ ∃ k, k < 8 ∧ h.mask = 128#8 >>> k := by
  constructor
  · rintro (hmask | hmask | hmask | hmask | hmask | hmask | hmask | hmask)
    · exact ⟨0, by decide, hmask⟩
    · exact ⟨1, by decide, hmask⟩
    · exact ⟨2, by decide, hmask⟩
    · exact ⟨3, by decide, hmask⟩
    · exact ⟨4, by decide, hmask⟩
    · exact ⟨5, by decide, hmask⟩
    · exact ⟨6, by decide, hmask⟩
    · exact ⟨7, by decide, hmask⟩
  · rintro ⟨k, hk, hmask⟩
    rw [MaskOneBit, hmask]
    clear hmask
    revert k
    decide

theorem log2_mask {k : Nat} (hk : k < 8) : (128#8 >>> k).toNat.log2 = 7 - k := by
  interval_cases k <;> decide

/-- The bit under the cursor comes `8 * (3 - byte) + k` bits after the first of its chunk. -/
theorem cursorIndex_eq {h : HufUnit} {k : Nat} (hk : k < 8) (hmask : h.mask = 128#8 >>> k) :
    cursorIndex h = 8 * h.chunk.toNat + (8 * (3 - h.byte.toNat) + k) := by
  rw [cursorIndex, hmask, log2_mask hk]
  omega

/-- The cursor writes its three registers alone. -/
theorem advanceCursor_frame (h : HufUnit) :
    advanceCursor h =
      { h with
        chunk := (advanceCursor h).chunk, byte := (advanceCursor h).byte, mask := (advanceCursor h).mask } := by
  unfold advanceCursor
  split
  · split <;> rfl
  · rfl

section
variable {h : HufUnit}

/-- Inside a byte the mask moves on. -/
theorem advanceCursor_nextBit {k : Nat} (hk : k < 7) (hmask : h.mask = 128#8 >>> k) :
    advanceCursor h = { h with mask := 128#8 >>> (k + 1) } := by
  have hnotLast : h.mask ≠ 1#8 := by
    rw [hmask]
    exact mt (mask_eq_one_iff k (by omega)).mp (by omega)
  rw [advanceCursor, if_neg hnotLast, hmask, BitVec.shiftRight_add]

/-- After the last bit of a byte the next lower byte of the chunk follows. -/
theorem advanceCursor_nextByte (hmask : h.mask = 1#8) (hbyte : h.byte ≠ 0#2) :
    advanceCursor h = { h with mask := 128#8, byte := h.byte - 1#2 } := by
  rw [advanceCursor, if_pos hmask, if_neg hbyte]

/-- After the last bit of a chunk the next chunk follows. -/
theorem advanceCursor_nextChunk (hmask : h.mask = 1#8) (hbyte : h.byte = 0#2) :
    advanceCursor h = { h with mask := 128#8, byte := 3#2, chunk := h.chunk + 4#32 } := by
  rw [advanceCursor, if_pos hmask, if_pos hbyte]

end

/-- What O34 says of a cursor `c` that follows `h`, but for the frame. -/
def FollowsByOneBit (h c : HufUnit) : Prop :=
  MaskOneBit c ∧ cursorIndex c = cursorIndex h + 1 ∧ (c.chunk = h.chunk ∨ c.chunk.toNat = h.chunk.toNat + 4)

theorem advanceCursor_follows {h : HufUnit} (hmask : MaskOneBit h) (hchunk : h.chunk.toNat + 4 < 2 ^ 32) :
    FollowsByOneBit h (advanceCursor h) := by
  obtain ⟨k, hk, hmask⟩ := maskOneBit_iff.mp hmask
  have hindex := cursorIndex_eq hk hmask
  have hbyteBound : h.byte.toNat < 4 := h.byte.isLt
  rcases Nat.lt_or_ge k 7 with hinside | hlast
  · have hnext := cursorIndex_eq (h := { h with mask := 128#8 >>> (k + 1) }) (k := k + 1) (by omega) rfl
    rw [advanceCursor_nextBit hinside hmask]
    refine ⟨maskOneBit_iff.mpr ⟨k + 1, by omega, rfl⟩, ?_, .inl rfl⟩
    rw [hnext, hindex]
    dsimp only
    omega
  obtain rfl : k = 7 := by omega
  by_cases hbyte : h.byte = 0#2
  · have hnext := cursorIndex_eq (h := { h with mask := 128#8, byte := 3#2, chunk := h.chunk + 4#32 }) (k := 0)
      (by decide) rfl
    have hmoved : (h.chunk + 4#32).toNat = h.chunk.toNat + 4 := by
      simp only [BitVec.toNat_add, BitVec.toNat_ofNat]
      omega
    rw [advanceCursor_nextChunk hmask hbyte]
    refine ⟨.inl rfl, ?_, .inr hmoved⟩
    rw [hnext, hindex, hbyte, hmoved]
    rfl
  · have hnext := cursorIndex_eq (h := { h with mask := 128#8, byte := h.byte - 1#2 }) (k := 0) (by decide) rfl
    have hpositive : h.byte.toNat ≠ 0 := fun hzero => hbyte (BitVec.eq_of_toNat_eq hzero)
    have hmoved : (h.byte - 1#2).toNat = h.byte.toNat - 1 := by
      simp only [BitVec.toNat_sub, BitVec.toNat_ofNat]
      omega
    rw [advanceCursor_nextByte hmask hbyte]
    refine ⟨.inl rfl, ?_, .inl rfl⟩
    rw [hnext, hindex, hmoved]
    dsimp only
    omega

/-- Settles O34: the next bit of the byte, the first of the next lower byte, or the first of the next chunk. -/
theorem cursorMovesOneBit : Obligations.CursorMovesOneBit := by
  intro h hmask hchunk
  obtain ⟨hcursor, hindex, hmoved⟩ := advanceCursor_follows hmask hchunk
  exact ⟨hcursor, hindex, hmoved, advanceCursor_frame h⟩

/-- Bit `8 * i + j` of a word in memory is bit `j` of its byte `i` (20_memory.md R50). -/
theorem wordAt_getLsbD (buf : Buffer) (s : State) (a : Nat) {i j : Nat} (hi : i < 4) (hj : j < 8) :
    (wordAt buf s a).getLsbD (8 * i + j) = (byteAt buf (s.memory buf) (a + i)).getLsbD j := by
  simp only [wordAt, BitVec.getLsbD_append]
  interval_cases i
  · rw [if_pos (by omega), Nat.mul_zero, Nat.zero_add, Nat.add_zero]
  · rw [if_neg (by omega), if_pos (by omega)]
    congr 1
    omega
  · rw [if_neg (by omega), if_neg (by omega), if_pos (by omega)]
    congr 1
    omega
  · rw [if_neg (by omega), if_neg (by omega), if_neg (by omega)]
    congr 1
    omega

/-- Settles O35: byte `b` of the chunk under mask `128 >> k` is bit `8 * b + (7 - k)` of the word. -/
theorem streamBitsDescendTheChunkWord : Obligations.StreamBitsDescendTheChunkWord := by
  intro s hmask
  obtain ⟨k, hk, hmask⟩ := maskOneBit_iff.mp hmask
  have hbyte : s.huf.byte.toNat < 4 := s.huf.byte.isLt
  have hconsumed : cursorIndex s.huf - 8 * s.huf.chunk.toNat = 8 * (3 - s.huf.byte.toNat) + k := by
    rw [cursorIndex_eq hk hmask, Nat.add_sub_cancel_left]
  have hbit : 31 - (8 * (3 - s.huf.byte.toNat) + k) = 8 * s.huf.byte.toNat + (7 - k) := by omega
  have haddr : streamAddr s = sourceAddr s s.huf.chunk.toNat + s.huf.byte.toNat := by
    simp only [streamAddr, sourceAddr, Nat.add_assoc]
  rw [hconsumed, hbit, hmask, streamBit_shifted _ hk, wordAt_getLsbD .ibuf s _ hbyte (by omega), haddr]
  exact ⟨by omega, rfl⟩

end Sys2Proof.CursorMoves

/-! PROOF of O21, O46, O47 and O50. The invariant of the machine: its parts under the updates of a step, then every step
by who moves (10_state.md R26 to R35, R42, R43, 20_memory.md R63). -/

namespace Sys2Proof.Invariant

open Sys2Proof.Machine Sys2Proof.EngineMoves Sys2Proof.CursorMoves Sys2Proof.HuffmanUnit Sys2Proof.ContainerUnit
  Sys2Proof.FoldRun Sys2Proof.DecompRun Sys2Proof.Commands Sys2Proof.CommandWords

/-! ### The flags and the failure registers -/

section
variable {q : Sequencer} {f : StatusFlags} {r : HostRegs}

/-- While an operation runs, there is no result of an earlier one in the flags. -/
theorem busy_done_err (h : FlagsOk q f r) (hbusy : f.busy = true) : f.done = false ∧ f.err = false := by
  have hdone := h.not_busy_done hbusy
  exact ⟨hdone, Bool.eq_false_iff.mpr fun herr => Bool.false_ne_true (hdone.symm.trans (h.err_done herr))⟩

theorem busy_of_phase (h : FlagsOk q f r) (hphase : q.phase ≠ .idle) : f.busy = true :=
  Bool.eq_true_of_not_eq_false (mt h.idle_iff.mpr hphase)

theorem errCode_of_busy (h : FlagsOk q f r) (hbusy : f.busy = true) : r.errCode = none := by
  obtain ⟨-, herr⟩ := busy_done_err h hbusy
  exact not_not.mp (mt h.err_code.mpr (Bool.eq_false_iff.mp herr))

/-- Going on to another phase of the operation. -/
theorem flagsOk_goesOn {q' : Sequencer} (h : FlagsOk q f r) (hphase : q.phase ≠ .idle) (hphase' : q'.phase ≠ .idle) :
    FlagsOk q' f r where
  idle_iff := ⟨fun hidle => absurd hidle hphase', fun hbusy => absurd (h.idle_iff.mpr hbusy) hphase⟩
  not_busy_done := h.not_busy_done
  err_done := h.err_done
  err_code := h.err_code
  err_param := h.err_param
  err_result := h.err_result

/-- The finishing step of a success (43_system.md R176): no failure was recorded while the operation ran. -/
theorem flagsOk_finished (h : FlagsOk q f r) (hphase : q.phase ≠ .idle) (resultLen : Addr) :
    FlagsOk { q with phase := .idle } (flagsEnded false f) { r with resultLen := resultLen } where
  idle_iff := ⟨fun _ => rfl, fun _ => rfl⟩
  not_busy_done := fun hbusy => Bool.noConfusion hbusy
  err_done := fun _ => rfl
  err_code :=
    ⟨fun herr => Bool.noConfusion herr, fun hcode => absurd (errCode_of_busy h (busy_of_phase h hphase)) hcode⟩
  err_param := h.err_param
  err_result := fun herr => Bool.noConfusion herr

end

/-- The failures that carry a parameter, which is then not 0 (60_exceptions.md R190). -/
def ParamOk (e : Failure) (n : Nat) : Prop := BitVec.ofNat 32 n ≠ 0#32 ↔ e = .trailingBytes ∨ e = .truncatedInput

/-- The finishing step of a failure (60_exceptions.md R200). -/
theorem flagsOk_failed {e : Failure} {n : Nat} (hparam : ParamOk e n) (q : Sequencer) (f : StatusFlags) (r : HostRegs) :
    FlagsOk { q with phase := .idle } (flagsEnded true f)
      { r with errCode := some e, errParam := BitVec.ofNat 32 n, resultLen := 0#32 } where
  idle_iff := ⟨fun _ => rfl, fun _ => rfl⟩
  not_busy_done := fun hbusy => Bool.noConfusion hbusy
  err_done := fun _ => rfl
  err_code := ⟨fun _ => Option.some_ne_none e, fun _ => rfl⟩
  err_param := by simpa only [ParamOk, Option.some.injEq] using hparam
  err_result := fun _ => rfl

/-- A legal command (43_system.md R171). -/
theorem flagsOk_begun (op : SeqOp) {p : Phase} (hp : p ≠ .idle) (f : StatusFlags) (r : HostRegs) :
    FlagsOk { op := op, phase := p } (flagsStarted f) { r with errCode := none, errParam := 0#32 } where
  idle_iff := ⟨fun hidle => absurd hidle hp, fun hbusy => Bool.noConfusion hbusy⟩
  not_busy_done := fun _ => rfl
  err_done := fun herr => Bool.noConfusion herr
  err_code := ⟨fun herr => Bool.noConfusion herr, fun hcode => absurd rfl hcode⟩
  err_param := by simp
  err_result := fun herr => Bool.noConfusion herr

/-! ### What the invariant says in each phase -/

section
variable {c : CrcUnit} {h : HufUnit} {d : DspUnit} {q : Sequencer}

theorem phaseOk_idle (hphase : q.phase = .idle) : PhaseOk c h d q := by
  rw [PhaseOk, hphase]
  trivial

theorem phaseOk_scan_iff (hphase : q.phase = .scan) :
    PhaseOk c h d q ↔ FileOk d q ∧ d.probe.toNat % 64 = 0 ∧ d.probe.toNat ≤ 1088 := by
  rw [PhaseOk, hphase]

theorem phaseOk_hdr_iff (hphase : q.phase = .hdr) :
    PhaseOk c h d q ↔ FileOk d q ∧ OffsetOk d ∧ d.offset.toNat + 4 ≤ d.flen.toNat := by
  rw [PhaseOk, hphase]

theorem phaseOk_copy_iff (hphase : q.phase = .copy) :
    PhaseOk c h d q ↔ HeaderOk d q ∧ d.cpIdx.toNat ≤ d.offset.toNat := by
  rw [PhaseOk, hphase]

theorem phaseOk_hufInit_iff (hphase : q.phase = .hufInit) : PhaseOk c h d q ↔ DecodeOk h d q ∧ SourceOk h := by
  rw [PhaseOk, hphase]

theorem phaseOk_hufBit_iff (hphase : q.phase = .hufBit) : PhaseOk c h d q ↔ DecodeOk h d q ∧ WalkOk h := by
  rw [PhaseOk, hphase]

theorem phaseOk_lenChk_iff (hphase : q.phase = .lenChk) : PhaseOk c h d q ↔ DecompOk h d q := by
  rw [PhaseOk, hphase]

theorem phaseOk_crcA_iff (hphase : q.phase = .crcA) :
    PhaseOk c h d q ↔ FoldOk c ∧ (q.op = .crc32 ∨
      (DecompOk h d q ∧ c.sel = .ibuf ∧ c.base = d.fbase ∧ c.len.toNat = d.offset.toNat)) := by
  rw [PhaseOk, hphase]

theorem phaseOk_crcB_iff (hphase : q.phase = .crcB) :
    PhaseOk c h d q ↔ FoldOk c ∧ DecompOk h d q ∧ c.sel = .obuf ∧ c.base.toNat = d.offset.toNat ∧
      c.len.toNat = h.outLen.toNat := by
  rw [PhaseOk, hphase]

theorem phaseOk_crcChk_iff (hphase : q.phase = .crcChk) : PhaseOk c h d q ↔ DecompOk h d q := by
  rw [PhaseOk, hphase]

/-! ### The folds -/

theorem foldOk_of_phaseOk (hphase : q.phase = .crcA ∨ q.phase = .crcB) (hok : PhaseOk c h d q) : FoldOk c := by
  rcases hphase with hphase | hphase
  · exact ((phaseOk_crcA_iff hphase).mp hok).1
  · exact ((phaseOk_crcB_iff hphase).mp hok).1

/-- A fold phase asks of the cursor that its index is inside the data, and of nothing else that a fold step writes. -/
theorem phaseOk_folded (hphase : q.phase = .crcA ∨ q.phase = .crcB) (hok : PhaseOk c h d q) (reg w : Word)
    (iter : Nat) {idx : Addr} (hidx : idx.toNat ≤ c.len.toNat) :
    PhaseOk { c with reg := reg, w := w, iter := iter, idx := idx } h d q := by
  have hroom : c.base.toNat + c.len.toNat ≤ Config.CAP := (foldOk_of_phaseOk hphase hok).1
  rcases hphase with hphase | hphase
  · exact (phaseOk_crcA_iff hphase).mpr ⟨⟨hroom, hidx⟩, ((phaseOk_crcA_iff hphase).mp hok).2⟩
  · exact (phaseOk_crcB_iff hphase).mpr ⟨⟨hroom, hidx⟩, ((phaseOk_crcB_iff hphase).mp hok).2⟩

theorem decompOk_of_crcA (hphase : q.phase = .crcA) (hop : q.op ≠ .crc32) (hok : PhaseOk c h d q) :
    DecompOk h d q := by
  obtain ⟨-, hcrc32 | ⟨hdecomp, -⟩⟩ := (phaseOk_crcA_iff hphase).mp hok
  · exact absurd hcrc32 hop
  · exact hdecomp

/-! ### The walk -/

theorem decodeOk_of_obase {h' : HufUnit} (hobase : h'.obase = h.obase) (hok : DecodeOk h d q) : DecodeOk h' d q := by
  unfold DecodeOk DecompOk at hok ⊢
  rwa [hobase]

/-- The walk at another pair of the tree, with room left in the payload. -/
theorem walkOk_moved (hok : WalkOk h) (entry : BitVec 8) {pos : BitVec 9} {outPos : BitVec 24}
    (hpos : pos.toNat ≤ h.extra.toNat) (hroom : outPos.toNat < h.outLen.toNat) :
    WalkOk { h with pos := pos, entry := entry, outPos := outPos } where
  source := hok.source
  magIdx := hok.magIdx
  tree := hok.tree
  pos := hpos
  outPos := hroom
  chunk := hok.chunk
  chunkEnd := hok.chunkEnd
  mask := hok.mask

/-- A whole chunk ends inside the source, far below `2^32`. -/
theorem chunk_succ_lt (hsource : SourceOk h) (hwhole : h.chunk.toNat + 4 ≤ h.slen.toNat) :
    h.chunk.toNat + 4 < 2 ^ 32 := by
  unfold SourceOk Config.CAP at hsource
  omega

/-- The cursor moves on from a bit of a whole chunk (O34). -/
theorem walkOk_advanced (hok : WalkOk h) (hwhole : h.chunk.toNat + 4 ≤ h.slen.toNat) : WalkOk (advanceCursor h) := by
  obtain ⟨hmask, -, hmoved⟩ := advanceCursor_follows hok.mask (chunk_succ_lt hok.source hwhole)
  obtain ⟨hfirst, hstride⟩ := hok.chunk
  have hchunk : (advanceCursor h).chunk.toNat = h.chunk.toNat ∨ (advanceCursor h).chunk.toNat = h.chunk.toNat + 4 :=
    hmoved.imp_left fun hsame => by rw [hsame]
  rw [advanceCursor_frame]
  exact
    { source := hok.source, magIdx := hok.magIdx, tree := hok.tree, pos := hok.pos, outPos := hok.outPos
      chunk := by dsimp only; omega
      chunkEnd := by dsimp only; omega
      mask := hmask }

theorem advanceCursor_obase (h : HufUnit) : (advanceCursor h).obase = h.obase := by
  rw [advanceCursor_frame]

/-- What a bit step that goes on needs. -/
theorem phaseOk_walked (hphase : q.phase = .hufBit) (hok : PhaseOk c h d q) (hwhole : h.chunk.toNat + 4 ≤ h.slen.toNat)
    (entry : BitVec 8) {pos : BitVec 9} {outPos : BitVec 24} (hpos : pos.toNat ≤ h.extra.toNat)
    (hroom : outPos.toNat < h.outLen.toNat) :
    PhaseOk c (advanceCursor { h with pos := pos, entry := entry, outPos := outPos }) d q := by
  obtain ⟨hdecode, hwalk⟩ := (phaseOk_hufBit_iff hphase).mp hok
  exact (phaseOk_hufBit_iff hphase).mpr
    ⟨decodeOk_of_obase (advanceCursor_obase _) hdecode, walkOk_advanced (walkOk_moved hwalk entry hpos hroom) hwhole⟩

/-- While the payload is not full, one byte more does not overfill it. -/
theorem outPos_succ_lt (hok : WalkOk h) (hmore : h.outPos + 1#24 ≠ h.outLen) :
    (h.outPos + 1#24).toNat < h.outLen.toNat := by
  have hroom := hok.outPos
  have hlen : h.outLen.toNat < 2 ^ 24 := h.outLen.isLt
  have hsucc : (h.outPos + 1#24).toNat = h.outPos.toNat + 1 := by
    simp only [BitVec.toNat_add, BitVec.toNat_ofNat]
    omega
  have hne := mt BitVec.eq_of_toNat_eq hmore
  omega

/-- A decode that does not work for `HDEC` works for `DECOMP`. -/
theorem decompOk_of_decodeOk (hop : q.op ≠ .hdec) (hok : DecodeOk h d q) : DecompOk h d q :=
  hok.resolve_left fun hhdec => hop hhdec.1

end

/-! ### The invariant under the updates of an engine step -/

section
variable {s : State} (hinv : Inv s)
include hinv

/-- Nothing of the invariant is about the inputs that wait. -/
theorem inv_turnTaken : Inv (turnTaken s) := ⟨hinv.memories, hinv.flags, hinv.phase, hinv.iter⟩

/-- Outside the folds no byte is half folded (log 3). -/
theorem iter_outsideFolds {p : Phase} (hphase : s.seq.phase = p) (hp : p ≠ .crcA ∧ p ≠ .crcB := by decide) :
    s.crc.iter = 0 := by
  subst hphase
  exact hinv.iter.resolve_right fun hinside => hinside.1.elim hp.1 hp.2

/-- Storing a byte inside `OBUF`. -/
theorem memoriesOk_stored {a : Nat} (ha : a < Config.CAP) (b : Byte) :
    s.ibuf.wf = true ∧ (s.obuf.put a b).wf = true := ⟨hinv.memories.1, Memory.put_wf b ha hinv.memories.2⟩

theorem walkOk_of_inv (hphase : s.seq.phase = .hufBit) : WalkOk s.huf := (decodeOk_walkOk_of_inv hinv hphase).2

/-- A failure carries the parameter it should. -/
theorem paramOk_of_raises {u : State} {e : Failure} {n : Nat} (h : Raises s u e n) : ParamOk e n := by
  cases h with
  | truncated hphase =>
    have hroom := (walkOk_of_inv hinv hphase).outPos
    have hlen : s.huf.outLen.toNat < 2 ^ 24 := s.huf.outLen.isLt
    refine iff_of_true (fun hzero => ?_) (.inr rfl)
    have hcount := congrArg BitVec.toNat hzero
    simp only [BitVec.toNat_ofNat] at hcount
    omega
  | trailing hphase hwhole lit hpayload hrem =>
    have hslen : s.huf.slen.toNat < 2 ^ 32 := s.huf.slen.isLt
    refine iff_of_true (fun hzero => ?_) (.inl rfl)
    have hcount := congrArg BitVec.toNat hzero
    unfold remainingBytes at hrem hcount
    simp only [BitVec.toNat_ofNat] at hcount
    omega
  | _ => exact iff_of_false (not_not_intro rfl) (by simp)

theorem memoriesOk_of_raises {u : State} {e : Failure} {n : Nat} (h : Raises s u e n) : MemoriesOk u := by
  cases h with
  | trailing hphase hwhole lit hpayload hrem => exact memoriesOk_stored hinv hpayload lit
  | _ => exact hinv.memories

theorem inv_failed {u : State} {e : Failure} {n : Nat} (h : Raises s u e n) : Inv (u.failed e n) := by
  obtain ⟨hibuf, hobuf⟩ := memoriesOk_of_raises hinv h
  have hoff := outsideFolds_of_failing _ h.phase_mem
  exact
    { memories := ⟨hibuf, Memory.spoil_wf _ hobuf⟩
      flags := flagsOk_failed (paramOk_of_raises hinv h) _ _ _
      phase := phaseOk_idle rfl
      iter := .inl ((congrArg CrcUnit.iter h.frame.crc).trans (iter_outsideFolds hinv rfl hoff)) }

/-- A success leaves the machine idle. -/
theorem inv_finished {m : Memory} (hobuf : m.wf = true) (hphase : s.seq.phase ≠ .idle) (hiter : s.crc.iter = 0)
    (h : HufUnit) (resultLen : Addr) :
    Inv (State.finish { s with huf := h, obuf := m, regs := { s.regs with resultLen := resultLen } }) where
  memories := ⟨hinv.memories.1, hobuf⟩
  flags := flagsOk_finished hinv.flags hphase resultLen
  phase := phaseOk_idle rfl
  iter := .inl hiter

/-- A step that goes on, outside the folds. -/
theorem inv_goesOn {t : State} {p p' : Phase} (hphase : s.seq.phase = p) (hphase' : t.seq.phase = p')
    (hstatus : t.status = s.status) (hregs : t.regs = s.regs) (hiter : t.crc.iter = s.crc.iter)
    (hmemories : MemoriesOk t) (hok : PhaseOk t.crc t.huf t.dsp t.seq)
    (hp : p ≠ .idle ∧ p ≠ .crcA ∧ p ≠ .crcB := by decide) (hp' : p' ≠ .idle := by decide) : Inv t := by
  obtain ⟨hidle, hfolds⟩ := hp
  exact
    { memories := hmemories, phase := hok, iter := .inl (hiter.trans (iter_outsideFolds hinv hphase hfolds))
      flags := by
        rw [hstatus, hregs]
        exact flagsOk_goesOn hinv.flags (hphase.trans_ne hidle) (hphase'.trans_ne hp') }

end

/-! ### The counters of a step -/

/-- A probe below the last offset does not wrap when it moves on. -/
theorem probe_next_toNat {s : State} (hlast : s.dsp.probe.toNat ≤ 1024) :
    (nextProbe s).dsp.probe.toNat = s.dsp.probe.toNat + 64 := by
  simp only [nextProbe_dsp, Config.SCAN_STRIDE, BitVec.toNat_add, BitVec.toNat_ofNat]
  omega

/-- The index of a preamble byte that is still to be copied does not wrap when it moves on. -/
theorem cpIdx_succ_toNat {d : DspUnit} (hmore : d.cpIdx.toNat < d.offset.toNat) :
    (d.cpIdx + 1#11).toNat = d.cpIdx.toNat + 1 := by
  have hbits : d.offset.toNat < 2 ^ 11 := d.offset.isLt
  simp only [BitVec.toNat_add, BitVec.toNat_ofNat]
  omega

/-- The index of a byte that is still to be folded does not wrap when it moves on. -/
theorem idx_succ_toNat {c : CrcUnit} (hmore : c.idx.toNat < c.len.toNat) :
    (c.idx + 1#32).toNat = c.idx.toNat + 1 := by
  have hlen : c.len.toNat < 2 ^ 32 := c.len.isLt
  simp only [BitVec.toNat_add, BitVec.toNat_ofNat]
  omega

/-! ### The engine's moves -/

theorem scanExhausted_eq_false_iff {s : State} :
    scanExhausted s = false ↔ s.dsp.probe.toNat ≤ 1024 ∧ s.dsp.probe.toNat + 4 ≤ s.dsp.flen.toNat := by
  rw [scanExhausted, Bool.or_eq_false_iff, decide_eq_false_iff_not, decide_eq_false_iff_not, Nat.not_lt, Nat.not_lt]
  rfl

theorem headerTooShort_eq_false_iff {s : State} :
    headerTooShort s = false ↔ s.dsp.offset.toNat + 17 ≤ s.dsp.flen.toNat := by
  simp only [headerTooShort, decide_eq_false_iff_not, Nat.not_lt]

section
variable {s : State} (hinv : Inv s)
include hinv

theorem phaseOk_found (hphase : s.seq.phase = .scan) (hmore : scanExhausted s = false) :
    PhaseOk s.crc s.huf { s.dsp with offset := s.dsp.probe } { s.seq with phase := .hdr } := by
  obtain ⟨hfile, hstride, -⟩ := (phaseOk_scan_iff hphase).mp hinv.phase
  obtain ⟨hlast, hword⟩ := scanExhausted_eq_false_iff.mp hmore
  exact (phaseOk_hdr_iff rfl).mpr ⟨hfile, ⟨hstride, hlast⟩, hword⟩

theorem phaseOk_probed (hphase : s.seq.phase = .scan) (hmore : scanExhausted s = false) :
    PhaseOk s.crc s.huf (nextProbe s).dsp s.seq := by
  obtain ⟨hfile, hstride, -⟩ := (phaseOk_scan_iff hphase).mp hinv.phase
  obtain ⟨hlast, -⟩ := scanExhausted_eq_false_iff.mp hmore
  have hprobe := probe_next_toNat hlast
  exact (phaseOk_scan_iff hphase).mpr ⟨hfile, by omega, by omega⟩

theorem phaseOk_accepted (hphase : s.seq.phase = .hdr) (hroom : headerTooShort s = false) (len crc : Nat) :
    PhaseOk s.crc s.huf (headerAccepted (s.headerRead len crc)).dsp { s.seq with phase := .copy } := by
  obtain ⟨hfile, hoffset, -⟩ := (phaseOk_hdr_iff hphase).mp hinv.phase
  exact (phaseOk_copy_iff rfl).mpr
    ⟨⟨hfile, hoffset, headerTooShort_eq_false_iff.mp hroom, descriptorStart_toNat hoffset len crc⟩, Nat.zero_le _⟩

theorem phaseOk_copied (hphase : s.seq.phase = .copy) (hmore : s.dsp.cpIdx.toNat < s.dsp.offset.toNat) :
    PhaseOk s.crc s.huf { s.dsp with cpIdx := s.dsp.cpIdx + 1#11 } s.seq := by
  obtain ⟨hheader, -⟩ := (phaseOk_copy_iff hphase).mp hinv.phase
  exact (phaseOk_copy_iff hphase).mpr ⟨hheader, (cpIdx_succ_toNat hmore).trans_le hmore⟩

/-- The source handed over runs from the descriptor to the end of the file (R156). -/
theorem handOver_source (hphase : s.seq.phase = .copy) :
    (handOver s).huf.sbase.toNat = s.dsp.fbase.toNat + s.dsp.hStart.toNat ∧
      (handOver s).huf.slen.toNat = s.dsp.flen.toNat - s.dsp.hStart.toNat := by
  obtain ⟨⟨⟨-, hfile⟩, ⟨-, hlast⟩, hroom, hstart⟩, -⟩ := (phaseOk_copy_iff hphase).mp hinv.phase
  unfold Config.CAP at hfile
  simp only [handOver_huf, BitVec.toNat_ofNat]
  omega

theorem phaseOk_handedOver (hphase : s.seq.phase = .copy) :
    PhaseOk s.crc (handOver s).huf s.dsp { s.seq with phase := .hufInit } := by
  obtain ⟨hheader, -⟩ := (phaseOk_copy_iff hphase).mp hinv.phase
  obtain ⟨hsbase, hslen⟩ := handOver_source hinv hphase
  obtain ⟨⟨-, hfile⟩, -, hroom, hstart⟩ := id hheader
  have hobase : (handOver s).huf.obase.toNat = s.dsp.offset.toNat := BitVec.toNat_setWidth_of_le (by decide)
  refine (phaseOk_hufInit_iff rfl).mpr ⟨.inr ⟨hheader, hobase⟩, ?_⟩
  rw [SourceOk, hsbase, hslen]
  omega

theorem phaseOk_walkBegun (hphase : s.seq.phase = .hufInit) {outLen : Nat} {extra : Byte} (root : Byte)
    (hroom : (magIdxOf extra).toNat < s.huf.slen.toNat) (hnonempty : BitVec.ofNat 24 outLen ≠ 0#24) :
    PhaseOk s.crc ((s.headerParsed outLen extra).walkStarted root).huf s.dsp { s.seq with phase := .hufBit } := by
  obtain ⟨hdecode, hsource⟩ := (phaseOk_hufInit_iff hphase).mp hinv.phase
  have hchunk : ((magIdxOf extra).setWidth 32).toNat = (magIdxOf extra).toNat :=
    BitVec.toNat_setWidth_of_le (by decide)
  refine (phaseOk_hufBit_iff rfl).mpr ⟨decodeOk_of_obase (h := s.huf) rfl hdecode, ?_⟩
  exact
    { source := hsource, magIdx := magIdxOf_toNat extra, tree := hroom, pos := Nat.zero_le _
      outPos := Nat.pos_of_ne_zero fun hzero => hnonempty (BitVec.eq_of_toNat_eq hzero)
      chunk := ⟨hchunk.ge, by
        change (((magIdxOf extra).setWidth 32).toNat - (magIdxOf extra).toNat) % 4 = 0
        rw [hchunk, Nat.sub_self]⟩
      chunkEnd := hchunk.trans_le hroom.le
      mask := .inl rfl }

theorem phaseOk_foldBegun (hphase : s.seq.phase = .lenChk) :
    PhaseOk (preambleFold s).crc s.huf s.dsp { s.seq with phase := .crcA } := by
  have hdecomp := (phaseOk_lenChk_iff hphase).mp hinv.phase
  obtain ⟨⟨⟨-, hfile⟩, -, hroom, -⟩, -⟩ := id hdecomp
  have hlen : (preambleFold s).crc.len.toNat = s.dsp.offset.toNat := BitVec.toNat_setWidth_of_le (by decide)
  refine (phaseOk_crcA_iff rfl).mpr ⟨⟨?_, Nat.zero_le _⟩, .inr ⟨hdecomp, rfl, rfl, hlen⟩⟩
  rw [hlen]
  exact (Nat.add_le_add_left (Nat.le_of_add_right_le hroom) _).trans hfile

theorem phaseOk_payloadFoldBegun (hphase : s.seq.phase = .crcA) (hop : s.seq.op ≠ .crc32) :
    PhaseOk (payloadFold s).crc s.huf s.dsp { s.seq with phase := .crcB } := by
  have hdecomp := decompOk_of_crcA hphase hop hinv.phase
  obtain ⟨⟨-, ⟨-, hlast⟩, -⟩, -⟩ := id hdecomp
  have hbits : s.huf.outLen.toNat < 16777216 := s.huf.outLen.isLt
  have hbase : (payloadFold s).crc.base.toNat = s.dsp.offset.toNat := BitVec.toNat_setWidth_of_le (by decide)
  have hlen : (payloadFold s).crc.len.toNat = s.huf.outLen.toNat := BitVec.toNat_setWidth_of_le (by decide)
  refine (phaseOk_crcB_iff rfl).mpr ⟨⟨?_, Nat.zero_le _⟩, hdecomp, rfl, hbase, hlen⟩
  rw [hbase, hlen, Config.CAP]
  omega

/-- The half-folded byte, if there is one, is still to be folded. -/
theorem iter_inside (hiter : s.crc.iter ≠ 0) : s.crc.iter ≤ 8 ∧ s.crc.idx.toNat < s.crc.len.toNat :=
  (hinv.iter.resolve_left hiter).2

omit hinv in
theorem not_idle_of_fold (hphase : s.seq.phase = .crcA ∨ s.seq.phase = .crcB) : s.seq.phase ≠ .idle := by
  rcases hphase with hphase | hphase <;> rw [hphase] <;> exact Phase.noConfusion

/-- Every engine step keeps the invariant. -/
theorem inv_of_engineStep {t : State} (h : EngineStep s t) : Inv t := by
  cases h with
  | idled => exact hinv
  | raised hraise => exact inv_failed hinv hraise
  | found hphase hmore =>
    exact inv_goesOn hinv hphase (p' := .hdr) rfl rfl rfl rfl hinv.memories (phaseOk_found (s := s) hinv hphase hmore)
  | probed hphase hmore =>
    exact inv_goesOn hinv hphase hphase rfl rfl rfl hinv.memories (phaseOk_probed hinv hphase hmore)
  | accepted hphase hroom len crc =>
    exact inv_goesOn hinv hphase (p' := .copy) rfl rfl rfl rfl hinv.memories
      (phaseOk_accepted hinv hphase hroom len crc)
  | copied hphase hmore haddr b =>
    exact inv_goesOn hinv hphase hphase rfl rfl rfl
      (memoriesOk_stored hinv haddr b) (phaseOk_copied hinv hphase hmore)
  | handedOver hphase =>
    exact inv_goesOn hinv hphase (p' := .hufInit) rfl rfl rfl rfl hinv.memories
      (phaseOk_handedOver (s := s) hinv hphase)
  | walkBegun hphase outLen extra root hroom hnonempty =>
    exact inv_goesOn hinv hphase (p' := .hufBit) rfl rfl rfl rfl hinv.memories
      (phaseOk_walkBegun hinv hphase root hroom hnonempty)
  | descended hphase hwhole e p hp =>
    have hpos : (BitVec.ofNat 9 p).toNat ≤ s.huf.extra.toNat := (Nat.mod_le _ _).trans hp
    exact inv_goesOn hinv hphase hphase rfl rfl rfl hinv.memories
      (phaseOk_walked hphase hinv.phase hwhole e hpos (walkOk_of_inv hinv hphase).outPos)
  | restarted hphase hwhole lit root hpayload hmore =>
    exact inv_goesOn hinv hphase hphase rfl rfl rfl (memoriesOk_stored hinv hpayload lit)
      (phaseOk_walked hphase hinv.phase hwhole root (Nat.zero_le _) (outPos_succ_lt (walkOk_of_inv hinv hphase) hmore))
  | decodeFinished hphase lit hpayload =>
    exact inv_finished hinv (memoriesOk_stored hinv hpayload lit).2 (by simp [hphase])
      (iter_outsideFolds hinv hphase) (emittedState lit s).huf _
  | decoded hphase lit hpayload hop =>
    exact inv_goesOn hinv hphase (p' := .lenChk) rfl rfl rfl rfl
      (memoriesOk_stored hinv hpayload lit)
      ((phaseOk_lenChk_iff rfl).mpr (decompOk_of_decodeOk hop (decodeOk_walkOk_of_inv hinv hphase).1))
  | foldBegun hphase =>
    exact inv_goesOn hinv hphase (p' := .crcA) rfl rfl rfl rfl hinv.memories (phaseOk_foldBegun hinv hphase)
  | bitCounted hphase hiter =>
    obtain ⟨hcount, hmore⟩ := iter_inside hinv (Nat.ne_zero_of_lt hiter)
    exact
      { memories := hinv.memories, flags := hinv.flags, phase := phaseOk_folded hphase hinv.phase _ _ _ hmore.le
        iter := .inr ⟨hphase, (Nat.sub_le _ _).trans hcount, hmore⟩ }
  | byteFinished hphase hiter =>
    obtain ⟨-, hmore⟩ := iter_inside hinv (hiter.trans_ne Nat.one_ne_zero)
    exact
      { memories := hinv.memories, flags := hinv.flags, iter := .inl rfl
        phase := phaseOk_folded hphase hinv.phase _ _ _ ((idx_succ_toNat hmore).trans_le hmore) }
  | byteFolded hphase hiter hmore b =>
    exact
      { memories := hinv.memories, flags := hinv.flags, iter := .inl hiter
        phase := phaseOk_folded hphase hinv.phase _ _ _ ((idx_succ_toNat hmore).trans_le hmore) }
  | foldFinished hphase hiter =>
    exact inv_finished hinv hinv.memories.2 (not_idle_of_fold hphase) hiter s.huf s.regs.resultLen
  | payloadFoldBegun hphase hiter hop =>
    exact
      { memories := hinv.memories, iter := .inl hiter, phase := phaseOk_payloadFoldBegun hinv hphase hop
        flags := flagsOk_goesOn hinv.flags (not_idle_of_fold (.inl hphase)) Phase.noConfusion }
  | foldsDone hphase hiter =>
    obtain ⟨-, hdecomp, -⟩ := (phaseOk_crcB_iff hphase).mp hinv.phase
    exact
      { memories := hinv.memories, iter := .inl hiter, phase := (phaseOk_crcChk_iff rfl).mpr hdecomp
        flags := flagsOk_goesOn hinv.flags (not_idle_of_fold (.inr hphase)) Phase.noConfusion }
  | verified hphase =>
    exact inv_finished hinv hinv.memories.2 (by simp [hphase]) (iter_outsideFolds hinv hphase) s.huf _

/-! ### The host's moves -/

theorem inv_illegal : Inv s.illegal where
  memories := hinv.memories
  flags := ⟨hinv.flags.idle_iff, hinv.flags.not_busy_done, hinv.flags.err_done, hinv.flags.err_code,
    hinv.flags.err_param, hinv.flags.err_result⟩
  phase := hinv.phase
  iter := hinv.iter

variable (hidle : s.status.busy = false)
include hidle

theorem inv_crc32Begun (src : Buffer) (hfits : s.regs.argBase.toNat + s.regs.argLen.toNat ≤ Config.CAP) :
    Inv (crc32Begun s src) where
  memories := hinv.memories
  flags := flagsOk_begun .crc32 Phase.noConfusion s.status s.regs
  phase := (phaseOk_crcA_iff rfl).mpr ⟨⟨hfits, Nat.zero_le _⟩, .inl rfl⟩
  iter := .inl (iter_of_notBusy (s := s) hinv hidle)

theorem inv_hdecBegun (hfits : s.regs.argBase.toNat + s.regs.argLen.toNat ≤ Config.CAP) : Inv (hdecBegun s) where
  memories := hinv.memories
  flags := flagsOk_begun .hdec Phase.noConfusion s.status s.regs
  phase := (phaseOk_hufInit_iff rfl).mpr ⟨.inl ⟨rfl, rfl⟩, hfits⟩
  iter := .inl (iter_of_notBusy (s := s) hinv hidle)

theorem inv_decompBegun (hfits : s.regs.argBase.toNat + s.regs.argLen.toNat ≤ Config.CAP) : Inv (decompBegun s) where
  memories := hinv.memories
  flags := flagsOk_begun .decomp Phase.noConfusion s.status s.regs
  phase := (phaseOk_scan_iff rfl).mpr ⟨⟨rfl, hfits⟩, rfl, Nat.zero_le _⟩
  iter := .inl (iter_of_notBusy (s := s) hinv hidle)

omit hidle in
/-- A command that starts or is illegal keeps the invariant, if what it starts does. -/
theorem inv_of_command {i : Instr} {begun t : State}
    (hexec : exec i s = if operandFits s then .next begun else .next s.illegal)
    (hbegun : s.regs.argBase.toNat + s.regs.argLen.toNat ≤ Config.CAP → Inv begun) (h : exec i s = .next t) :
    Inv t := by
  rw [hexec] at h
  split at h
  · next hfits => cases h; exact hbegun (operandFits_iff.mp hfits)
  · cases h; exact inv_illegal hinv

/-- A command word starts its operation, or is illegal (R171, R177). -/
theorem inv_of_commandWord {v : Word} {t : State} (h : runFetched (.selected (.cmd v) s) = .next t) : Inv t := by
  rcases decodeCmd_cases v with ⟨i, hok, hencode⟩ | herr
  · rw [runFetched_selected (sel := .cmd v) hok, HostWrites.settleOut_cmd] at h
    cases i with
    | crc32 src => exact inv_of_command hinv (exec_crc32_idle hidle src) (inv_crc32Begun hinv hidle src) h
    | hdec => exact inv_of_command hinv (exec_hdec_idle hidle) (inv_hdecBegun hinv hidle) h
    | decomp => exact inv_of_command hinv (exec_decomp_idle hidle) (inv_decompBegun hinv hidle) h
    | _ => cases hencode
  · rw [runFetched_unselected (sel := .cmd v) herr] at h
    cases h
    exact inv_illegal hinv

/-- The three registers a host can store to are no part of the invariant. -/
theorem inv_writeHostReg (n v : Nat) : Inv (writeHostReg n v s) := by
  have hphase := phase_of_notBusy hinv hidle
  have hregs (argBase argLen : Addr) : FlagsOk s.seq s.status { s.regs with argBase := argBase, argLen := argLen } :=
    ⟨hinv.flags.idle_iff, hinv.flags.not_busy_done, hinv.flags.err_done, hinv.flags.err_code,
      hinv.flags.err_param, hinv.flags.err_result⟩
  unfold writeHostReg
  split
  · next r _ =>
    cases r with
    | argBase => exact ⟨hinv.memories, hregs _ s.regs.argLen, hinv.phase, hinv.iter⟩
    | argLen => exact ⟨hinv.memories, hregs s.regs.argBase _, hinv.phase, hinv.iter⟩
    | crcReg => exact ⟨hinv.memories, hinv.flags, phaseOk_idle hphase, hinv.iter⟩
    | _ => exact hinv
  · exact hinv

omit hidle in
theorem inv_withMemory {buf : Buffer} {m : Memory} (hwf : (s.memory buf).wf = true → m.wf = true) :
    Inv (s.withMemory buf m) := by
  obtain ⟨hibuf, hobuf⟩ := hinv.memories
  cases buf with
  | ibuf => exact ⟨⟨hwf hibuf, hobuf⟩, hinv.flags, hinv.phase, hinv.iter⟩
  | obuf => exact ⟨⟨hibuf, hwf hobuf⟩, hinv.flags, hinv.phase, hinv.iter⟩

end

/-- While busy the host may do nothing but read `STATUS`. -/
theorem notBusy_of_hostMay {a : HostAction} {s : State} (h : hostMay a s = true) (ha : a ≠ .readReg 1) :
    s.status.busy = false := by
  simpa [hostMay, ha] using h

/-- Every move of the host keeps the invariant: a read leaves all but the reply, and the rest needs the engine idle. -/
theorem inv_of_fetchHost {a : HostAction} {s t : State} (hinv : Inv s) (h : runFetched (fetchHost a s) = .next t) :
    Inv t := by
  obtain ⟨hmay, hcases⟩ := fetchHost_next h
  rcases hcases with ⟨n, -, rfl⟩ | ⟨v, rfl, hcmd⟩ | ⟨n, v, rfl, -, rfl⟩ | ⟨buf, b, n, bs, -, -, rfl⟩ |
    ⟨buf, b, bs, -, hwrite⟩
  · exact ⟨hinv.memories, hinv.flags, hinv.phase, hinv.iter⟩
  · exact inv_of_commandWord hinv (notBusy_of_hostMay hmay HostAction.noConfusion) hcmd
  · exact inv_writeHostReg hinv (notBusy_of_hostMay hmay HostAction.noConfusion) n v
  · exact ⟨hinv.memories, hinv.flags, hinv.phase, hinv.iter⟩
  · obtain ⟨hroom, rfl⟩ := writeBytes_ok_iff.mp hwrite
    exact inv_withMemory hinv (Memory.putAll_wf bs hroom)

/-! ### Reset -/

theorem flagsOk_reset : FlagsOk State.reset.seq State.reset.status State.reset.regs where
  idle_iff := ⟨fun _ => rfl, fun _ => rfl⟩
  not_busy_done := fun _ => rfl
  err_done := fun herr => Bool.noConfusion herr
  err_code := ⟨fun herr => Bool.noConfusion herr, fun hcode => absurd rfl hcode⟩
  err_param := by simp [State.reset]
  err_result := fun _ => rfl

/-- Settles O46: no byte of the memories is definite, no operation runs, and no byte is half folded. -/
theorem invHoldsAtReset : Obligations.InvHoldsAtReset where
  memories := ⟨Memory.blank_wf, Memory.blank_wf⟩
  flags := flagsOk_reset
  phase := phaseOk_idle rfl
  iter := .inl rfl

theorem inv_afterReset {s : State} (hinv : Inv s) : Inv s.afterReset where
  memories := ⟨Memory.spoil_wf _ hinv.memories.1, Memory.spoil_wf _ hinv.memories.2⟩
  flags := flagsOk_reset
  phase := phaseOk_idle rfl
  iter := .inl rfl

/-- Settles O47, by who moves: the reset input, the host or the engine. -/
theorem everyStepKeepsInv : Obligations.EveryStepKeepsInv := by
  intro s t hinv hstep
  rcases step_cases s with ⟨rest, -, hreset⟩ | ⟨a, rest, -, hhost⟩ | ⟨hturn, -⟩
  · cases hreset.symm.trans hstep
    exact inv_afterReset (s := { s with inputs := rest }) ⟨hinv.memories, hinv.flags, hinv.phase, hinv.iter⟩
  · exact inv_of_fetchHost (s := { s with inputs := rest }) ⟨hinv.memories, hinv.flags, hinv.phase, hinv.iter⟩
      (hhost.symm.trans hstep)
  · exact inv_of_engineStep (inv_turnTaken hinv) (engineStep_of_step hturn hstep)

/-! ### The bytes of `OBUF` an engine step leaves alone -/

theorem touchedBelow_eq {s : State} (hphase : s.seq.phase ≠ .copy) : touchedBelow s = spoiledBytes s := by
  unfold touchedBelow
  split
  · next hcopy => exact absurd hcopy hphase
  · rfl

/-- The byte that a walk stores lies below the end of its payload. -/
theorem payloadAddr_lt_touchedBelow {s : State} (hphase : s.seq.phase = .hufBit) (hwalk : WalkOk s.huf) :
    payloadAddr s < touchedBelow s := by
  rw [touchedBelow_eq (by simp [hphase]), spoiledBytes, hphase]
  exact Nat.add_lt_add_left hwalk.outPos _

/-- Above the payload an emission has no effect. -/
theorem byteAt_emittedState_above {s : State} (hinv : Inv s) (hphase : s.seq.phase = .hufBit) (lit : Byte) {a : Nat}
    (ha : touchedBelow s ≤ a) : byteAt .obuf (emittedState lit s).obuf a = byteAt .obuf s.obuf a :=
  byteAt_emittedState_ne lit ((payloadAddr_lt_touchedBelow hphase (walkOk_of_inv hinv hphase)).trans_le ha).ne'

theorem byteAt_raised {s u : State} {e : Failure} {n : Nat} (hinv : Inv s) (h : Raises s u e n) {a : Nat}
    (ha : touchedBelow s ≤ a) : byteAt .obuf u.obuf a = byteAt .obuf s.obuf a := by
  cases h with
  | trailing hphase hwhole lit => exact byteAt_emittedState_above hinv hphase lit ha
  | _ => rfl

theorem byteAt_of_engineStep {s t : State} (hinv : Inv s) (h : EngineStep s t) {a : Nat} (ha : touchedBelow s ≤ a) :
    byteAt .obuf t.obuf a = byteAt .obuf s.obuf a := by
  cases h with
  | @raised u e n hraise =>
    have hspoiled : spoiledBytes u ≤ a := by
      rwa [hraise.frame.spoiled, ← touchedBelow_eq (ne_copy_of_failing _ hraise.phase_mem)]
    exact (byteAt_spoil .obuf u.obuf hspoiled).trans (byteAt_raised hinv hraise ha)
  | copied hphase hmore =>
    have hbelow : touchedBelow s = s.dsp.offset.toNat := by rw [touchedBelow, hphase]
    exact byteAt_put_ne .obuf s.obuf (hmore.trans_le (hbelow ▸ ha)).ne' _
  | restarted hphase hwhole lit | decodeFinished hphase lit | decoded hphase lit =>
    exact byteAt_emittedState_above hinv hphase lit ha
  | _ => rfl

/-- Settles O50. -/
theorem engineTouchesOnlyItsPartOfObuf : Obligations.EngineTouchesOnlyItsPartOfObuf :=
  fun _ _ hinv hturn hstep _ ha => byteAt_of_engineStep (inv_turnTaken hinv) (engineStep_of_step hturn hstep) ha

/-! ### The status word -/

/-- Settles O21: an operation that runs has neither ended nor failed, and one that has failed has ended. -/
theorem statusWordIsALegalCombination : Obligations.StatusWordIsALegalCombination := by
  intro s
  refine ⟨rfl, fun hinv => ?_⟩
  have hbusy := busy_done_err hinv.flags
  have herr := hinv.flags.err_done
  generalize s.status = f at hbusy herr
  obtain ⟨busy, done, err, illCmd⟩ := f
  dsimp only at hbusy herr
  cases busy with
  | true =>
    obtain ⟨rfl, rfl⟩ := hbusy rfl
    right; left
    revert illCmd
    decide
  | false =>
    cases err with
    | true =>
      obtain rfl := herr rfl
      right; right; right
      revert illCmd
      decide
    | false =>
      revert done illCmd
      decide

end Sys2Proof.Invariant

/-! PROOF of O13, O14, O25, O26, O28, O29, O30, O32 and O53. The engine steps of the Container unit and of the folds as
equations, and `DESC.HUFF8` (40_crc.md R108, 41_huffman.md R122 to R127, 42_container.md R151, R157 to R162). -/

namespace Sys2Proof.EngineEquations

open Sys2Proof.Machine Sys2Proof.Runs Sys2Proof.HuffmanUnit Sys2Proof.ContainerUnit Sys2Proof.Codec Sys2Proof.FoldRun
  Sys2Proof.DecompRun Sys2Proof.EngineMoves Sys2Proof.Invariant

/-! ### Idle -/

/-- Settles O53: in `IDLE` the engine's turn ends as it began. -/
theorem idleEngineChangesNothing : Obligations.IdleEngineChangesNothing := by
  intro s hturn hphase
  rw [step_engineTurn hturn, fetchEngine, turnTaken_seq, hphase]
  exact runFetched_ended _

/-! ### The scan -/

/-- Settles O26. -/
theorem sectMarkFixesOffset : Obligations.SectMarkFixesOffset := fun s =>
  show execSectMark s = _ from rfl

theorem scanExhausted_iff {s : State} :
    scanExhausted s = true ↔ 1024 < s.dsp.probe.toNat ∨ s.dsp.flen.toNat < s.dsp.probe.toNat + 4 := by
  rw [scanExhausted, Bool.or_eq_true, decide_eq_true_iff, decide_eq_true_iff]
  rfl

/-- A probe inside the file takes the word at its offset (R151). -/
theorem fetchScan_inside {s : State} (hfile : s.dsp.fbase.toNat + s.dsp.flen.toNat ≤ Config.CAP)
    (hmore : ¬ (1024 < s.dsp.probe.toNat ∨ s.dsp.flen.toNat < s.dsp.probe.toNat + 4)) :
    fetchScan s = .selected (.sect (wordAt .ibuf s (fileAddr s s.dsp.probe.toNat))) s := by
  have hword : s.dsp.probe.toNat + 4 ≤ s.dsp.flen.toNat := by omega
  rw [fetchScan, if_neg (mt scanExhausted_iff.mp hmore), readLE_four (fileAddr_inside hfile hword), accessFetch_ok,
    BitVec.ofNat_toNat, BitVec.setWidth_eq]

/-- A probed word is the marker, or the scan moves on. -/
theorem runFetched_sect (w : Word) (s : State) :
    runFetched (.selected (.sect w) s) = if w = Config.MARKER then exec .sectMark s else .next (nextProbe s) := by
  split
  · next hmarker =>
    rw [runFetched_selected ((decode_sect w).trans (if_pos hmarker)), sectMarkFixesOffset]
    rfl
  · next hother =>
    rw [runFetched_unselected ((decode_sect w).trans (if_neg hother))]
    rfl

/-- Settles O25: the scan is exhausted, or its word decides. -/
theorem scanStepProbesOneOffset : Obligations.ScanStepProbesOneOffset := by
  intro s hturn hphase hfile u
  have hstep : step s = runFetched (fetchScan u) := by
    rw [step_engineTurn hturn, fetchEngine, turnTaken_seq, hphase]
  by_cases hend : 1024 < s.dsp.probe.toNat ∨ s.dsp.flen.toNat < s.dsp.probe.toNat + 4
  · rw [if_pos hend, hstep, fetchScan, if_pos ((scanExhausted_iff (s := u)).mpr hend), runFetched_ended]
  · rw [if_neg hend, hstep, fetchScan_inside (s := u) hfile hend, runFetched_sect, sectMarkFixesOffset]
    rfl

/-! ### The preamble copy -/

theorem step_copy {s : State} (hturn : engineTurn s = true) (hphase : s.seq.phase = .copy) :
    step s = copyStep (turnTaken s) := by
  rw [step_engineTurn hturn, fetchEngine, turnTaken_seq, hphase]
  exact runFetched_ended _

/-- A byte of the preamble is the file's, and goes to the same index of `OBUF` (R162). -/
theorem copyStep_inside {s : State} (hinv : Inv s) (hphase : s.seq.phase = .copy)
    (hmore : s.dsp.cpIdx.toNat < s.dsp.offset.toNat) :
    copyStep s = .next { s with
      obuf := s.obuf.put s.dsp.cpIdx.toNat (byteAt .ibuf s.ibuf (s.dsp.fbase.toNat + s.dsp.cpIdx.toNat))
      dsp := { s.dsp with cpIdx := s.dsp.cpIdx + 1#11 } } := by
  obtain ⟨⟨⟨-, hfile⟩, -, hroom, -⟩, -⟩ := (phaseOk_copy_iff hphase).mp hinv.phase
  have hbits : s.dsp.cpIdx.toNat < 2048 := s.dsp.cpIdx.isLt
  have hread : readByte .ibuf (fileAddr s s.dsp.cpIdx.toNat) s =
      .ok (byteAt .ibuf s.ibuf (s.dsp.fbase.toNat + s.dsp.cpIdx.toNat)) :=
    readByte_inside (fileAddr_inside hfile (n := 1) (by omega))
  have haddr : preambleAddr s < Config.CAP := by
    unfold preambleAddr Config.CAP
    omega
  rw [copyStep, if_pos hmore, hread, access_ok, writeByte_inside haddr, access_ok]
  rfl

/-- Settles O28: the invariant puts the byte inside both memories, and the handed-over source inside the file. -/
theorem copyStepCopiesPreamble : Obligations.CopyStepCopiesPreamble := by
  intro s hturn hinv hphase u
  have hstep : step s = copyStep u := step_copy hturn hphase
  split
  · next hmore =>
    rw [copyStep_inside (s := u) (inv_turnTaken hinv) hphase hmore] at hstep
    refine ⟨_, hstep, fun a => ?_, rfl⟩
    split
    · next ha => subst ha; exact byteAt_put_same ..
    · next ha => exact byteAt_put_ne _ _ ha _
  · next hdone =>
    rw [copyStep, if_neg (show ¬ u.dsp.cpIdx.toNat < u.dsp.offset.toNat from hdone)] at hstep
    obtain ⟨hsbase, hslen⟩ := handOver_source (inv_turnTaken hinv) hphase
    exact ⟨_, hstep, hsbase, hslen, rfl⟩

/-! ### The two final checks -/

/-- Settles O29. -/
theorem lenChkStepComparesLengths : Obligations.LenChkStepComparesLengths := by
  intro s hturn hphase u
  calc step s = lenChkStep u := by
        rw [step_engineTurn hturn, fetchEngine, turnTaken_seq, hphase]
        exact runFetched_ended _
    _ = _ := by rw [lenChkStep]; rfl

/-- Settles O30. -/
theorem crcChkStepComparesChecksums : Obligations.CrcChkStepComparesChecksums := by
  intro s hturn hphase u
  calc step s = crcChkStep u := by
        rw [step_engineTurn hturn, fetchEngine, turnTaken_seq, hphase]
        exact runFetched_ended _
    _ = _ := by rw [crcChkStep]; rfl

/-! ### The folds -/

theorem step_foldPhase {s : State} (hturn : engineTurn s = true) (hphase : s.seq.phase = .crcA ∨ s.seq.phase = .crcB) :
    step s = runFetched (fetchFold (turnTaken s)) := by
  rw [step_engineTurn hturn, fetchEngine, turnTaken_seq]
  rcases hphase with hphase | hphase <;> rw [hphase]

/-- Between two bytes a fold takes the next byte, or sees its end (R108). -/
theorem runFetched_fetchFold {s : State} (hiter : s.crc.iter = 0)
    (hroom : s.crc.base.toNat + s.crc.len.toNat ≤ Config.CAP) :
    runFetched (fetchFold s) =
      if s.crc.idx.toNat < s.crc.len.toNat then
        .next (foldedByte (byteAt s.crc.sel (s.memory s.crc.sel) (dataAddr s)) s)
      else .next (foldEnded s) := by
  rw [fetchFold, if_neg (not_not_intro hiter)]
  split
  · next hmore =>
    have haddr : dataAddr s < Config.CAP := Nat.lt_of_lt_of_le (Nat.add_lt_add_left hmore _) hroom
    rw [readByte_inside haddr, accessFetch_ok, runFetched_selected rfl]
    rfl
  · exact runFetched_ended _

/-- In the middle of a byte a fold takes bit 0 of `CRC.W`, and the step of either row is counted (log 3). -/
theorem runFetched_fetchFold_midByte {s : State} (hiter : s.crc.iter ≠ 0) :
    runFetched (fetchFold s) = .next (bitStepped { s with crc := { s.crc with w := crcBitStep s.crc.w } }) := by
  have hanswers : ∃ t, runFetched (fetchFold s) = .next t := by
    rw [fetchFold, if_pos hiter, runFetched_selected rfl, decodeCrcw]
    split
    · exact ⟨_, rfl⟩
    · exact ⟨_, rfl⟩
  obtain ⟨t, ht⟩ := hanswers
  rcases fetchFold_next ht with ⟨-, rfl⟩ | ⟨hzero, -⟩ | ⟨hzero, -⟩
  · exact ht
  · exact absurd hzero hiter
  · exact absurd hzero hiter

/-- Settles O13: the byte, or the three ends of a fold. -/
theorem foldStepFoldsOneByte : Obligations.FoldStepFoldsOneByte := by
  intro s hturn hphase hiter hroom u b
  have hbyte : byteAt u.crc.sel (u.memory u.crc.sel) (dataAddr u) = b := by
    cases hsel : s.crc.sel <;> simp only [b, u, turnTaken_crc, hsel] <;> rfl
  rw [step_foldPhase hturn hphase, runFetched_fetchFold (s := u) hiter hroom, hbyte, foldEnded,
    apply_ite Host.Outcome.next, apply_ite Host.Outcome.next]
  rfl

/-- Settles O14: the byte steps of a fold from index 0, in closed form. -/
theorem foldStepsComputeCrc32 : Obligations.FoldStepsComputeCrc32 :=
  fun _ hinputs hphase hiter hidx hroom => runSteps_wholeFold ⟨hinputs, hphase, hiter, hroom⟩ hidx

/-! ### The descriptor -/

/-- Settles O32: outside `HDR` the descriptor is parsed, and both checks of the parse pass. -/
theorem descHuff8StartsTheWalk : Obligations.DescHuff8StartsTheWalk := by
  intro s base extra magIdx
  refine ⟨fun hphase hsource hroom hnonempty => ?_, exec_descHuff8_accepts⟩
  rw [exec_descHuff8_parses hphase, parseDescriptor_inside hsource (by omega)]
  exact (if_neg (Nat.not_le.mpr hroom)).trans (if_neg hnonempty)

end Sys2Proof.EngineEquations

/-! PROOF of O48 and O54. Progress: in every state of the invariant the engine has a next state, but for the refused
input; and each step either goes on to a later phase or leaves less to do in its own (20_memory.md R57, 43_system.md
R176). -/

namespace Sys2Proof.Progress

open Sys2Proof.Machine Sys2Proof.Runs Sys2Proof.HuffmanUnit Sys2Proof.ContainerUnit Sys2Proof.EngineMoves
  Sys2Proof.CursorMoves Sys2Proof.Invariant Sys2Proof.EngineEquations

/-! ### The engine does not get stuck -/

/-- The outcome is a next state. -/
def Answers (o : Out) : Prop := ∃ t, o = .next t

theorem answers_next (t : State) : Answers (.next t) := ⟨t, rfl⟩

theorem answers_raise (e : Failure) (n : Nat) (s : State) : Answers (raise e n s) := ⟨_, rfl⟩

theorem answers_ite {c : Prop} [Decidable c] {a b : Out} (ha : c → Answers a) (hb : ¬ c → Answers b) :
    Answers (if c then a else b) := by
  split
  · next hc => exact ha hc
  · next hc => exact hb hc

section
variable {s : State} (hinv : Inv s) (hturn : engineTurn s = true)
include hinv hturn

theorem answers_scan (hphase : s.seq.phase = .scan) : Answers (step s) := by
  obtain ⟨⟨-, hfile⟩, -⟩ := (phaseOk_scan_iff hphase).mp hinv.phase
  rw [scanStepProbesOneOffset s hturn hphase hfile]
  exact answers_ite (fun _ => answers_raise ..) fun _ =>
    answers_ite (fun _ => answers_next _) fun _ => answers_next _

theorem answers_hdr (hphase : s.seq.phase = .hdr) : Answers (step s) := by
  obtain ⟨⟨-, hfile⟩, hoffset, -⟩ := (phaseOk_hdr_iff hphase).mp hinv.phase
  rw [hdrStepReadsHeader s hturn hphase hoffset hfile]
  exact answers_ite (fun _ => answers_raise ..) fun _ =>
    answers_ite (fun _ => answers_raise ..) fun _ => answers_next _

theorem answers_copy (hphase : s.seq.phase = .copy) : Answers (step s) := by
  have hstep := copyStepCopiesPreamble s hturn hinv hphase
  dsimp only at hstep
  split at hstep
  · obtain ⟨t, ht, -⟩ := hstep
    exact ⟨t, ht⟩
  · obtain ⟨t, ht, -⟩ := hstep
    exact ⟨t, ht⟩

/-- The one step that can be refused (R126). -/
theorem answers_hufInit (hphase : s.seq.phase = .hufInit) : Answers (step s) ∨ step s = .refused .zeroOutLength := by
  obtain ⟨-, hsource⟩ := (phaseOk_hufInit_iff hphase).mp hinv.phase
  rw [hufInitStepChecksInOrder s hturn hphase hsource]
  split_ifs
  · exact .inl (answers_raise ..)
  · exact .inl (answers_raise ..)
  · exact .inl (answers_raise ..)
  · exact .inr rfl
  · exact .inl (answers_next _)

theorem answers_hufBit (hphase : s.seq.phase = .hufBit) : Answers (step s) := by
  have hstep := hufBitStepTakesNextBit s hinv hturn hphase
  dsimp only at hstep
  split at hstep
  · obtain ⟨hfails, -⟩ := hstep
    exact hfails ▸ answers_raise ..
  · obtain ⟨-, t, -, ht⟩ := hstep
    exact ⟨_, ht⟩

theorem answers_fold (hphase : s.seq.phase = .crcA ∨ s.seq.phase = .crcB) : Answers (step s) := by
  obtain ⟨hroom, -⟩ := foldOk_of_phaseOk hphase hinv.phase
  rw [step_foldPhase hturn hphase]
  by_cases hiter : s.crc.iter = 0
  · rw [runFetched_fetchFold (s := turnTaken s) hiter hroom]
    exact answers_ite (fun _ => answers_next _) fun _ => answers_next _
  · exact ⟨_, runFetched_fetchFold_midByte (s := turnTaken s) hiter⟩

end

/-- Settles O48, phase by phase: each equation of a step ends in next states, under what the invariant says. -/
theorem engineStaysInsideMemory : Obligations.EngineStaysInsideMemory := by
  intro s hinv hturn
  cases hphase : s.seq.phase with
  | idle => exact .inl ⟨_, idleEngineChangesNothing s hturn hphase⟩
  | scan => exact .inl (answers_scan hinv hturn hphase)
  | hdr => exact .inl (answers_hdr hinv hturn hphase)
  | copy => exact .inl (answers_copy hinv hturn hphase)
  | hufInit => exact (answers_hufInit hinv hturn hphase).imp id fun hrefused => ⟨rfl, hrefused⟩
  | hufBit => exact .inl (answers_hufBit hinv hturn hphase)
  | lenChk =>
    left
    rw [lenChkStepComparesLengths s hturn hphase]
    exact answers_ite (fun _ => answers_raise ..) fun _ => answers_next _
  | crcA => exact .inl (answers_fold hinv hturn (.inl hphase))
  | crcB => exact .inl (answers_fold hinv hturn (.inr hphase))
  | crcChk =>
    left
    rw [crcChkStepComparesChecksums s hturn hphase]
    exact answers_ite (fun _ => answers_raise ..) fun _ => answers_next _

/-! ### What is left to do -/

/-- The phases from the last to the first. -/
def phaseRank : Phase → Nat
  | .idle => 0
  | .crcChk => 1
  | .crcB => 2
  | .crcA => 3
  | .lenChk => 4
  | .hufBit => 5
  | .hufInit => 6
  | .copy => 7
  | .hdr => 8
  | .scan => 9

/-- A step that leaves its phase leads to a later one (O52). -/
theorem phaseRank_lt_of_mem (p : Phase) : ∀ q ∈ phaseSuccessors p, q = p ∨ phaseRank q < phaseRank p := by
  cases p <;> decide

/-- A bound on the steps that can be taken before the phase is left: offsets to probe, preamble bytes, bits of the
source, and bytes to fold with the bit steps of a byte that is half folded. -/
def workLeft (s : State) : Nat :=
  match s.seq.phase with
  | .scan => 1088 - s.dsp.probe.toNat
  | .copy => s.dsp.offset.toNat - s.dsp.cpIdx.toNat
  | .hufBit => 8 * s.huf.slen.toNat - cursorIndex s.huf
  | .crcA => s.crc.iter + (s.crc.len.toNat - s.crc.idx.toNat)
  | .crcB => s.crc.iter + (s.crc.len.toNat - s.crc.idx.toNat)
  | _ => 0

section
variable {s : State}

theorem workLeft_scan (hphase : s.seq.phase = .scan) : workLeft s = 1088 - s.dsp.probe.toNat := by
  rw [workLeft, hphase]

theorem workLeft_copy (hphase : s.seq.phase = .copy) : workLeft s = s.dsp.offset.toNat - s.dsp.cpIdx.toNat := by
  rw [workLeft, hphase]

theorem workLeft_hufBit (hphase : s.seq.phase = .hufBit) :
    workLeft s = 8 * s.huf.slen.toNat - cursorIndex s.huf := by
  rw [workLeft, hphase]

theorem workLeft_fold (hphase : s.seq.phase = .crcA ∨ s.seq.phase = .crcB) :
    workLeft s = s.crc.iter + (s.crc.len.toNat - s.crc.idx.toNat) := by
  rcases hphase with hphase | hphase <;> rw [workLeft, hphase]

/-- The bit under the cursor lies in its chunk. -/
theorem cursorIndex_lt {h : HufUnit} (hmask : MaskOneBit h) : cursorIndex h < 8 * (h.chunk.toNat + 4) := by
  obtain ⟨k, hk, hmask⟩ := maskOneBit_iff.mp hmask
  rw [cursorIndex_eq hk hmask]
  omega

/-- A bit step that goes on leaves one bit of the source less. -/
theorem workLeft_walked {t : State} {pos : BitVec 9} {entry : BitVec 8} {outPos : BitVec 24}
    (hphase : s.seq.phase = .hufBit) (hsame : t.seq.phase = s.seq.phase) (hwalk : WalkOk s.huf)
    (hwhole : s.huf.chunk.toNat + 4 ≤ s.huf.slen.toNat)
    (hcursor : t.huf = advanceCursor { s.huf with pos := pos, entry := entry, outPos := outPos }) :
    workLeft t < workLeft s := by
  have hinside := cursorIndex_lt hwalk.mask
  obtain ⟨-, hindex, -⟩ := advanceCursor_follows (h := { s.huf with pos := pos, entry := entry, outPos := outPos })
    hwalk.mask (chunk_succ_lt hwalk.source hwhole)
  have hmoved : cursorIndex t.huf = cursorIndex s.huf + 1 := by rw [hcursor, hindex]; rfl
  have hend : t.huf.slen = s.huf.slen := by rw [hcursor, advanceCursor_frame]
  rw [workLeft_hufBit hphase, workLeft_hufBit (hsame.trans hphase), hmoved, hend]
  omega

theorem workLeft_folded {t : State} (hphase : s.seq.phase = .crcA ∨ s.seq.phase = .crcB)
    (hsame : t.seq.phase = s.seq.phase)
    (hless : t.crc.iter + (t.crc.len.toNat - t.crc.idx.toNat) < s.crc.iter + (s.crc.len.toNat - s.crc.idx.toNat)) :
    workLeft t < workLeft s := by
  rwa [workLeft_fold hphase, workLeft_fold (hsame.symm ▸ hphase)]

/-- A step that stays in its phase leaves less to do there. -/
theorem workLeft_lt {t : State} (hinv : Inv s) (h : EngineStep s t) (hbusy : s.seq.phase ≠ .idle)
    (hsame : t.seq.phase = s.seq.phase) : workLeft t < workLeft s := by
  cases h with
  | probed hphase hmore =>
    obtain ⟨hlast, -⟩ := scanExhausted_eq_false_iff.mp hmore
    have hprobe : (nextProbe s).dsp.probe.toNat = s.dsp.probe.toNat + 64 := probe_next_toNat hlast
    rw [workLeft_scan hphase, workLeft_scan (hsame.trans hphase), hprobe]
    omega
  | copied hphase hmore =>
    rw [workLeft_copy hphase, workLeft_copy (hsame.trans hphase)]
    change s.dsp.offset.toNat - (s.dsp.cpIdx + 1#11).toNat < _
    rw [cpIdx_succ_toNat hmore]
    omega
  | descended hphase hwhole | restarted hphase hwhole =>
    exact workLeft_walked hphase hsame (walkOk_of_inv hinv hphase) hwhole rfl
  | bitCounted hphase hiter => exact workLeft_folded hphase hsame (by dsimp only; omega)
  | byteFinished hphase hiter =>
    obtain ⟨-, hmore⟩ := iter_inside hinv (hiter.trans_ne Nat.one_ne_zero)
    refine workLeft_folded hphase hsame ?_
    change 0 + (s.crc.len.toNat - (s.crc.idx + 1#32).toNat) < _
    rw [idx_succ_toNat hmore]
    omega
  | byteFolded hphase hiter hmore b =>
    refine workLeft_folded hphase hsame ?_
    change s.crc.iter + (s.crc.len.toNat - (s.crc.idx + 1#32).toNat) < _
    rw [idx_succ_toNat hmore]
    omega
  | idled hphase => exact absurd hphase hbusy
  | raised => exact absurd hsame.symm hbusy
  | found hphase | accepted hphase | handedOver hphase | walkBegun hphase | decodeFinished hphase | decoded hphase
  | foldBegun hphase | payloadFoldBegun hphase | foldsDone hphase | verified hphase => cases hsame.trans hphase
  | foldFinished => exact absurd hsame.symm hbusy

/-- The phase and the work left in it, in lexicographic order, go down with every step of a running operation. -/
theorem step_decreases {t : State} (hinv : Inv s) (h : EngineStep s t) (hbusy : s.seq.phase ≠ .idle) :
    Prod.Lex (· < ·) (· < ·) (phaseRank t.seq.phase, workLeft t) (phaseRank s.seq.phase, workLeft s) := by
  rcases phaseRank_lt_of_mem s.seq.phase _ h.phase_mem with hsame | hlater
  · rw [hsame]
    exact Prod.Lex.right _ (workLeft_lt hinv h hbusy hsame)
  · exact Prod.Lex.left _ _ hlater

end

/-! ### Every operation ends -/

/-- Some number of steps leads to a finishing step, or to the refusal. -/
def Ends (s : State) : Prop :=
  ∃ n, (∃ t, runSteps n s = .next t ∧ t.status.busy = false ∧ t.status.done = true ∧ t.seq.phase = .idle) ∨
    runSteps n s = .refused .zeroOutLength

theorem Ends.of_step {s t : State} (hstep : step s = .next t) (h : Ends t) : Ends s := by
  obtain ⟨n, hn⟩ := h
  refine ⟨n + 1, ?_⟩
  rwa [runSteps_succ hstep]

theorem ends_of_running (s : State) (hinv : Inv s) (hinputs : s.inputs = []) (hbusy : s.seq.phase ≠ .idle) :
    Ends s := by
  have hturn := engineTurn_of_noInputs hinputs
  rcases engineStaysInsideMemory s hinv hturn with ⟨t, hstep⟩ | ⟨-, hrefused⟩
  · have hmove : EngineStep s t := turnTaken_of_noInputs hinputs ▸ engineStep_of_step hturn hstep
    have hless := step_decreases hinv hmove hbusy
    by_cases hidle : t.seq.phase = .idle
    · obtain ⟨hdone, hnotBusy⟩ := hmove.done_of_idle hbusy hidle
      exact ⟨1, .inl ⟨t, runSteps_succ hstep 0, hnotBusy, hdone, hidle⟩⟩
    · exact (ends_of_running t (everyStepKeepsInv s t hinv hstep) (hmove.inputs.trans hinputs) hidle).of_step hstep
  · obtain ⟨n, hn⟩ := refused_of_step hrefused
    exact ⟨n, .inr hn⟩
termination_by (phaseRank s.seq.phase, workLeft s)
decreasing_by exact hless

/-- Settles O54: a busy engine is in a phase that is not `IDLE`, and then the work goes down to the finishing step. -/
theorem everyOperationEnds : Obligations.EveryOperationEnds := by
  intro s hinv hinputs hbusy
  refine ends_of_running s hinv hinputs fun hidle => ?_
  exact Bool.noConfusion ((hinv.flags.idle_iff.mp hidle).symm.trans hbusy)

end Sys2Proof.Progress

/-! PROOF of O10, O11 and O12. The byte fold (40_crc.md R102, R103, R106): it is eight bit steps on the register with
the byte xored in, and a bit step loses nothing, because bit 31 of the polynomial tells which of the two it was. -/

namespace Sys2Proof.ChecksumAlgebra

open Sys2Proof.Machine Sys2Proof.ChecksumRows Sys2Proof.Runs Sys2Proof.EngineEquations

/-! ### The bit step is injective -/

theorem crcBitStep_of_bit {w : Word} {b : Bool} (hbit : w.getLsbD 0 = b) :
    crcBitStep w = (w >>> 1) ^^^ (if b then Config.POLY else 0#32) := by
  rw [crcBitStep, hbit]
  cases b with
  | true => rfl
  | false => exact BitVec.xor_zero.symm

/-- Bit 31 of the result is the bit that was shifted out: the shifted word has none, and the polynomial has it. -/
theorem crcBitStep_getLsbD_31 (w : Word) : (crcBitStep w).getLsbD 31 = w.getLsbD 0 := by
  have hpoly : Config.POLY.getLsbD 31 = true := by decide
  rw [crcBitStep_of_bit rfl, BitVec.getLsbD_xor, BitVec.getLsbD_ushiftRight,
    BitVec.getLsbD_of_ge w (1 + 31) (by decide), Bool.false_xor]
  cases w.getLsbD 0 with
  | true => exact hpoly
  | false => exact BitVec.getLsbD_zero

theorem crcBitStep_injective : Function.Injective crcBitStep := by
  intro x y h
  have hbit : x.getLsbD 0 = y.getLsbD 0 := by rw [← crcBitStep_getLsbD_31, h, crcBitStep_getLsbD_31]
  have hshift : x >>> 1 = y >>> 1 := by
    rw [crcBitStep_of_bit hbit, crcBitStep_of_bit rfl] at h
    exact BitVec.xor_left_inj _ |>.mp h
  refine BitVec.eq_of_getLsbD_eq fun i _ => ?_
  cases i with
  | zero => exact hbit
  | succ i => simpa only [BitVec.getLsbD_ushiftRight, Nat.add_comm 1 i] using congrArg (fun w => w.getLsbD i) hshift

theorem crcBitSteps_injective (n : Nat) : Function.Injective (crcBitSteps n) := by
  rw [show crcBitSteps n = crcBitStep^[n] from funext (crcBitSteps_eq_iterate n)]
  exact crcBitStep_injective.iterate n

/-! ### The byte fold is eight bit steps on the whole register -/

/-- A part whose lowest bit is 0 is shifted along. -/
theorem crcBitStep_xor (x : Word) {y : Word} (hy : y.getLsbD 0 = false) :
    crcBitStep (x ^^^ y) = crcBitStep x ^^^ (y >>> 1) := by
  have hbit : (x ^^^ y).getLsbD 0 = x.getLsbD 0 := by rw [BitVec.getLsbD_xor, hy, Bool.xor_false]
  rw [crcBitStep_of_bit hbit, crcBitStep_of_bit rfl, BitVec.ushiftRight_xor_distrib, BitVec.xor_assoc, BitVec.xor_assoc,
    BitVec.xor_comm (y >>> 1)]

/-- A part whose `n` lowest bits are 0 is shifted along by `n` iterations. -/
theorem crcBitSteps_xor {n : Nat} :
    ∀ (x : Word) {y : Word}, (∀ i < n, y.getLsbD i = false) →
      crcBitSteps n (x ^^^ y) = crcBitSteps n x ^^^ (y >>> n) := by
  induction n with
  | zero => intro x y _; rfl
  | succ n ih =>
    intro x y hy
    have hshifted : ∀ i < n, (y >>> 1).getLsbD i = false := by
      intro i hi
      rw [BitVec.getLsbD_ushiftRight]
      exact hy (1 + i) (by omega)
    rw [crcBitSteps, crcBitStep_xor x (hy 0 (Nat.succ_pos n)), ih _ hshifted, crcBitSteps, ← BitVec.shiftRight_add,
      Nat.add_comm 1 n]

/-- The upper 24 bits of a register, in place. -/
def upperBits (reg : Word) : Word := reg >>> 8 <<< 8

theorem upperBits_low (reg : Word) {i : Nat} (hi : i < 8) : (upperBits reg).getLsbD i = false := by
  simp [upperBits, hi]

theorem upperBits_shifted (reg : Word) : upperBits reg >>> 8 = reg >>> 8 := by
  refine BitVec.eq_of_getLsbD_eq fun i hi => ?_
  rw [upperBits, BitVec.getLsbD_ushiftRight, BitVec.getLsbD_shiftLeft, BitVec.getLsbD_ushiftRight]
  by_cases hinside : 8 + i < 32
  · simp [hinside]
  · simp [hinside, BitVec.getLsbD_of_ge reg (8 + i) (Nat.not_lt.mp hinside)]

/-- The seed of a fold and the upper bits make up the register with the byte xored in (R102). -/
theorem seedWord_xor_upperBits (reg : Word) (b : Byte) :
    crcSeedWord reg b ^^^ upperBits reg = reg ^^^ b.setWidth 32 := by
  refine BitVec.eq_of_getLsbD_eq fun i hi => ?_
  simp only [crcSeedWord, upperBits, BitVec.getLsbD_xor, BitVec.getLsbD_setWidth, BitVec.getLsbD_shiftLeft,
    BitVec.getLsbD_ushiftRight]
  by_cases hlow : i < 8
  · simp [hlow, hi]
  · have hback : 8 + (i - 8) = i := by omega
    simp [hlow, hi, hback, BitVec.getLsbD_of_ge b i (Nat.not_lt.mp hlow)]

theorem crcByteFn_eq (reg : Word) (b : Byte) : crcByteFn reg b = crcBitSteps 8 (reg ^^^ b.setWidth 32) := by
  rw [← seedWord_xor_upperBits, crcBitSteps_xor _ fun i hi => upperBits_low reg hi, upperBits_shifted, BitVec.xor_comm,
    crcByteFn, crcFoldWord]

/-- Another byte gives another register. -/
theorem crcByteFn_injective_right (reg : Word) : Function.Injective (crcByteFn reg) := by
  intro b c h
  rw [crcByteFn_eq, crcByteFn_eq] at h
  have hwide : b.setWidth 32 = c.setWidth 32 := BitVec.xor_right_inj _ |>.mp (crcBitSteps_injective 8 h)
  have hback (x : Byte) : (x.setWidth 32).setWidth 8 = x := BitVec.setWidth_setWidth_of_le x (by decide)
  rw [← hback b, hwide, hback]

/-- Another register gives another register. -/
theorem crcByteFn_injective_left (b : Byte) : Function.Injective fun reg => crcByteFn reg b := by
  intro r s h
  simp only [crcByteFn_eq] at h
  exact BitVec.xor_left_inj _ |>.mp (crcBitSteps_injective 8 h)

theorem crc32Fn_append (r : Word) (x y : List Byte) : crc32Fn (crc32Fn r x) y = crc32Fn r (x ++ y) :=
  (List.foldl_append ..).symm

theorem crc32Fn_injective (data : List Byte) : Function.Injective fun r => crc32Fn r data := by
  induction data with
  | nil => exact fun _ _ h => h
  | cons b rest ih => exact ih.comp (crcByteFn_injective_left b)

/-- Settles O12: the register after the one byte that differs differs, and the bytes after it keep it so. -/
theorem oneByteChangeChangesChecksum : Obligations.OneByteChangeChangesChecksum := by
  refine ⟨crc32Fn_append, fun r => rfl, fun r before after b c hne hsame => ?_⟩
  rw [← crc32Fn_append, ← crc32Fn_append] at hsame
  exact hne (crcByteFn_injective_right (crc32Fn r before) (crc32Fn_injective after hsame))

/-! ### `CRC.BYTE` -/

theorem tableEntry_zero : tableEntry 0#8 = 0#32 := by decide

/-- Settles O10: the eight iterations are `tableEntry` of the seed, and the table has 0 for the seed 0. -/
theorem crcByteFoldsOneByte : Obligations.CrcByteFoldsOneByte := by
  intro b s
  refine ⟨exec_crcByte b s, fun hseed => ?_⟩
  rw [exec_crcByte, hseed, BitVec.xor_self, tableEntry_zero, BitVec.xor_zero]

/-- The state in which the bit steps of a byte have ended: the working value is folded, and the index has moved on. -/
def byteEnded (w : Word) (s : State) : State :=
  { s with
    crc := { s.crc with w := w, iter := 0, reg := crcFoldWord s.crc.reg w, idx := s.crc.idx + 1#32 } }

/-- A step in the middle of a byte is a bit step, counted. -/
theorem step_midByte {s : State} (hinputs : s.inputs = []) (hphase : s.seq.phase = .crcA ∨ s.seq.phase = .crcB)
    (hiter : s.crc.iter ≠ 0) :
    step s = .next (bitStepped { s with crc := { s.crc with w := crcBitStep s.crc.w } }) := by
  rw [step_foldPhase (engineTurn_of_noInputs hinputs) hphase, turnTaken_of_noInputs hinputs,
    runFetched_fetchFold_midByte hiter]

/-- With `n + 1` iterations to run, as many steps end the byte. -/
theorem runSteps_midByte {n : Nat} :
    ∀ {s : State}, s.inputs = [] → s.seq.phase = .crcA ∨ s.seq.phase = .crcB → s.crc.iter = n + 1 →
      runSteps (n + 1) s = .next (byteEnded (crcBitSteps (n + 1) s.crc.w) s) := by
  induction n with
  | zero =>
    intro s hinputs hphase hiter
    have hlast : s.crc.iter ≤ 1 := hiter.le
    have hstep := step_midByte hinputs hphase (by omega)
    rw [bitStepped, if_pos hlast] at hstep
    exact runSteps_succ hstep 0
  | succ n ih =>
    intro s hinputs hphase hiter
    have hmore : ¬ s.crc.iter ≤ 1 := by omega
    have hstep := step_midByte hinputs hphase (by omega)
    rw [bitStepped, if_neg hmore] at hstep
    have hcount : s.crc.iter - 1 = n + 1 := by omega
    rw [runSteps_succ hstep]
    exact ih (s := { s with crc := { s.crc with w := crcBitStep s.crc.w, iter := s.crc.iter - 1 } }) hinputs hphase
      hcount

/-- Settles O11: eight bit steps from the seed of the byte. -/
theorem crcByteIsEightBitSteps : Obligations.CrcByteIsEightBitSteps := by
  intro s b hinputs hphase hiter hseed
  refine ⟨_, rfl, ?_⟩
  rw [runSteps_midByte (n := 7) hinputs hphase hiter, hseed]
  rfl

end Sys2Proof.ChecksumAlgebra

/-! PROOF of O15, O18, O19, O22, O23, O24 and O43. The host's side (10_state.md R40 to R46, 43_system.md R170 to R178):
commands, what a busy block answers, reads by number, the memories as a host sees them, and the failure codes. -/

namespace Sys2Proof.HostInterface

open Sys2Proof.Machine Sys2Proof.Commands Sys2Proof.HostWrites Sys2Proof.Runs Sys2Proof.StoredBytes
  Sys2Proof.HuffmanUnit Sys2Proof.ContainerUnit

/-! ### Commands -/

/-- Settles O15: the operand fits and the operation begins, or it does not and the command is illegal. -/
theorem commandsStartTheirOperation : Obligations.CommandsStartTheirOperation := by
  intro s hidle begun cleared
  refine ⟨fun hfits => ⟨exec_crc32_starts hidle hfits, exec_hdec_starts hidle hfits, exec_decomp_starts hidle hfits⟩,
    fun hover i hi => ?_⟩
  have hnotFits : ¬ operandFits s = true := mt operandFits_iff.mp (Nat.not_le.mpr hover)
  rcases hi with rfl | rfl | rfl | rfl
  · exact (exec_crc32_idle hidle .ibuf).trans (if_neg hnotFits)
  · exact (exec_crc32_idle hidle .obuf).trans (if_neg hnotFits)
  · exact (exec_hdec_idle hidle).trans (if_neg hnotFits)
  · exact (exec_decomp_idle hidle).trans (if_neg hnotFits)

/-! ### What the host may do -/

theorem command_busy {s : State} (hbusy : s.status.busy = true) (op : SeqOp) (p : Phase) (load : State → State) :
    command op p load s = .refused .hostAccessWhileBusy := if_pos hbusy

section
variable {s : State} (hidle : s.status.busy = false)
include hidle

theorem hostMay_idle (a : HostAction) : hostMay a s = true := by
  rw [hostMay, hidle]
  rfl

theorem fetchHost_readReg (n : Nat) :
    fetchHost (.readReg n) s = .ended (.next { s with reply := .reg (readHostReg n s) }) :=
  if_pos (hostMay_idle hidle _)

theorem fetchHost_readMem (buf : Buffer) (a n : Nat) :
    fetchHost (.readMem buf a n) s =
      accessFetch (readBytes buf a n s) fun bs => .ended (.next { s with reply := .bytes bs }) :=
  if_pos (hostMay_idle hidle _)

theorem fetchHost_writeMem (buf : Buffer) (a : Nat) (bs : List Byte) :
    fetchHost (.writeMem buf a bs) s = accessFetch (writeBytes buf a bs s) fun t => .ended (.next t) :=
  if_pos (hostMay_idle hidle _)

end

theorem fetchHost_readStatus (s : State) :
    fetchHost (.readReg 1) s = .ended (.next { s with reply := .reg (readHostReg 1 s) }) :=
  if_pos (by rw [hostMay, decide_eq_true rfl, Bool.or_true])

/-- While busy anything but a read of `STATUS` is refused. -/
theorem fetchHost_refused {s : State} (hbusy : s.status.busy = true) {a : HostAction} (ha : a ≠ .readReg 1) :
    fetchHost a s = .ended (.refused .hostAccessWhileBusy) := by
  have hmayNot : ¬ hostMay a s = true := by
    rw [hostMay, hbusy, decide_eq_false ha]
    exact Bool.false_ne_true
  unfold fetchHost
  exact if_neg hmayNot

theorem readHostReg_status (s : State) : readHostReg 1 s = (statusWord s.status).setWidth 32 := rfl

/-- Settles O18. -/
theorem busyBlockAnswersOnlyStatusReads : Obligations.BusyBlockAnswersOnlyStatusReads := by
  intro s hbusy
  refine ⟨fun a rest hinputs => ?_, fun i hi => ?_⟩
  · rw [step_host hinputs]
    split
    · next hstatus => rw [hstatus, fetchHost_readStatus, runFetched_ended, readHostReg_status]
    · next hother => rw [fetchHost_refused (s := { s with inputs := rest }) hbusy hother, runFetched_ended]
  · rcases hi with rfl | rfl | rfl | rfl
    · exact (command_busy hbusy _ _ _ : execCrc32 .ibuf s = _)
    · exact (command_busy hbusy _ _ _ : execCrc32 .obuf s = _)
    · exact (command_busy hbusy _ _ _ : execHdec s = _)
    · exact (command_busy hbusy _ _ _ : execDecomp s = _)

/-! ### Reads by number -/

/-- Bit 0 is `BUSY`, bit 1 `DONE`, bit 2 `ERR` and bit 3 `ILLCMD` (R42). -/
theorem statusWord_toNat (f : StatusFlags) :
    (statusWord f).toNat = f.busy.toNat + 2 * f.done.toNat + 4 * f.err.toNat + 8 * f.illCmd.toNat := by
  obtain ⟨busy, done, err, illCmd⟩ := f
  revert busy done err illCmd
  decide

/-- There are fifteen registers (R40). -/
theorem readHostReg_beyond {n : Nat} (hn : 15 ≤ n) (s : State) : readHostReg n s = 0#32 := by
  unfold readHostReg
  cases hreg : hostReg n with
  | none => rfl
  | some r =>
    have hlast : r.ctorIdx < 15 := by cases r <;> decide
    exact absurd (number_of_hostReg hreg) (by omega)

/-- Settles O19: the reply is the register's value, and a narrow register is zero-extended. -/
theorem hostReadsRegisterByNumber : Obligations.HostReadsRegisterByNumber := by
  intro s n rest hinputs hidle
  have hstep : step s = .next { s with inputs := rest, reply := .reg (readHostReg n s) } := by
    rw [step_host hinputs, fetchHost_readReg (s := { s with inputs := rest }) hidle]
    exact runFetched_ended _
  refine ⟨hstep, rfl, ?_, BitVec.toNat_setWidth_of_le (by decide), rfl, rfl, rfl, rfl, rfl, rfl, rfl,
    BitVec.toNat_setWidth_of_le (by decide), rfl, rfl, BitVec.toNat_setWidth_of_le (by decide),
    BitVec.toNat_setWidth_of_le (by decide), fun hn => readHostReg_beyond hn s⟩
  rw [readHostReg_status, BitVec.toNat_setWidth_of_le (by decide), statusWord_toNat]

/-! ### The memories -/

/-- A host read inside a memory answers its bytes in ascending order. -/
theorem readBytes_inside {buf : Buffer} {s : State} {n : Nat} :
    ∀ {a : Nat}, a + n ≤ Config.CAP → readBytes buf a n s = .ok (slice buf s a n) := by
  induction n with
  | zero => intro a _; rfl
  | succ n ih =>
    intro a h
    have hbyte : readByte buf a s = .ok (byteAt buf (s.memory buf) a) := readByte_inside (by omega)
    have hrest : readBytes buf (a + 1) n s = .ok (slice buf s (a + 1) n) := ih (by omega)
    simp only [readBytes, hbyte, hrest, slice_succ]

section
variable {s : State} {buf : Buffer} {a : Nat} {rest : List Input} (hidle : s.status.busy = false)
include hidle

theorem step_hostWrite {bs : List Byte} (hinputs : s.inputs = .host (.writeMem buf a bs) :: rest)
    (hroom : a + bs.length ≤ Config.CAP) :
    step s = .next (State.withMemory { s with inputs := rest } buf ((s.memory buf).putAll a bs)) := by
  have hwrite : writeBytes buf a bs { s with inputs := rest } =
      .ok (State.withMemory { s with inputs := rest } buf ((s.memory buf).putAll a bs)) := by
    cases buf <;> exact if_pos (.inr hroom)
  rw [step_host hinputs, fetchHost_writeMem (s := { s with inputs := rest }) hidle, hwrite, accessFetch_ok,
    runFetched_ended]

theorem step_hostRead {n : Nat} (hinputs : s.inputs = .host (.readMem buf a n) :: rest)
    (hroom : a + n ≤ Config.CAP) :
    step s = .next { s with inputs := rest, reply := .bytes (slice buf { s with inputs := rest } a n) } := by
  rw [step_host hinputs, fetchHost_readMem (s := { s with inputs := rest }) hidle, readBytes_inside hroom,
    accessFetch_ok, runFetched_ended]

end

theorem memory_withInputs (s : State) (rest : List Input) (buf : Buffer) :
    ({ s with inputs := rest } : State).memory buf = s.memory buf := by
  cases buf <;> rfl

theorem memory_withMemory_same (s : State) (buf : Buffer) (m : Memory) : (s.withMemory buf m).memory buf = m := by
  cases buf <;> rfl

theorem memory_withMemory_ne (s : State) {buf other : Buffer} (h : other ≠ buf) (m : Memory) :
    (s.withMemory buf m).memory other = s.memory other := by
  cases buf with
  | ibuf =>
    cases other with
    | ibuf => exact absurd rfl h
    | obuf => rfl
  | obuf =>
    cases other with
    | ibuf => rfl
    | obuf => exact absurd rfl h

/-- Settles O22: the write stores the bytes in a row, and the read answers that row. -/
theorem hostMemoryWriteReadsBack : Obligations.HostMemoryWriteReadsBack := by
  intro s buf a bs rest hinputs hidle hroom
  let written : State :=
    State.withMemory { s with inputs := .host (.readMem buf a bs.length) :: rest } buf ((s.memory buf).putAll a bs)
  have hwrite : step s = .next written := step_hostWrite hidle hinputs hroom
  have hstored : written.memory buf = (s.memory buf).putAll a bs := memory_withMemory_same ..
  have hread : step written =
      .next { written with inputs := rest, reply := .bytes (slice buf { written with inputs := rest } a bs.length) } :=
    step_hostRead (by cases buf <;> exact hidle) (by cases buf <;> rfl) hroom
  have hbytes : slice buf { written with inputs := rest } a bs.length = bs :=
    slice_putAll ((memory_withInputs written rest buf).trans hstored)
  refine ⟨_, (runSteps_succ hwrite 1).trans (runSteps_succ hread 0), congrArg HostReply.bytes hbytes, rfl,
    fun other b houtside => ?_, ?_⟩
  · have hsame : byteAt other (written.memory other) b = byteAt other (s.memory other) b := by
      by_cases hother : other = buf
      · subst hother
        rw [hstored, byteAt_putAll_outside other bs _ (houtside.resolve_left (not_not_intro rfl))]
      · rw [memory_withMemory_ne _ hother, memory_withInputs]
    cases other <;> exact hsame
  · cases buf <;> exact ⟨rfl, rfl, rfl, rfl, rfl, rfl⟩

/-- Settles O23. -/
theorem wordReadIsLittleEndian : Obligations.WordReadIsLittleEndian := fun _ _ _ => ⟨readLE_four, readLE_three⟩

/-! ### Outside the memories -/

theorem writeByte_outside {buf : Buffer} {a : Nat} (h : Config.CAP ≤ a) (v : Byte) (s : State) :
    writeByte buf a v s = .error (.outsideMemory buf a) := if_neg (Nat.not_lt.mpr h)

theorem readBytes_outside {buf : Buffer} {a : Nat} (h : Config.CAP ≤ a) (n : Nat) (s : State) :
    readBytes buf a (n + 1) s = .error (.outsideMemory buf a) := by
  rw [readBytes, readByte_outside h]

theorem writeBytes_outside {buf : Buffer} {a : Nat} (h : Config.CAP ≤ a) (v : Byte) (s : State) :
    writeBytes buf a [v] s = .error (.outsideMemory buf a) := by
  have hover : ¬ ([v] = [] ∨ a + [v].length ≤ Config.CAP) := by
    simp only [List.cons_ne_nil, List.length_singleton, false_or]
    omega
  exact if_neg hover

theorem withTree_outside {s : State} {j : Nat} (h : Config.CAP ≤ treeAddr s j) (k : Byte → Out) :
    withTree j s k = .fault (.outsideMemory .ibuf (treeAddr s j)) := by
  rw [withTree, readByte_outside h, access_error]

/-- Past the overflow test a row reads the child of its side first. -/
theorem exec_walkRow_outside {s : State} {b : Bool} {off : Nat} (hp : advancedPos off s ≤ s.huf.extra.toNat)
    (h : Config.CAP ≤ treeAddr s (childIndex b (advancedPos off s))) (tagL tagR : Bool) :
    exec (walkRow b tagL tagR off) s =
      .fault (.outsideMemory .ibuf (treeAddr s (childIndex b (advancedPos off s)))) := by
  rw [exec_walkRow, withAdvance_inside hp]
  split
  · exact withTree_outside h _
  · exact withTree_outside h _

/-- Settles O24: each access tests its address before anything else it does. -/
theorem accessOutsideMemoryFaults : Obligations.AccessOutsideMemoryFaults := by
  intro s buf a ha
  refine ⟨readByte_outside ha, fun v => writeByte_outside ha v s, fun hidle n rest hinputs => ?_,
    fun hidle v rest hinputs => ?_, fun other off hp => ⟨fun haddr => ?_, fun haddr => ?_⟩⟩
  · rw [step_host hinputs, fetchHost_readMem (s := { s with inputs := rest }) hidle, readBytes_outside ha,
      accessFetch_error, runFetched_ended]
  · rw [step_host hinputs, fetchHost_writeMem (s := { s with inputs := rest }) hidle, writeBytes_outside ha,
      accessFetch_error, runFetched_ended]
  · subst haddr
    exact ⟨exec_walkRow_outside (b := false) hp ha false other, exec_walkRow_outside (b := false) hp ha true other⟩
  · subst haddr
    exact ⟨exec_walkRow_outside (b := true) hp ha other false, exec_walkRow_outside (b := true) hp ha other true⟩

/-! ### The failure codes -/

/-- No code is above 8 (60_exceptions.md R190). -/
theorem errCodeWord_le (c : Option Failure) : (errCodeWord c).toNat ≤ 8 := by
  cases c with
  | none => exact Nat.zero_le _
  | some e => cases e <;> decide

/-- Settles O43: the eight rows of the list, and the bound. -/
theorem failureCodesAreThoseOfTheList : Obligations.FailureCodesAreThoseOfTheList :=
  ⟨rfl, rfl, rfl, rfl, rfl, rfl, rfl, rfl, errCodeWord_le, rfl⟩

end Sys2Proof.HostInterface

/-! PROOF of O55 and O56. What holds of a result of the functions `hdec` and `decompress` (41_huffman.md R136, R142,
42_container.md R151, R157 to R160, R163): each clean end is traced back through the checks that let it pass. -/

namespace Sys2Proof.FunctionResults

open Sys2Proof.Machine Sys2Proof.DecompRun Sys2Proof.ChecksumAlgebra

/-! ### `hdec` -/

section
variable {source : List Byte} {outLen : Nat} {out : List Byte}

/-- A bit that ends the walk cleanly fills the payload, in the last chunk of the source (R136). -/
theorem of_walkBit_ok {rem : Nat} {b : Bool} {w : Walk} (h : walkBit source outLen rem b w = .ended (.ok out)) :
    out.length = outLen ∧ rem = 4 := by
  unfold walkBit at h
  extract_lets p child at h
  split at h
  · cases h
  generalize (if b = true then entryTagR w.entry else entryTagL w.entry) = leaf at h
  cases leaf with
  | false => cases h
  | true =>
    rw [if_pos rfl] at h
    split_ifs at h with hfull hrem
    · cases h
    · cases h
      exact ⟨hfull, not_not.mp hrem⟩

theorem of_walkBits_ok {rem : Nat} {bits : List Bool} :
    ∀ {w : Walk}, walkBits source outLen rem bits w = .ended (.ok out) → out.length = outLen ∧ rem = 4 := by
  induction bits with
  | nil => intro w h; cases h
  | cons b rest ih =>
    intro w h
    rw [walkBits] at h
    cases hbit : walkBit source outLen rem b w with
    | ended r =>
      rw [hbit] at h
      cases h
      exact of_walkBit_ok hbit
    | more w' =>
      rw [hbit] at h
      exact ih h

/-- A clean end is reached in the last of the whole chunks, with no bytes behind it. -/
theorem of_walkChunks_ok {bytes : List Byte} {w : Walk} (h : walkChunks source outLen bytes w = .ok out) :
    out.length = outLen ∧ 4 ≤ bytes.length ∧ bytes.length % 4 = 0 := by
  induction bytes, w using walkChunks.induct source outLen with
  | case1 b0 b1 b2 b3 rest w r hbits =>
    rw [walkChunks, hbits] at h
    cases h
    obtain ⟨hlen, hlast⟩ := of_walkBits_ok hbits
    simp only [List.length_cons]
    omega
  | case2 b0 b1 b2 b3 rest w w' hbits ih =>
    rw [walkChunks, hbits] at h
    obtain ⟨hlen, hsome, hwhole⟩ := ih h
    simp only [List.length_cons]
    omega
  | case3 t w hshort =>
    rw [walkChunks] at h
    · cases h
    · exact hshort

end

/-- A clean decode has passed the entry checks, and is the end of its walk (R121 to R127). -/
theorem of_hdecFn_ok {source out : List Byte} (h : hdecFn source = .ok out) :
    leAt source 1 3 ≠ 0 ∧
      walkChunks source (leAt source 1 3) (source.drop (6 + 2 * (byteIn source 4).toNat))
        { pos := 0, entry := byteIn source 5, out := [] } = .ok out := by
  unfold hdecFn at h
  extract_lets outLen magIdx at h
  split_ifs at h with hshort hformat hnoRoom hempty
  exact ⟨hempty, h⟩

/-- Settles O55: the last bit of the walk has filled the payload, and the chunks are those behind the tree. -/
theorem hdecResultHasDeclaredLength : Obligations.HdecResultHasDeclaredLength := by
  intro source out h
  obtain ⟨hnonempty, hwalk⟩ := of_hdecFn_ok h
  obtain ⟨hlen, hsome, hwhole⟩ := of_walkChunks_ok hwalk
  rw [List.length_drop] at hsome hwhole
  refine ⟨hlen, ?_, by omega, hwhole⟩
  rintro rfl
  exact hnonempty hlen.symm

/-! ### `decompress` -/

/-- The scan finds the first probed offset that holds the marker (R151). -/
theorem of_scanFn_some {file : List Byte} {fuel found : Nat} :
    ∀ {o : Nat}, scanFn file fuel o = some found →
      ∃ j, found = o + 64 * j ∧ found ≤ 1024 ∧ leAt file found 4 = 0x434F4D50 ∧
        ∀ k < j, leAt file (o + 64 * k) 4 ≠ 0x434F4D50 := by
  induction fuel with
  | zero => intro o h; cases h
  | succ fuel ih =>
    intro o h
    rw [scanFn] at h
    split_ifs at h with hend hmarker
    · cases h
      have hlast : ¬ 1024 < found := fun hover => hend (.inl hover)
      exact ⟨0, rfl, by omega, hmarker, fun k hk => absurd hk (Nat.not_lt_zero k)⟩
    · obtain ⟨j, hfound, hlast, hholds, hfirst⟩ := ih h
      rw [Config.SCAN_STRIDE] at hfound hfirst
      refine ⟨j + 1, by omega, hlast, hholds, fun k hk => ?_⟩
      cases k with
      | zero => exact hmarker
      | succ k =>
        rw [show o + 64 * (k + 1) = o + 64 + 64 * k by omega]
        exact hfirst k (Nat.lt_of_succ_lt_succ hk)

/-- A result has passed the length check and the checksum check (R157 to R160). -/
theorem of_verifyFn_ok {preamble decoded res : List Byte} {expLen expCrc : Nat}
    (h : verifyFn preamble decoded expLen expCrc = .ok res) :
    decoded.length = expLen ∧ (~~~(crc32Fn (crc32Fn Config.SEED preamble) decoded)).toNat = expCrc ∧
      res = preamble ++ decoded := by
  unfold verifyFn at h
  split_ifs at h with hlen hcrc
  cases h
  exact ⟨not_not.mp hlen, not_not.mp hcrc, rfl⟩

theorem of_resultAfterDecode_ok {file res : List Byte} {o : Nat} {r : Result}
    (h : resultAfterDecode file o r = .ok res) :
    ∃ decoded, verifyFn (file.take o) decoded (leAt file (o + 8) 4) (leAt file (o + 12) 4) = .ok res := by
  cases r with
  | ok decoded => exact ⟨decoded, h⟩
  | err e k => cases h
  | refused => cases h

/-- A decompression that succeeds has found its marker, has room for a header there, and is verified. -/
theorem of_decompressFn_ok {file res : List Byte} (h : decompressFn file = .ok res) :
    ∃ o decoded, scanFn file 17 0 = some o ∧ o + 17 ≤ file.length ∧
      verifyFn (file.take o) decoded (leAt file (o + 8) 4) (leAt file (o + 12) 4) = .ok res := by
  cases hfound : scanFn file 17 0 with
  | none => cases (decompressFn_of_notFound hfound).symm.trans h
  | some o =>
    rw [decompressFn_of_found hfound] at h
    split_ifs at h with hshort hformat
    obtain ⟨decoded, hverified⟩ := of_resultAfterDecode_ok h
    exact ⟨o, decoded, rfl, Nat.not_lt.mp hshort, hverified⟩

/-- Settles O56: the offset is the scan's, and the result is the preamble before it with the decode behind it. -/
theorem decompressResultIsVerified : Obligations.DecompressResultIsVerified := by
  intro file res h
  obtain ⟨o, decoded, hfound, hroom, hverified⟩ := of_decompressFn_ok h
  obtain ⟨j, hoffset, hlast, hmarker, hfirst⟩ := of_scanFn_some hfound
  obtain ⟨hlen, hcrc, rfl⟩ := of_verifyFn_ok hverified
  have hpreamble : (file.take o).length = o := by
    rw [List.length_take]
    omega
  refine ⟨o, by omega, hlast, hroom, hmarker, fun k hk => ?_, ?_, List.take_left' hpreamble, ?_⟩
  · have hbefore := hfirst k (by omega)
    rwa [Nat.zero_add] at hbefore
  · rw [List.length_append, hpreamble, hlen]
  · rw [← crc32Fn_append]
    exact hcrc

end Sys2Proof.FunctionResults
